-- ==== Sys2Proof/Word.lean ====
section
/-! DEFINITION. The word types of the block (spec/00_scope.md R6, spec/10_state.md R20 to R23). All values are
unsigned; bit 0 is the least significant bit. -/

namespace Sys2Proof

/-- A byte is 8 bits (R6). -/
abbrev Byte := BitVec 8

/-- 16 bits: the Adler sums `a`, `b` and a stored block's `LEN` (R22, R23, R99). -/
abbrev Half := BitVec 16

/-- 32 bits: `crc`, the operands `n`, `tag`, `len`, `width`, `height`, and a completion's `result` (R21, R33, R109). -/
abbrev Word := BitVec 32

end Sys2Proof
end

