-- ==== Sys2Proof/Machine/Bytes.lean ====
section
/-! DEFINITION. Byte order (spec/00_scope.md R7, spec/20_memory.md R61): the only places where a multi-byte value meets
a sequence of bytes. -/

namespace Sys2Proof.Machine

/-- `be32(v) = [v[31:24], v[23:16], v[15:8], v[7:0]]` (R7). -/
def be32 (v : Word) : List Byte :=
  [v.extractLsb' 24 8, v.extractLsb' 16 8, v.extractLsb' 8 8, v.extractLsb' 0 8]

/-- `le16(v) = [v[7:0], v[15:8]]` (R7). -/
def le16 (v : Half) : List Byte :=
  [v.extractLsb' 0 8, v.extractLsb' 8 8]

/-- The 32-bit operand of four packet bytes, `b1 × 2^24 + b2 × 2^16 + b3 × 2^8 + b4` (spec/30_encoding.md R109). -/
def ofBe32 (b1 b2 b3 b4 : Byte) : Word := b1 ++ b2 ++ b3 ++ b4

/-- The 16-bit value of two bytes, the least significant first: how a reader takes `LEN` and `NLEN` (R61). -/
def ofLe16 (lo hi : Byte) : Half := hi ++ lo

end Sys2Proof.Machine
end

