-- ==== Sys2Proof/Syntax.lean ====
section
/-! DEFINITION. The commands of the block: one constructor of `Instr` per row of spec/opcode_table.json
(spec/30_encoding.md R110), and the operand record a command leaves in the command latch (spec/10_state.md R26). -/

namespace Sys2Proof

/-- The ten operations, with their operands at full width (R109, R110). The width of an operand is its type's, so
every term is a command the packet format can carry. -/
inductive Instr where
  /-- `CRC.INIT` (R131) -/
  | crcInit
  /-- `CRC.UPD byte` (R132) -/
  | crcUpd (byte : Byte)
  /-- `CRC.FIN` (R134) -/
  | crcFin
  /-- `ADL.INIT` (R151) -/
  | adlInit
  /-- `ADL.UPD byte` (R152) -/
  | adlUpd (byte : Byte)
  /-- `ADL.FIN` (R154) -/
  | adlFin
  /-- `SBW.WRAP n` (R176) -/
  | sbwWrap (n : Word)
  /-- `SLG.GEN width, height, r, g, b` (R204) -/
  | slgGen (width height : Word) (r g b : Byte)
  /-- `CHK.MAKE tag, len` (R224) -/
  | chkMake (tag len : Word)
  /-- `ENC.ENCODE width, height, r, g, b` (R246) -/
  | encEncode (width height : Word) (r g b : Byte)
  deriving DecidableEq, Repr

/-- The operands of one command, by packet format (R26, R108): none for `C0`, one byte for `C1`, the raw length for
`C4`, tag and payload length for `C8`, dimensions and colour for `C11`. -/
inductive Operands where
  | bare
  | byte (value : Byte)
  | length (n : Word)
  | chunk (tag len : Word)
  | image (width height : Word) (r g b : Byte)
  deriving DecidableEq, Repr, Inhabited

/-- The command latch: the opcode byte and the operands of the operation in progress (R26). -/
structure Latch where
  op : Byte
  operands : Operands
  deriving DecidableEq, Repr, Inhabited

/-- The packet formats of R108. -/
inductive Format where
  | c0 | c1 | c4 | c8 | c11
  deriving DecidableEq, Repr

/-- The names of the ten operations, without operands: the rows of R110 in the table's order. -/
inductive Op where
  | crcInit | crcUpd | crcFin | adlInit | adlUpd | adlFin | sbwWrap | slgGen | chkMake | encEncode
  deriving DecidableEq, Repr

end Sys2Proof
end

