-- ==== Sys2Proof/Machine/Opcodes.lean ====
section
/-! DEFINITION. The opcode table (spec/30_encoding.md R108, R110, R111): opcode byte, mnemonic and packet format of each
of the ten operations, and the operands each command carries. -/

namespace Sys2Proof

/-- Bytes in a packet of each format, the opcode byte included (R108). -/
def Format.packetLength : Format → Nat
  | .c0 => 1
  | .c1 => 2
  | .c4 => 5
  | .c8 => 9
  | .c11 => 12

/-- The opcode byte (R110). -/
def Op.code : Op → Byte
  | .crcInit => 0x10
  | .crcUpd => 0x11
  | .crcFin => 0x12
  | .adlInit => 0x20
  | .adlUpd => 0x21
  | .adlFin => 0x22
  | .sbwWrap => 0x30
  | .slgGen => 0x40
  | .chkMake => 0x50
  | .encEncode => 0x60

/-- The packet format (R110). -/
def Op.format : Op → Format
  | .crcInit => .c0
  | .crcUpd => .c1
  | .crcFin => .c0
  | .adlInit => .c0
  | .adlUpd => .c1
  | .adlFin => .c0
  | .sbwWrap => .c4
  | .slgGen => .c11
  | .chkMake => .c8
  | .encEncode => .c11

/-- The mnemonic (R110). -/
def Op.mnemonic : Op → String
  | .crcInit => "CRC.INIT"
  | .crcUpd => "CRC.UPD"
  | .crcFin => "CRC.FIN"
  | .adlInit => "ADL.INIT"
  | .adlUpd => "ADL.UPD"
  | .adlFin => "ADL.FIN"
  | .sbwWrap => "SBW.WRAP"
  | .slgGen => "SLG.GEN"
  | .chkMake => "CHK.MAKE"
  | .encEncode => "ENC.ENCODE"

/-- The ten operations in the order of R110. -/
def Op.all : List Op :=
  [.crcInit, .crcUpd, .crcFin, .adlInit, .adlUpd, .adlFin, .sbwWrap, .slgGen, .chkMake, .encEncode]

/-- The operation an opcode byte names; `none` for the 246 illegal bytes (R111). -/
def Op.ofByte (c : Byte) : Option Op := Op.all.find? (fun o => o.code == c)

/-- The operation of a command. -/
def Instr.op : Instr → Op
  | .crcInit => .crcInit
  | .crcUpd _ => .crcUpd
  | .crcFin => .crcFin
  | .adlInit => .adlInit
  | .adlUpd _ => .adlUpd
  | .adlFin => .adlFin
  | .sbwWrap _ => .sbwWrap
  | .slgGen _ _ _ _ _ => .slgGen
  | .chkMake _ _ => .chkMake
  | .encEncode _ _ _ _ _ => .encEncode

/-- The operands the latch takes from a command (spec/10_state.md R26). -/
def Instr.operands : Instr → Operands
  | .crcInit => .bare
  | .crcUpd x => .byte x
  | .crcFin => .bare
  | .adlInit => .bare
  | .adlUpd x => .byte x
  | .adlFin => .bare
  | .sbwWrap n => .length n
  | .slgGen w h r g b => .image w h r g b
  | .chkMake tag len => .chunk tag len
  | .encEncode w h r g b => .image w h r g b

/-- The latch contents while a command is in progress (R26). -/
def Instr.latch (i : Instr) : Latch := ⟨i.op.code, i.operands⟩

/-- How many bytes the sequencer takes from `CMD` for the packet whose first byte is `c`: the format's length (R108), or
one byte for an illegal opcode (R111). -/
def packetLength (c : Byte) : Nat :=
  match Op.ofByte c with
  | some o => o.format.packetLength
  | none => 1

end Sys2Proof
end

