-- ==== Sys2Proof/WellFormed.lean ====
section
/-! DEFINITION. What is well formed: a command packet (spec/30_encoding.md R108, R110, R111). -/

namespace Sys2Proof

/-- Every `Instr` term is well formed: each operand has the full width of its field (R109) and every value of it is legal
as an encoding (R112; dimensions outside `1..4096` are encodable and refused by the operation, not by the decoder). -/
def Instr.wf : Instr → Bool
  | .crcInit => true
  | .crcUpd _ => true
  | .crcFin => true
  | .adlInit => true
  | .adlUpd _ => true
  | .adlFin => true
  | .sbwWrap _ => true
  | .slgGen _ _ _ _ _ => true
  | .chkMake _ _ => true
  | .encEncode _ _ _ _ _ => true

/-- A byte sequence is one command packet: its first byte is one of the ten opcodes and its length is that opcode's
(R108, R110). -/
def Packet.wf : List Byte → Bool
  | [] => false
  | c :: rest =>
    match Op.ofByte c with
    | some o => rest.length + 1 == o.format.packetLength
    | none => false

end Sys2Proof
end

