-- ==== Sys2Proof/Decode.lean ====
section
/-! DEFINITION. The packet decoder, total on any bytes and rejecting by name, and after it the encoder
(spec/30_encoding.md R108 to R111). -/

namespace Sys2Proof

open Machine (be32 ofBe32)

/-- Why the head of `CMD` gives no command. -/
inductive Rejection where
  /-- `CMD` is empty. -/
  | noCommand
  /-- The first byte is none of the ten opcodes (R111); the sequencer consumes that byte alone. -/
  | illegalOpcode (c : Byte)
  /-- The opcode is legal and the packet's operand bytes are not all there (log 2). -/
  | incomplete (o : Op)
  deriving DecidableEq, Repr

/-- What the decoder reads: a command and the bytes after its packet, or a rejection. -/
inductive Decoded where
  | command (i : Instr) (rest : List Byte)
  | reject (why : Rejection)
  deriving DecidableEq, Repr

/-- The operand bytes of an operation, most significant byte first, and the bytes after them (R108, R109). -/
def decodeOperands : Op → List Byte → Option (Instr × List Byte)
  | .crcInit, t => some (.crcInit, t)
  | .crcUpd, x :: t => some (.crcUpd x, t)
  | .crcUpd, _ => none
  | .crcFin, t => some (.crcFin, t)
  | .adlInit, t => some (.adlInit, t)
  | .adlUpd, x :: t => some (.adlUpd x, t)
  | .adlUpd, _ => none
  | .adlFin, t => some (.adlFin, t)
  | .sbwWrap, n1 :: n2 :: n3 :: n4 :: t => some (.sbwWrap (ofBe32 n1 n2 n3 n4), t)
  | .sbwWrap, _ => none
  | .slgGen, w1 :: w2 :: w3 :: w4 :: h1 :: h2 :: h3 :: h4 :: r :: g :: b :: t =>
    some (.slgGen (ofBe32 w1 w2 w3 w4) (ofBe32 h1 h2 h3 h4) r g b, t)
  | .slgGen, _ => none
  | .chkMake, t1 :: t2 :: t3 :: t4 :: l1 :: l2 :: l3 :: l4 :: t =>
    some (.chkMake (ofBe32 t1 t2 t3 t4) (ofBe32 l1 l2 l3 l4), t)
  | .chkMake, _ => none
  | .encEncode, w1 :: w2 :: w3 :: w4 :: h1 :: h2 :: h3 :: h4 :: r :: g :: b :: t =>
    some (.encEncode (ofBe32 w1 w2 w3 w4) (ofBe32 h1 h2 h3 h4) r g b, t)
  | .encEncode, _ => none

/-- The decoder: the first byte tells the operation and the packet's length (R108, R110, R111). -/
def decode : List Byte → Decoded
  | [] => .reject .noCommand
  | c :: t =>
    match Op.ofByte c with
    | none => .reject (.illegalOpcode c)
    | some o =>
      match decodeOperands o t with
      | some (i, rest) => .command i rest
      | none => .reject (.incomplete o)

/-- The operand bytes of a command, most significant byte first (R108). -/
def encodeOperands : Instr → List Byte
  | .crcInit => []
  | .crcUpd x => [x]
  | .crcFin => []
  | .adlInit => []
  | .adlUpd x => [x]
  | .adlFin => []
  | .sbwWrap n => be32 n
  | .slgGen w h r g b => be32 w ++ be32 h ++ [r, g, b]
  | .chkMake tag len => be32 tag ++ be32 len
  | .encEncode w h r g b => be32 w ++ be32 h ++ [r, g, b]

/-- The command packet of a command (R108). -/
def encode (i : Instr) : List Byte := i.op.code :: encodeOperands i

/-- The first twelve bytes of a table word: bits `8k+7 .. 8k` of `w` are packet byte `k`, and every bit from `nbits` on
is 0. Twelve bytes is the longest packet. -/
def tableBytes (nbits w : Nat) : List Byte :=
  (List.range 12).map (fun k => BitVec.ofNat 8 ((w % 2 ^ nbits) / 2 ^ (8 * k)))

/-- The bytes of the one packet at the front of a table word: as many as its opcode byte says. -/
def tablePacket (nbits w : Nat) : List Byte :=
  (tableBytes nbits w).take (packetLength ((tableBytes nbits w).headD 0))

/-- The command the decoder reads from a table word. -/
def decodeTableWord (nbits w : Nat) : Option Instr :=
  match decode (tablePacket nbits w) with
  | .command i _ => some i
  | .reject _ => none

end Sys2Proof
end

