-- ==== Sys2Proof/Config.lean ====
section
/-! DEFINITION. The implementation parameters of spec/00_scope.md R5 and the model's one free value. -/

namespace Sys2Proof.Config

/-- `MAX_DIM`: the largest legal width and height; the smallest is 1. -/
def maxDim : Nat := 4096

/-- `BLOCK_MAX`: most data bytes in one stored block. -/
def blockMax : Nat := 65535

/-- `ADLER_MOD`: the modulus of both Adler sums. -/
def adlerMod : Nat := 65521

/-- `CRC_POLY`: the CRC-32 polynomial, reflected form. -/
def crcPoly : Word := 0xEDB88320

/-- `CRC_INIT`: the CRC register at the start of a message. -/
def crcStart : Word := 0xFFFFFFFF

/-- `CRC_XOROUT`: XORed onto the register to give the checksum. -/
def crcXorOut : Word := 0xFFFFFFFF

/-- `ADL_A_INIT`. -/
def adlerAStart : Half := 1

/-- `ADL_B_INIT`. -/
def adlerBStart : Half := 0

/-- `ZHDR`: the stream header of the stored-block wrapper. -/
def streamHeader : List Byte := [0x78, 0x01]

/-- `SIG`: the file signature. -/
def signature : List Byte := [0x89, 0x50, 0x4E, 0x47, 0x0D, 0x0A, 0x1A, 0x0A]

/-- `FILTER_NONE`: the framing byte of a row. -/
def filterNone : Byte := 0x00

/-- `BIT_DEPTH`, `COLOR_MODE`, `COMPRESSION`, `FILTER_METHOD`, `INTERLACE`: the constants of the header chunk. The
spec takes `COLOR_MODE` = 2 from general knowledge (spec/93_implementation_defined.md G3; log 20). -/
def headerConstants : List Byte := [0x08, 0x02, 0x00, 0x00, 0x00]

/-- `TAG_IHDR`: the ASCII tag, first character in the most significant byte. -/
def tagIHDR : Word := 0x49484452

/-- `TAG_IDAT`. -/
def tagIDAT : Word := 0x49444154

/-- `TAG_IEND`. -/
def tagIEND : Word := 0x49454E44

/-- What the command latch holds after the `k`-th completion: a FREE VALUE. The spec gives it no value ("any value;
not readable by any operation", spec/93_implementation_defined.md U14; log 7). -/
opaque freeLatch : Nat → Latch

end Sys2Proof.Config
end

