-- ==== Sys2Proof/Machine/State.lean ====
section
/-! DEFINITION. The architectural state (spec/10_state.md R20 to R40), the ways a step can stop, and reset. -/

namespace Sys2Proof.Machine

/-- The `status` of a completion record (R33). The values 3 to 255 are reserved and never produced, so the type has none
of them (spec/93_implementation_defined.md U15; log 19). -/
inductive Status where
  | ok
  | invalidDimensions
  | illegalCommand
  deriving DecidableEq, Repr

/-- A completion record: the opcode byte it answers, the status and the 32-bit result (R33). -/
structure Completion where
  op : Byte
  status : Status
  result : Word
  deriving DecidableEq, Repr

/-- Which frame the sequencer is emitting: the outermost part of `phase` (R27). `signature`, `header`, `data` and
`endChunk` are the parts of a file in order (spec/45_file_encoder.md R256). -/
inductive Frame where
  /-- no operation in progress -/
  | atRest
  /-- `SLG.GEN`: the scanline buffer -/
  | raster
  /-- `SBW.WRAP`: the compressed stream -/
  | stream
  /-- `CHK.MAKE`: one chunk -/
  | chunk
  /-- `ENC.ENCODE`, `SG0..SG7` -/
  | signature
  /-- `ENC.ENCODE`, the `IHDR` chunk -/
  | header
  /-- `ENC.ENCODE`, the `IDAT` chunk -/
  | data
  /-- `ENC.ENCODE`, the `IEND` chunk -/
  | endChunk
  deriving DecidableEq, Repr

/-- The chunk serializer's phase (spec/44_chunk_serializer.md R230): `CL0..CL3`, `CT0..CT3`, `CP`, `CC0..CC3`, the number
within a phase being `idx`. -/
inductive ChkPhase where
  | atRest | cl | ct | cp | cc
  deriving DecidableEq, Repr

/-- The wrapper's phase (spec/42_stored_block_wrapper.md R184): `ZH0 ZH1`; the block header group `BH L0 L1 N0 N1`, which
R27 indexes 0 to 4; `BD`; `ZT0..ZT3`. -/
inductive SbwPhase where
  | atRest | zh | bh | bd | zt
  deriving DecidableEq, Repr

/-- The sequencer counters and the phase (R27). -/
structure Sequencer where
  /-- index of the next byte inside a fixed-length field -/
  idx : BitVec 4
  /-- `pay_rem`: payload bytes of the current chunk still to pass -/
  payRem : BitVec 32
  /-- `in_rem`: raw bytes not yet placed in a block -/
  inRem : BitVec 32
  /-- `blk_rem`: data bytes of the current stored block still to pass -/
  blkRem : BitVec 16
  /-- rows still to emit -/
  row : BitVec 13
  /-- pixels of the current row still to emit -/
  px : BitVec 13
  /-- next colour channel: 0 = r, 1 = g, 2 = b -/
  ch : BitVec 2
  frame : Frame
  chk : ChkPhase
  sbw : SbwPhase
  deriving DecidableEq, Repr

/-- Every counter 0 and every phase at rest: the sequencer whenever `busy = 0` (R27). -/
def Sequencer.zero : Sequencer :=
  { idx := 0, payRem := 0, inRem := 0, blkRem := 0, row := 0, px := 0, ch := 0,
    frame := .atRest, chk := .atRest, sbw := .atRest }

/-- The whole state of one instance of the block (R20). -/
structure State where
  /-- the CRC-32 remainder, not yet inverted (R21) -/
  crc : Word
  /-- Adler low sum (R22) -/
  a : Half
  /-- Adler high sum (R23) -/
  b : Half
  /-- an operation is in progress (R25) -/
  busy : Bool
  /-- the command latch (R26) -/
  latch : Latch
  /-- sequencer counters and phase (R27) -/
  seq : Sequencer
  /-- `CMD`: packet bytes issued and not yet taken, head first (R29) -/
  cmd : List Byte
  /-- `DIN`: bytes supplied and not yet consumed, head first (R30) -/
  din : List Byte
  /-- `DOUT`: bytes emitted and not yet taken, head first (R31) -/
  dout : List Byte
  /-- `CPL`: completion records not yet taken, head first (R32) -/
  cpl : List Completion
  /-- THE MODEL'S OWN: how many free values have been drawn (log 7, log 8) -/
  draws : Nat
  deriving DecidableEq, Repr

/-- The state after reset (R40, spec/70_reset_and_hazards.md R300). The spec gives the latch no reset value (log 6), and
`draws` is the model's own (log 8). -/
def State.reset : State :=
  { crc := 0xFFFFFFFF, a := 1, b := 0, busy := false, latch := ⟨0, .bare⟩, seq := Sequencer.zero,
    cmd := [], din := [], dout := [], cpl := [], draws := 0 }

/-- Why the machine can stop. The spec's own exceptions are completion records, not stops (spec/60_exceptions.md R270). -/
inductive Fault where
  /-- Raised by `settle` and `tick`: `busy = 1`, and no rule of the spec gives the sequencer a next byte, nor is it waiting
  for `DIN`. No run reaches such a state. SAFE: the model stops where the spec says nothing (log 18). -/
  | straySequencer
  deriving DecidableEq, Repr

/-- Why an instruction can be refused. -/
inductive Refusal where
  /-- Raised by an arm of `exec` whose instruction has no meaning yet; there is none. SAFE. -/
  | notModelled (mnemonic : String)
  deriving DecidableEq, Repr

end Sys2Proof.Machine
end

