-- ==== Sys2Proof/Machine/Ops.lean ====
section
/-! DEFINITION. The shared operations: the primitives of spec/00_scope.md R8 over the queues and the sequencer, taking an
exception (spec/60_exceptions.md R274), and emitting one byte of a fixed field. There is no return from an exception
(R276). -/

namespace Sys2Proof.Machine

/-- `InPop()`: remove the head of `DIN`; `none` while `DIN` is empty, the hold of spec/20_memory.md R66. -/
def State.inPop (s : State) : Option (Byte × State) :=
  match s.din with
  | [] => none
  | x :: rest => some (x, { s with din := rest })

/-- `OutPush(x)`: append one byte to `DOUT`; never holds (R67). -/
def State.outPush (x : Byte) (s : State) : State := { s with dout := s.dout ++ [x] }

/-- A command is taken from `CMD`: the latch holds it and `busy` is 1 until it completes (R25, R26). -/
def State.take (l : Latch) (s : State) : State := { s with busy := true, latch := l }

/-- The sequencer is set to the start of a frame (R27). -/
def State.openFrame (q : Sequencer) (s : State) : State := { s with seq := q }

/-- `Complete(status, result)`: append the completion record, clear `busy` and every counter (R33). What the latch holds
afterwards is a free value (log 7). -/
def State.complete (status : Status) (result : Word) (s : State) : State :=
  { s with
    cpl := s.cpl ++ [⟨s.latch.op, status, result⟩]
    busy := false
    seq := Sequencer.zero
    latch := Config.freeLatch s.draws
    draws := s.draws + 1 }

/-- The two exceptions of the block (R270). -/
inductive ExceptionCause where
  | invalidDimensions
  | illegalCommand
  deriving DecidableEq, Repr

/-- The `status` code that reports an exception (R270). -/
def ExceptionCause.status : ExceptionCause → Status
  | .invalidDimensions => .invalidDimensions
  | .illegalCommand => .illegalCommand

/-- `raise E`: the completion record with the exception's code and result 0, `busy <- 0`, and nothing else (R274). There
is no handler, no vector and nothing is saved. -/
def State.raise (e : ExceptionCause) (s : State) : State := s.complete e.status 0

/-- The numeric `status` of R33. -/
def Status.code : Status → Byte
  | .ok => 0
  | .invalidDimensions => 1
  | .illegalCommand => 2

/-- A completion record as the 6 bytes of a byte-wide transport: `[op, status] ++ be32(result)` (R33). -/
def Completion.bytes (c : Completion) : List Byte := [c.op, c.status.code] ++ be32 c.result

/-- Where an operation's bytes come from: the next byte and the state after it, or `none` where there is no next byte
(an empty `DIN`, or a position no rule describes). An inner operation's bytes are the outer one's input (R8). -/
abbrev Source := State → Option (Byte × State)

/-- `idx <- v` (R27). -/
def State.setIdx (v : BitVec 4) (s : State) : State := { s with seq := { s.seq with idx := v } }

/-- `act` at the first byte of a field only: where the byte-step rules write `ZH0`, `BH`, `CL0`. -/
def State.atFirst (act : State → State) (s : State) : State := if s.seq.idx = 0 then act s else s

/-- One byte of a fixed-length field, `field[idx]`. After the field's last byte `idx` is 0 again and `done` moves the
phase on; an `idx` beyond the field has no byte. -/
def emitField (field : List Byte) (done : State → State) : Source := fun s =>
  match field[s.seq.idx.toNat]? with
  | none => none
  | some x =>
    if s.seq.idx.toNat + 1 = field.length then some (x, done (s.setIdx 0))
    else some (x, s.setIdx (s.seq.idx + 1))

end Sys2Proof.Machine
end

