-- ==== Sys2Proof/Machine/Operands.lean ====
section
/-! DEFINITION. What the operations read from their operands (spec/30_encoding.md R109, R112): the range check of the
dimensions and the lengths computed from them before the first byte (spec/45_file_encoder.md R244). Operands are used
at full width, with no sign extension, scaling or shifting. -/

namespace Sys2Proof.Machine

/-- Both dimensions lie in `1..4096`, compared as unsigned 32-bit numbers (spec/60_exceptions.md R271). -/
def dimsLegal (width height : Word) : Bool :=
  decide (1 ≤ width.toNat ∧ width.toNat ≤ Config.maxDim ∧ 1 ≤ height.toNat ∧ height.toNat ≤ Config.maxDim)

/-- `n = height × (1 + 3 × width)`: the length of a scanline buffer (spec/43_scanline_generator.md R202). -/
def rasterLength (width height : Nat) : Nat := height * (1 + 3 * width)

/-- `nblk = max(1, ceil(n / 65535))`: how many stored blocks carry `n` bytes (spec/42_stored_block_wrapper.md R174). -/
def blockCount (n : Nat) : Nat := max 1 ((n + (Config.blockMax - 1)) / Config.blockMax)

/-- `zlen = 2 + 5 × nblk + n + 4`: the length of a compressed stream of `n` raw bytes (R172, R244). -/
def streamLength (n : Nat) : Nat := 2 + 5 * blockCount n + n + 4

/-- `flen = 63 + 5 × nblk + n`: the length of a file (R244). -/
def fileLength (width height : Nat) : Nat := 57 + streamLength (rasterLength width height)

end Sys2Proof.Machine
end

