-- ==== Sys2Proof/Machine/Flags.lean ====
section
/-! DEFINITION. The block has no condition codes (spec/10_state.md R34). The nearest thing it computes is the final flag
of a stored block's header byte, which is emitted data (spec/30_encoding.md R98). -/

namespace Sys2Proof.Machine

/-- A block is the last of its stream exactly when at its header byte at most 65535 raw bytes are left
(spec/42_stored_block_wrapper.md R184). -/
def finalFlag (inRem : Word) : Bool := decide (inRem.toNat ≤ Config.blockMax)

/-- The block header byte: bit 0 the final flag, the mode bits 2:1 and bits 7:3 zero (R98). -/
def blockHeaderByte (final : Bool) : Byte := if final then 0x01 else 0x00

/-- The data length of the block that starts with `inRem` raw bytes left: `min(in_rem, 65535)` (R176). -/
def blockLength (inRem : Word) : Half := BitVec.ofNat 16 (min inRem.toNat Config.blockMax)

end Sys2Proof.Machine
end

