-- ==== Sys2Proof/Machine/Adler.lean ====
section
/-! DEFINITION. The Adler-32 unit: `ADL.INIT`, `ADL.UPD`, `ADL.FIN` (spec/41_adler32.md). -/

namespace Sys2Proof.Machine

/-- One sum of R152, formed exactly and reduced modulo 65521. -/
def adlerAdd (x y : Nat) : Half := BitVec.ofNat 16 ((x + y) % Config.adlerMod)

/-- The byte update of R152 on `(a, b)`: `a` first, then `b` with the NEW `a`. -/
def adlerByte (ab : Half × Half) (x : Byte) : Half × Half :=
  let a := adlerAdd ab.1.toNat x.toNat
  (a, adlerAdd ab.2.toNat a.toNat)

/-- The sums after the bytes of `s` (R156, R157(c)). -/
def adlerRun (ab : Half × Half) (s : List Byte) : Half × Half := s.foldl adlerByte ab

/-- `(b << 16) OR a` (R154). -/
def adlerPack (a b : Half) : Word := ((b.setWidth 32) <<< 16) ||| a.setWidth 32

/-- The sums at the start of a message (R151). -/
def adlerStart : Half × Half := (Config.adlerAStart, Config.adlerBStart)

/-- `adler32(s)` (R156). -/
def adler32 (s : List Byte) : Word :=
  let ab := adlerRun adlerStart s
  adlerPack ab.1 ab.2

/-- `a <- ab.1`, `b <- ab.2`, together (R159). -/
def State.setAdler (ab : Half × Half) (s : State) : State := { s with a := ab.1, b := ab.2 }

/-- `ADL.INIT`: `a <- 1`, `b <- 0` (R151). -/
def adlInit (s : State) : State :=
  ((s.take Instr.adlInit.latch).setAdler adlerStart).complete .ok 0

/-- `ADL.UPD byte`: fold the byte into `a` and `b` (R152). -/
def adlUpd (x : Byte) (s : State) : State :=
  ((s.take (Instr.adlUpd x).latch).setAdler (adlerByte (s.a, s.b) x)).complete .ok 0

/-- `ADL.FIN`: return the packed sums, which keep their values (R154). -/
def adlFin (s : State) : State :=
  (s.take Instr.adlFin.latch).complete .ok (adlerPack s.a s.b)

/-- The meaning of `ADL.INIT`. -/
def execAdlInit (s : State) : Host.Outcome State Fault Refusal := .next (adlInit s)

/-- The meaning of `ADL.UPD`. -/
def execAdlUpd (x : Byte) (s : State) : Host.Outcome State Fault Refusal := .next (adlUpd x s)

/-- The meaning of `ADL.FIN`. -/
def execAdlFin (s : State) : Host.Outcome State Fault Refusal := .next (adlFin s)

end Sys2Proof.Machine
end

