-- ==== Sys2Proof/Machine/Crc.lean ====
section
/-! DEFINITION. The CRC unit: `CRC.INIT`, `CRC.UPD`, `CRC.FIN` (spec/40_crc32.md). -/

namespace Sys2Proof.Machine

/-- One shift step of R132: right by one, and the polynomial XORed on if the bit shifted out was 1. -/
def crcShift (c : Word) : Word :=
  if c.getLsbD 0 then (c >>> 1) ^^^ Config.crcPoly else c >>> 1

/-- `k` shift steps. -/
def crcShifts : Nat → Word → Word
  | 0, c => c
  | k + 1, c => crcShifts k (crcShift c)

/-- The byte update of R132: XOR the byte into the low 8 bits, then eight shift steps. -/
def crcByte (crc : Word) (x : Byte) : Word := crcShifts 8 (crc ^^^ x.setWidth 32)

/-- The register after the bytes of `s` (R136, R137(b)). -/
def crcRun (crc : Word) (s : List Byte) : Word := s.foldl crcByte crc

/-- The final inversion of R134. -/
def crcChecksum (crc : Word) : Word := crc ^^^ Config.crcXorOut

/-- `crc32(s)` (R136). -/
def crc32 (s : List Byte) : Word := crcChecksum (crcRun Config.crcStart s)

/-- `T[i]`: eight shift steps applied to `i` (R133). -/
def crcTableEntry (i : Byte) : Word := crcShifts 8 (i.setWidth 32)

/-- The constant table `T`, 256 entries (R28, R133, R309). -/
def crcTable : List Word := (List.range 256).map (fun i => crcTableEntry (BitVec.ofNat 8 i))

/-- The table form of the update: `T[(crc XOR byte)[7:0]] XOR (crc >> 8)` (R133). -/
def crcByteByTable (crc : Word) (x : Byte) : Word :=
  crcTable.getD ((crc ^^^ x.setWidth 32).extractLsb' 0 8).toNat 0 ^^^ (crc >>> 8)

/-- `crc <- v`. -/
def State.setCrc (v : Word) (s : State) : State := { s with crc := v }

/-- `CRC.INIT` on a state that has taken the command: `crc <- 0xFFFFFFFF`, then complete (R131). -/
def crcInit (s : State) : State :=
  ((s.take Instr.crcInit.latch).setCrc Config.crcStart).complete .ok 0

/-- `CRC.UPD byte`: fold the byte into `crc` (R132). -/
def crcUpd (x : Byte) (s : State) : State :=
  ((s.take (Instr.crcUpd x).latch).setCrc (crcByte s.crc x)).complete .ok 0

/-- `CRC.FIN`: return the inverted register, which keeps its value (R134). -/
def crcFin (s : State) : State :=
  (s.take Instr.crcFin.latch).complete .ok (crcChecksum s.crc)

/-- The meaning of `CRC.INIT`. -/
def execCrcInit (s : State) : Host.Outcome State Fault Refusal := .next (crcInit s)

/-- The meaning of `CRC.UPD`. -/
def execCrcUpd (x : Byte) (s : State) : Host.Outcome State Fault Refusal := .next (crcUpd x s)

/-- The meaning of `CRC.FIN`. -/
def execCrcFin (s : State) : Host.Outcome State Fault Refusal := .next (crcFin s)

end Sys2Proof.Machine
end

