-- ==== Sys2Proof/Machine/Chunk.lean ====
section
/-! DEFINITION. The chunk serializer (spec/44_chunk_serializer.md): the function `chunk`, the serializer's byte steps, and
how `CHK.MAKE` begins. -/

namespace Sys2Proof.Machine

/-- `chunk(tag, p)` (R222). -/
def chunk (tag : Word) (p : List Byte) : List Byte :=
  be32 (BitVec.ofNat 32 p.length) ++ be32 tag ++ p ++ be32 (crc32 (be32 tag ++ p))

/-- The serializer's phase moves on. -/
def State.setChk (p : ChkPhase) (s : State) : State := { s with seq := { s.seq with chk := p } }

/-- `pay_rem` is written (spec/10_state.md R27). -/
def State.setPayRem (v : BitVec 32) (s : State) : State := { s with seq := { s.seq with payRem := v } }

/-- Fold one emitted byte into `crc` (spec/40_crc32.md R138). -/
def foldCrc : Byte × State → Byte × State
  | (x, s) => (x, s.setCrc (crcByte s.crc x))

/-- The serializer's byte step (R230), drawing its payload from `payload`. `CL0` initialises `crc` and `pay_rem`; the length
bytes are not folded into `crc`, the tag and payload bytes are; the frame ends after `CC3`. Only `CP` can hold. -/
def chkByte (tag len : Word) (payload : Source) : Source := fun s =>
  match s.seq.chk with
  | .atRest => none
  | .cl =>
    emitField (be32 len) (State.setChk .ct)
      (s.atFirst (fun s => (s.setCrc Config.crcStart).setPayRem len))
  | .ct =>
    (emitField (be32 tag) (State.setChk (if s.seq.payRem = 0 then .cc else .cp)) s).map foldCrc
  | .cp =>
    match payload s with
    | none => none
    | some (x, t) =>
      let payRem := t.seq.payRem - 1
      some (foldCrc (x, (t.setPayRem payRem).setChk (if payRem = 0 then .cc else .cp)))
  | .cc => emitField (be32 (crcChecksum s.crc)) (State.setChk .atRest) s

/-- `CHK.MAKE` begins (R224). -/
def startChkMake (tag len : Word) (s : State) : State :=
  (s.take (Instr.chkMake tag len).latch).openFrame { Sequencer.zero with frame := .chunk, chk := .cl }

end Sys2Proof.Machine
end

