-- ==== Sys2Proof/Machine/Scanline.lean ====
section
/-! DEFINITION. The scanline raster generator (spec/43_scanline_generator.md): the function `raster`, the broadcast that
fills a row, the generator's byte steps, and how `SLG.GEN` begins. -/

namespace Sys2Proof.Machine

/-- `rep(k, s)`: `s` concatenated `k` times (spec/00_scope.md R7). -/
def rep (k : Nat) (s : List Byte) : List Byte := (List.replicate k s).flatten

/-- One scanline: the filter byte, then the colour `w` times (R202, spec/30_encoding.md R101). -/
def rowBytes (w : Nat) (r g b : Byte) : List Byte := Config.filterNone :: rep w [r, g, b]

/-- `raster(w, h, r, g, b)`: `h` identical rows (R202). -/
def raster (w h : Nat) (r g b : Byte) : List Byte := rep h (rowBytes w r g b)

/-- A pixel of the row image: three channels (R206). -/
structure Pixel where
  r : Byte
  g : Byte
  b : Byte
  deriving DecidableEq, Repr

/-- One broadcast beat (R206): lanes `p .. min(p + lanes, width) - 1` of the row image receive the same pixel. -/
def broadcastBeat (lanes p : Nat) (colour : Pixel) (image : List Pixel) : List Pixel :=
  image.mapIdx (fun i old => if p ≤ i ∧ i < p + lanes then colour else old)

/-- The beats at `p = 0, lanes, 2 × lanes, ...`, `k` of them. -/
def broadcastBeats (lanes : Nat) (colour : Pixel) : Nat → List Pixel → List Pixel
  | 0, image => image
  | k + 1, image => broadcastBeat lanes (k * lanes) colour (broadcastBeats lanes colour k image)

/-- The row image after all its beats, whatever stood in it before; `image.length` is the width (R206). -/
def broadcastRow (lanes : Nat) (colour : Pixel) (image : List Pixel) : List Pixel :=
  broadcastBeats lanes colour ((image.length + (lanes - 1)) / lanes) image

/-- The row image serialised: filter byte first, then lane 0's `r, g, b`, then lane 1's, and so on (R206). -/
def serialiseRow (image : List Pixel) : List Byte :=
  Config.filterNone :: (image.map (fun p => [p.r, p.g, p.b])).flatten

/-- `row`, `px`, `ch` are written together (spec/10_state.md R27). -/
def State.setPixel (row px : BitVec 13) (ch : BitVec 2) (s : State) : State :=
  { s with seq := { s.seq with row := row, px := px, ch := ch } }

/-- The generator's byte step (R208), one lane per beat (log 14). `px = 0` is the start of a row (log 10): the filter byte,
`px <- width`, `ch <- 0`. Then `r`, `g`, `b` as `ch` is 0, 1, 2; after each `b`, `px` counts down, and when it reaches 0
so does `row`. -/
def slgByte (width : Word) (r g b : Byte) : Source := fun s =>
  let q := s.seq
  if q.row = 0 then none
  else if q.px = 0 then some (Config.filterNone, s.setPixel q.row (width.setWidth 13) 0)
  else if q.ch = 0 then some (r, s.setPixel q.row q.px 1)
  else if q.ch = 1 then some (g, s.setPixel q.row q.px 2)
  else if q.ch = 2 then
    some (b, s.setPixel (if q.px = 1 then q.row - 1 else q.row) (q.px - 1) 0)
  else none

/-- `SLG.GEN` begins: the range check, then `row <- height` (R204, R208). -/
def startSlgGen (width height : Word) (r g b : Byte) (s : State) : State :=
  let t := s.take (Instr.slgGen width height r g b).latch
  if dimsLegal width height then
    t.openFrame { Sequencer.zero with frame := .raster, row := height.setWidth 13 }
  else t.raise .invalidDimensions

end Sys2Proof.Machine
end

