-- ==== Sys2Proof/Machine/StoredBlock.lean ====
section
/-! DEFINITION. The stored-block frame wrapper (spec/42_stored_block_wrapper.md): the function `zwrap`, the wrapper's
byte steps, and how `SBW.WRAP` begins. -/

namespace Sys2Proof.Machine

/-- The five bytes before a block's data: the header byte, `LEN` and `NLEN` (spec/30_encoding.md R97 to R99). -/
def blockHeader (final : Bool) (m : Half) : List Byte :=
  [blockHeaderByte final] ++ le16 m ++ le16 (m ^^^ 0xFFFF)

/-- `sblk(d, f)` (R172). -/
def storedBlock (d : List Byte) (final : Bool) : List Byte :=
  blockHeader final (BitVec.ofNat 16 d.length) ++ d

/-- Piece `k` of the greedy partition: the bytes from `65535 × k` up to `65535 × (k + 1)` or the end (R174). -/
def piece (raw : List Byte) (k : Nat) : List Byte := (raw.drop (Config.blockMax * k)).take Config.blockMax

/-- The stored blocks of `raw`: `nblk` of them, only the last final (R172, R174). -/
def storedBlocks (raw : List Byte) : List Byte :=
  (List.range (blockCount raw.length)).flatMap
    (fun k => storedBlock (piece raw k) (decide (k + 1 = blockCount raw.length)))

/-- `zwrap(raw)` (R172). -/
def zwrap (raw : List Byte) : List Byte :=
  Config.streamHeader ++ storedBlocks raw ++ be32 (adler32 raw)

/-- The wrapper's phase moves on. -/
def State.setSbw (p : SbwPhase) (s : State) : State := { s with seq := { s.seq with sbw := p } }

/-- `in_rem` and `blk_rem` are written (spec/10_state.md R27). -/
def State.setRemaining (inRem : BitVec 32) (blkRem : BitVec 16) (s : State) : State :=
  { s with seq := { s.seq with inRem := inRem, blkRem := blkRem } }

/-- The wrapper's byte step (R184), drawing its raw bytes from `raw`. `ZH0` initialises `a`, `b` and `in_rem`; `BH` loads
`blk_rem`; each `BD` is one draw, one Adler update and one byte out; the stream ends after `ZT3`. Only `BD` can hold. -/
def sbwByte (n : Word) (raw : Source) : Source := fun s =>
  match s.seq.sbw with
  | .atRest => none
  | .zh =>
    emitField Config.streamHeader (State.setSbw .bh)
      (s.atFirst (fun s => (s.setAdler adlerStart).setRemaining n s.seq.blkRem))
  | .bh =>
    let t := s.atFirst (fun s => s.setRemaining s.seq.inRem (blockLength s.seq.inRem))
    emitField (blockHeader (finalFlag t.seq.inRem) t.seq.blkRem)
      (State.setSbw (if t.seq.blkRem = 0 then .zt else .bd)) t
  | .bd =>
    match raw s with
    | none => none
    | some (x, t) =>
      let inRem := t.seq.inRem - 1
      let blkRem := t.seq.blkRem - 1
      some (x, ((t.setAdler (adlerByte (t.a, t.b) x)).setRemaining inRem blkRem).setSbw
        (if blkRem ≠ 0 then .bd else if inRem = 0 then .zt else .bh))
  | .zt => emitField (be32 (adlerPack s.a s.b)) (State.setSbw .atRest) s

/-- `SBW.WRAP` begins (R176). -/
def startSbwWrap (n : Word) (s : State) : State :=
  (s.take (Instr.sbwWrap n).latch).openFrame { Sequencer.zero with frame := .stream, sbw := .zh }

end Sys2Proof.Machine
end

