-- ==== Sys2Proof/Machine/FileEncoder.lean ====
section
/-! DEFINITION. The file-encoder sequencer (spec/45_file_encoder.md): the function `file`, the sources that feed its
chunks, and how `ENC.ENCODE` begins. -/

namespace Sys2Proof.Machine

/-- The header chunk's payload, 13 bytes (R242, spec/30_encoding.md R93). -/
def headerPayload (width height : Word) : List Byte :=
  be32 width ++ be32 height ++ Config.headerConstants

/-- `file(w, h, r, g, b)` (R242, spec/30_encoding.md R91). -/
def file (width height : Word) (r g b : Byte) : List Byte :=
  Config.signature
    ++ chunk Config.tagIHDR (headerPayload width height)
    ++ chunk Config.tagIDAT (zwrap (raster width.toNat height.toNat r g b))
    ++ chunk Config.tagIEND []

/-- The frame moves on. -/
def State.setFrame (f : Frame) (s : State) : State := { s with seq := { s.seq with frame := f } }

/-- The header chunk's payload source: the 13 bytes, indexed by `idx` (R256). -/
def headerSource (width height : Word) : Source := emitField (headerPayload width height) (fun s => s)

/-- `n` for these dimensions, as the 32-bit operand the wrapper takes (R246). -/
def rasterLengthWord (width height : Word) : Word := BitVec.ofNat 32 (rasterLength width.toNat height.toNat)

/-- `zlen` for these dimensions, as the 32-bit operand the serializer takes (R244, R246). -/
def streamLengthWord (width height : Word) : Word :=
  BitVec.ofNat 32 (streamLength (rasterLength width.toNat height.toNat))

/-- The data chunk's payload source: the wrapper over the generator (R246). -/
def dataSource (width height : Word) (r g b : Byte) : Source :=
  sbwByte (rasterLengthWord width height) (slgByte width r g b)

/-- The header chunk is next: its serializer begins (R256). -/
def openHeader (s : State) : State := (s.setFrame .header).setChk .cl

/-- The data chunk is next: serializer, wrapper and generator begin (R246, R256). -/
def openData (height : Word) (s : State) : State :=
  (((s.setFrame .data).setChk .cl).setSbw .zh).setPixel (height.setWidth 13) 0 0

/-- The end chunk is next (R256). -/
def openEnd (s : State) : State := (s.setFrame .endChunk).setChk .cl

/-- `ENC.ENCODE` begins: the range check, then the signature (R246, R256). -/
def startEncEncode (width height : Word) (r g b : Byte) (s : State) : State :=
  let t := s.take (Instr.encEncode width height r g b).latch
  if dimsLegal width height then t.openFrame { Sequencer.zero with frame := .signature }
  else t.raise .invalidDimensions

end Sys2Proof.Machine
end

