-- ==== Sys2Proof/Machine/Sequencer.lean ====
section
/-! DEFINITION. The sequencer: which unit gives the next `DOUT` byte, one byte step, and running an operation to its
completion or to a hold (spec/10_state.md R25, R27; spec/92_eei_decisions.md D15). -/

namespace Sys2Proof.Machine

/-- The frame's end or its successor: if `ended t` then the sequencer moves on by `next`. -/
def afterByte (ended : State → Bool) (next : State → State) : Byte × State → Byte × State
  | (x, t) => (x, if ended t then next t else t)

/-- The generator has emitted its last row (spec/43_scanline_generator.md R208). -/
def rowsDone (s : State) : Bool := decide (s.seq.row = 0)

/-- The wrapper has emitted its trailer. -/
def streamDone (s : State) : Bool := decide (s.seq.sbw = .atRest)

/-- The serializer has emitted its checksum. -/
def chunkDone (s : State) : Bool := decide (s.seq.chk = .atRest)

/-- An empty payload (spec/45_file_encoder.md R246, the end chunk). -/
def noSource : Source := fun _ => none

/-- The next byte of the frame in progress, before it reaches `DOUT`. The free-standing forms draw from `DIN`; inside
`ENC.ENCODE` an inner unit's bytes are the outer unit's input (spec/00_scope.md R8, spec/45_file_encoder.md R246, R256).
After the last byte of the last frame the sequencer is at rest. -/
def frameByte : Source := fun s =>
  match s.seq.frame, s.latch.operands with
  | .raster, .image w _ r g b =>
    (slgByte w r g b s).map (afterByte rowsDone (State.setFrame .atRest))
  | .stream, .length n =>
    (sbwByte n State.inPop s).map (afterByte streamDone (State.setFrame .atRest))
  | .chunk, .chunk tag len =>
    (chkByte tag len State.inPop s).map (afterByte chunkDone (State.setFrame .atRest))
  | .signature, .image _ _ _ _ _ => emitField Config.signature openHeader s
  | .header, .image w h _ _ _ =>
    (chkByte Config.tagIHDR 13 (headerSource w h) s).map (afterByte chunkDone (openData h))
  | .data, .image w h r g b =>
    (chkByte Config.tagIDAT (streamLengthWord w h) (dataSource w h r g b) s).map (afterByte chunkDone openEnd)
  | .endChunk, .image _ _ _ _ _ =>
    (chkByte Config.tagIEND 0 noSource s).map (afterByte chunkDone (State.setFrame .atRest))
  | _, _ => none

/-- One byte step: the frame's next byte is pushed on `DOUT`, and with the frame's last byte the operation completes
(R33). `none`: there is no next byte. -/
def beat (s : State) : Option State :=
  match frameByte s with
  | none => none
  | some (x, t) =>
    if t.seq.frame = .atRest then some ((t.outPush x).complete .ok 0) else some (t.outPush x)

/-- At most `k` byte steps, stopping when there is no next byte. -/
def drive : Nat → State → State
  | 0, s => s
  | k + 1, s =>
    match beat s with
    | none => s
    | some t => drive k t

/-- More byte steps than any one operation takes: the longest frame is a stream of `2^32 - 1` raw bytes (log 13). -/
def beatBound : Nat := 2 ^ 35

/-- The operation waits for the host: its next step is an `InPop` and `DIN` is empty (spec/20_memory.md R66). Only `BD` of
`SBW.WRAP` and `CP` of `CHK.MAKE` can (spec/42_stored_block_wrapper.md R184, spec/44_chunk_serializer.md R230). -/
def holding (s : State) : Bool :=
  match s.seq.frame, s.latch.operands with
  | .stream, .length _ => decide (s.seq.sbw = .bd) && s.din.isEmpty
  | .chunk, .chunk _ _ => decide (s.seq.chk = .cp) && s.din.isEmpty
  | _, _ => false

/-- The outcome of a state the sequencer cannot take further: idle and holding are next states (R66); anything else is a
state no rule describes (log 18). -/
def atPause (s : State) : Host.Outcome State Fault Refusal :=
  if s.busy && !holding s then .fault .straySequencer else .next s

/-- Run the operation in progress to its completion, or to a hold on an empty `DIN`. -/
def settle (s : State) : Host.Outcome State Fault Refusal := atPause (drive beatBound s)

end Sys2Proof.Machine
end

