-- ==== Sys2Proof/Machine/Composite.lean ====
section
/-! DEFINITION. The meanings of the four composite operations: begin, then run to completion or to a hold. -/

namespace Sys2Proof.Machine

/-- The meaning of `SBW.WRAP` (spec/42_stored_block_wrapper.md R176). -/
def execSbwWrap (n : Word) (s : State) : Host.Outcome State Fault Refusal := settle (startSbwWrap n s)

/-- The meaning of `SLG.GEN` (spec/43_scanline_generator.md R204). -/
def execSlgGen (width height : Word) (r g b : Byte) (s : State) : Host.Outcome State Fault Refusal :=
  settle (startSlgGen width height r g b s)

/-- The meaning of `CHK.MAKE` (spec/44_chunk_serializer.md R224). -/
def execChkMake (tag len : Word) (s : State) : Host.Outcome State Fault Refusal := settle (startChkMake tag len s)

/-- The meaning of `ENC.ENCODE` (spec/45_file_encoder.md R246). -/
def execEncEncode (width height : Word) (r g b : Byte) (s : State) : Host.Outcome State Fault Refusal :=
  settle (startEncEncode width height r g b s)

end Sys2Proof.Machine
end

