-- ==== Sys2Proof/Machine/Dispatch.lean ====
section
/-! DEFINITION. Which meaning each command has (spec/30_encoding.md R110). -/

namespace Sys2Proof.Machine

def exec (i : Instr) (s : State) : Host.Outcome State Fault Refusal :=
  match i with
  | .crcInit => Sys2Proof.Machine.execCrcInit s
  | .crcUpd x => Sys2Proof.Machine.execCrcUpd x s
  | .crcFin => Sys2Proof.Machine.execCrcFin s
  | .adlInit => Sys2Proof.Machine.execAdlInit s
  | .adlUpd x => Sys2Proof.Machine.execAdlUpd x s
  | .adlFin => Sys2Proof.Machine.execAdlFin s
  | .sbwWrap n => Sys2Proof.Machine.execSbwWrap n s
  | .slgGen width height r g b => Sys2Proof.Machine.execSlgGen width height r g b s
  | .chkMake tag len => Sys2Proof.Machine.execChkMake tag len s
  | .encEncode width height r g b => Sys2Proof.Machine.execEncEncode width height r g b s

end Sys2Proof.Machine
end

