-- ==== Sys2Proof/Machine/Fetch.lean ====
section
/-! DEFINITION. Taking the next command from `CMD`, resuming the operation in progress, and the byte-granular machine
(spec/10_state.md R25, spec/60_exceptions.md R272, spec/92_eei_decisions.md D15). -/

namespace Sys2Proof.Machine

/-- `CMD` is written. -/
def State.setCmd (c : List Byte) (s : State) : State := { s with cmd := c }

/-- An illegal opcode byte: it alone is consumed, and `IllegalCommand` is raised with that byte as `op` (R272). -/
def illegalCommand (c : Byte) (s : State) : State :=
  ((s.setCmd s.cmd.tail).take ⟨c, .bare⟩).raise .illegalCommand

/-- `busy = 0`: take the packet at the head of `CMD` and run it. An empty `CMD` (log 3) and a packet whose operand bytes
are not all there yet (log 2) leave the block idle. -/
def fetch (s : State) : Host.Outcome State Fault Refusal :=
  match decode s.cmd with
  | .command i rest => exec i (s.setCmd rest)
  | .reject (.illegalOpcode c) => .next (illegalCommand c s)
  | .reject .noCommand => .next s
  | .reject (.incomplete _) => .next s

/-- `busy = 1`: the operation goes on from where it held. -/
def resume (s : State) : Host.Outcome State Fault Refusal := settle s

/-- A command begins: a primitive operation is one step (spec/40_crc32.md R139, spec/41_adler32.md R159); a composite one is
latched, its dimensions checked, and its first frame opened. -/
def start (i : Instr) (s : State) : State :=
  match i with
  | .crcInit => crcInit s
  | .crcUpd x => crcUpd x s
  | .crcFin => crcFin s
  | .adlInit => adlInit s
  | .adlUpd x => adlUpd x s
  | .adlFin => adlFin s
  | .sbwWrap n => startSbwWrap n s
  | .slgGen width height r g b => startSlgGen width height r g b s
  | .chkMake tag len => startChkMake tag len s
  | .encEncode width height r g b => startEncEncode width height r g b s

/-- The byte-granular step (D15): one `DOUT` byte of the operation in progress, or one command taken from `CMD`. -/
def tick (s : State) : Host.Outcome State Fault Refusal :=
  if s.busy then
    match beat s with
    | some t => .next t
    | none => atPause s
  else
    match decode s.cmd with
    | .command i rest => .next (start i (s.setCmd rest))
    | .reject (.illegalOpcode c) => .next (illegalCommand c s)
    | .reject .noCommand => .next s
    | .reject (.incomplete _) => .next s

/-- `k` byte-granular steps, stopping at a fault. -/
def ticks : Nat → State → Host.Outcome State Fault Refusal
  | 0, s => .next s
  | k + 1, s =>
    match tick s with
    | .next t => ticks k t
    | .fault r => .fault r
    | .refused r => .refused r

/-- A command packet placed at the head of `CMD`, with the block idle so that it is taken next. -/
def placeCommand (packet : List Byte) (s : State) : State :=
  { s with cmd := packet ++ s.cmd, busy := false, seq := Sequencer.zero }

end Sys2Proof.Machine
end

