-- ==== Sys2Proof/Machine/Step.lean ====
section
/-! DEFINITION. One step of the block: one command run to its completion or to a hold, or the resumption of the operation
in progress (spec/10_state.md R25; log 5). -/

namespace Sys2Proof.Machine

/-- One step. -/
def step (s : State) : Host.Outcome State Fault Refusal :=
  if s.busy then resume s else fetch s

/-- `s` with the packet of a table word at the head of `CMD`, so that the very next step runs it (log 17). -/
def State.withFetchWord (s : State) (nbits w : Nat) : State := placeCommand (tablePacket nbits w) s

end Sys2Proof.Machine
end

