-- ==== Sys2Proof/Machine/HostPort.lean ====
section
/-! DEFINITION. What the outside world can do to the block (spec/60_exceptions.md R290, R292; spec/70_reset_and_hazards.md
R300, R301), runs that mix host moves with steps, and several instances side by side (spec/20_memory.md R76). -/

namespace Sys2Proof.Machine

/-- A byte that is none of the ten opcodes (spec/30_encoding.md R111). -/
abbrev IllegalOpcode := { c : Byte // Op.ofByte c = none }

/-- What a host can append to `CMD` in one move: one command packet, whole (R290, spec/20_memory.md R64), or one illegal
opcode byte, which is a packet by itself since it alone is consumed (R272). No part of a packet is such a term. -/
inductive CommandPacket where
  | command (i : Instr)
  | illegal (c : IllegalOpcode)
  deriving DecidableEq, Repr

/-- The bytes of a packet (spec/30_encoding.md R108). -/
def CommandPacket.bytes : CommandPacket → List Byte
  | .command i => encode i
  | .illegal c => [c.val]

/-- The host's moves (R290). It has no other: it cannot alter registers, remove `DIN` bytes, insert `DOUT` bytes, or put
anything inside a packet on `CMD`. -/
inductive HostMove where
  /-- append one whole packet to `CMD`, also while an operation is in progress -/
  | issue (packet : CommandPacket)
  /-- append bytes to `DIN` -/
  | supply (bytes : List Byte)
  /-- pop up to `k` bytes from `DOUT` -/
  | takeOut (k : Nat)
  /-- pop up to `k` records from `CPL` -/
  | takeCpl (k : Nat)
  /-- assert reset (R300); at any time (R301, log 16) -/
  | reset
  deriving DecidableEq, Repr

/-- The host appends one packet to `CMD`. -/
def State.issue (packet : CommandPacket) (s : State) : State := { s with cmd := s.cmd ++ packet.bytes }

/-- The host issues commands one after another. -/
def State.issueCommands : List Instr → State → State
  | [], s => s
  | i :: is, s => (s.issue (.command i)).issueCommands is

/-- The host appends bytes to `DIN`. -/
def State.supply (bytes : List Byte) (s : State) : State := { s with din := s.din ++ bytes }

/-- The state after a host move. -/
def State.host : HostMove → State → State
  | .issue packet, s => s.issue packet
  | .supply bytes, s => s.supply bytes
  | .takeOut k, s => { s with dout := s.dout.drop k }
  | .takeCpl k, s => { s with cpl := s.cpl.drop k }
  | .reset, _ => State.reset

/-- What a host's `takeOut k` and `takeCpl k` give it: the bytes and records at the heads of the queues. -/
def State.offered (k : Nat) (s : State) : List Byte × List Completion := (s.dout.take k, s.cpl.take k)

/-- One event of a run: a host move, a step of the block, or one byte step of it. -/
inductive Event where
  | host (m : HostMove)
  | step
  | tick
  deriving DecidableEq, Repr

/-- The outcome of one event. -/
def occur : Event → State → Host.Outcome State Fault Refusal
  | .host m, s => .next (s.host m)
  | .step, s => step s
  | .tick, s => tick s

/-- A run: the events in order, stopping at a fault. -/
def occurAll : List Event → State → Host.Outcome State Fault Refusal
  | [], s => .next s
  | e :: es, s =>
    match occur e s with
    | .next t => occurAll es t
    | .fault r => .fault r
    | .refused r => .refused r

/-- Commands executed one after another, each on the state the one before left (spec/20_memory.md R70). -/
def execAll : List Instr → State → Host.Outcome State Fault Refusal
  | [], s => .next s
  | i :: is, s =>
    match exec i s with
    | .next t => execAll is t
    | .fault r => .fault r
    | .refused r => .refused r

/-- The run is over: `CMD` is empty and `busy = 0` (R292). -/
def State.runOver (s : State) : Bool := s.cmd.isEmpty && !s.busy

/-- Any number of instances, each with its own registers and queues; one event happens at one instance. An event at an
instance that does not exist changes nothing. -/
def occurAt (k : Nat) (e : Event) (bank : List State) : Host.Outcome (List State) Fault Refusal :=
  match bank[k]? with
  | none => .next bank
  | some s =>
    match occur e s with
    | .next t => .next (bank.set k t)
    | .fault r => .fault r
    | .refused r => .refused r

end Sys2Proof.Machine
end

