-- ==== Sys2Proof/Machine/Assembler.lean ====
section
/-! DEFINITION. The assembler of spec/30_encoding.md R114 and the pseudo-operations and directives of R115. It stands outside
the block: it turns a line of text into commands and host actions. -/

namespace Sys2Proof.Machine

/-- What one line of a program stands for: commands, or a host action (R115). -/
inductive Directive where
  /-- commands, issued in order -/
  | commands (is : List Instr)
  /-- `DATA`: the host appends these bytes to `DIN` -/
  | data (bytes : List Byte)
  /-- `EXPECT`: the host pops this many bytes from `DOUT`, and they must equal these -/
  | expect (bytes : List Byte)
  deriving DecidableEq, Repr

/-- `CRC32 b0, ..., bk` (R115). -/
def pseudoCrc32 (s : List Byte) : List Instr := [.crcInit] ++ s.map .crcUpd ++ [.crcFin]

/-- `ADLER32 b0, ..., bk` (R115). -/
def pseudoAdler32 (s : List Byte) : List Instr := [.adlInit] ++ s.map .adlUpd ++ [.adlFin]

/-- `CHK.END` (R115). -/
def pseudoChkEnd : List Instr := [.chkMake Config.tagIEND 0]

/-- The host's part in one line: the state after it, or `none` where an `EXPECT` is not met. -/
def Directive.apply : Directive → State → Option State
  | .commands is, s => some (s.issueCommands is)
  | .data bytes, s => some (s.supply bytes)
  | .expect bytes, s =>
    if s.dout.take bytes.length = bytes then some (s.host (.takeOut bytes.length)) else none

/-- The value of a digit, below the base. -/
def digitValue (base : Nat) (c : Char) : Option Nat :=
  let v :=
    if '0' ≤ c ∧ c ≤ '9' then c.toNat - '0'.toNat
    else if 'a' ≤ c ∧ c ≤ 'f' then c.toNat - 'a'.toNat + 10
    else if 'A' ≤ c ∧ c ≤ 'F' then c.toNat - 'A'.toNat + 10
    else base
  if v < base then some v else none

/-- Digits, most significant first, onto `acc`. -/
def digitsValue (base : Nat) : Nat → List Char → Option Nat
  | acc, [] => some acc
  | acc, c :: cs =>
    match digitValue base c with
    | some v => digitsValue base (acc * base + v) cs
    | none => none

/-- A decimal or `0x` hexadecimal number, or a tag as four characters in double quotes (R114). -/
def parseNumber : List Char → Option Nat
  | [] => none
  | ['0', 'x'] => none
  | '0' :: 'x' :: cs => digitsValue 16 0 cs
  | ['"', c1, c2, c3, c4, '"'] =>
    if c1.toNat < 128 ∧ c2.toNat < 128 ∧ c3.toNat < 128 ∧ c4.toNat < 128 then
      some (((c1.toNat * 256 + c2.toNat) * 256 + c3.toNat) * 256 + c4.toNat)
    else none
  | cs => digitsValue 10 0 cs

/-- The text before the comment: up to the first `;` outside a quoted tag (R114). -/
def dropComment : Bool → List Char → List Char
  | _, [] => []
  | quoted, c :: cs =>
    if c = ';' ∧ quoted = false then [] else c :: dropComment (if c = '"' then !quoted else quoted) cs

/-- Cut at every comma outside a quoted tag (R114). -/
def splitOperands : Bool → List Char → List (List Char)
  | _, [] => [[]]
  | quoted, c :: cs =>
    match splitOperands (if c = '"' then !quoted else quoted) cs with
    | [] => [[c]]
    | w :: ws => if c = ',' ∧ quoted = false then [] :: w :: ws else (c :: w) :: ws

/-- Without the blanks at both ends. -/
def trim (cs : List Char) : List Char :=
  ((cs.dropWhile (fun c => c = ' ')).reverse.dropWhile (fun c => c = ' ')).reverse

/-- The operands of a line, separated by commas; no operand at all on a blank text. -/
def parseOperands (cs : List Char) : Option (List Nat) :=
  if trim cs = [] then some [] else (splitOperands false cs).mapM (fun w => parseNumber (trim w))

/-- Bytes, each below 256. -/
def asBytes (ns : List Nat) : Option (List Byte) :=
  ns.mapM (fun n => if n < 256 then some (BitVec.ofNat 8 n) else none)

/-- A 32-bit operand. -/
def asWord (n : Nat) : Option Word := if n < 2 ^ 32 then some (BitVec.ofNat 32 n) else none

/-- An 8-bit operand. -/
def asByte (n : Nat) : Option Byte := if n < 256 then some (BitVec.ofNat 8 n) else none

/-- The command of an operation and its operands, in the order of the packet (R114). -/
def assembleOp : Op → List Nat → Option Instr
  | .crcInit, [] => some .crcInit
  | .crcInit, _ => none
  | .crcUpd, [x] => (asByte x).map .crcUpd
  | .crcUpd, _ => none
  | .crcFin, [] => some .crcFin
  | .crcFin, _ => none
  | .adlInit, [] => some .adlInit
  | .adlInit, _ => none
  | .adlUpd, [x] => (asByte x).map .adlUpd
  | .adlUpd, _ => none
  | .adlFin, [] => some .adlFin
  | .adlFin, _ => none
  | .sbwWrap, [n] => (asWord n).map .sbwWrap
  | .sbwWrap, _ => none
  | .slgGen, [w, h, r, g, b] => do
    return .slgGen (← asWord w) (← asWord h) (← asByte r) (← asByte g) (← asByte b)
  | .slgGen, _ => none
  | .chkMake, [tag, len] => do return .chkMake (← asWord tag) (← asWord len)
  | .chkMake, _ => none
  | .encEncode, [w, h, r, g, b] => do
    return .encEncode (← asWord w) (← asWord h) (← asByte r) (← asByte g) (← asByte b)
  | .encEncode, _ => none

/-- One line: a comment runs from `;` to its end; then the mnemonic, a blank, and the operands (R114). A line with no
mnemonic stands for no command. -/
def assembleLine (text : List Char) : Option Directive :=
  let line := trim (dropComment false text)
  let word := String.ofList (line.takeWhile (fun c => c ≠ ' '))
  match parseOperands (line.dropWhile (fun c => c ≠ ' ')) with
  | none => none
  | some ns =>
    if word = "" then some (.commands [])
    else if word = "CRC32" then (asBytes ns).map (fun s => .commands (pseudoCrc32 s))
    else if word = "ADLER32" then (asBytes ns).map (fun s => .commands (pseudoAdler32 s))
    else if word = "CHK.END" then (if ns = [] then some (.commands pseudoChkEnd) else none)
    else if word = "DATA" then (asBytes ns).map .data
    else if word = "EXPECT" then (asBytes ns).map .expect
    else
      match Op.all.find? (fun o => o.mnemonic == word) with
      | some o => (assembleOp o ns).map (fun i => .commands [i])
      | none => none

end Sys2Proof.Machine
end

