-- ==== Sys2Proof/Machine/FrameReader.lean ====
section
/-! DEFINITION. How a reader of `DOUT` finds frame boundaries (spec/30_encoding.md R102): the inverse of the wire formats
of R91 to R101, for stating what the block's output means. The block itself reads nothing back (spec/10_state.md R31). -/

namespace Sys2Proof.Machine

/-- A chunk as a reader sees it. -/
structure ReadChunk where
  tag : Word
  payload : List Byte
  checksum : Word
  deriving DecidableEq, Repr

/-- The four bytes at the front as a big-endian value, and the rest. -/
def readBe32 : List Byte → Option (Word × List Byte)
  | b1 :: b2 :: b3 :: b4 :: rest => some (ofBe32 b1 b2 b3 b4, rest)
  | _ => none

/-- Exactly `k` bytes from the front, and the rest. -/
def readBytes (k : Nat) (s : List Byte) : Option (List Byte × List Byte) :=
  if k ≤ s.length then some (s.take k, s.drop k) else none

/-- One chunk from the front: its extent is `12 + length` (R92, R102). -/
def readChunk (s : List Byte) : Option (ReadChunk × List Byte) := do
  let (len, s) ← readBe32 s
  let (tag, s) ← readBe32 s
  let (payload, s) ← readBytes len.toNat s
  let (checksum, s) ← readBe32 s
  return (⟨tag, payload, checksum⟩, s)

/-- A chunk whose checksum field is the CRC-32 of its tag and payload (R92). -/
def ReadChunk.verifies (c : ReadChunk) : Bool := c.checksum == crc32 (be32 c.tag ++ c.payload)

/-- One stored block from the front, `NLEN` being the complement of `LEN`: final flag, data, rest (R97 to R99, R102). -/
def readBlock : List Byte → Option (Bool × List Byte × List Byte)
  | h :: l0 :: l1 :: n0 :: n1 :: rest =>
    if (h = 0 ∨ h = 1) ∧ ofLe16 n0 n1 = ofLe16 l0 l1 ^^^ 0xFFFF then
      match readBytes (ofLe16 l0 l1).toNat rest with
      | some (d, rest) => some (h == 1, d, rest)
      | none => none
    else none
  | _ => none

/-- Stored blocks from the front up to and with the first final one, at most `fuel` of them: their data concatenated, and
the rest (R102). -/
def readBlocks : Nat → List Byte → Option (List Byte × List Byte)
  | 0, _ => none
  | fuel + 1, s =>
    match readBlock s with
    | none => none
    | some (true, d, rest) => some (d, rest)
    | some (false, d, rest) =>
      match readBlocks fuel rest with
      | none => none
      | some (d', rest) => some (d ++ d', rest)

/-- A compressed stream from the front, its trailer the Adler-32 of the data: the data, and the rest (R95, R102). -/
def readStream : List Byte → Option (List Byte × List Byte)
  | 0x78 :: 0x01 :: s =>
    match readBlocks (s.length + 1) s with
    | none => none
    | some (raw, s) =>
      match readBe32 s with
      | some (sum, rest) => if sum = adler32 raw then some (raw, rest) else none
      | none => none
  | _ => none

/-- A file as a reader sees it: the dimensions of the header chunk and the raster of the data chunk. -/
structure ReadFile where
  width : Word
  height : Word
  raster : List Byte
  deriving DecidableEq, Repr

/-- The header chunk's payload: the two dimensions, then the five constants (R93). -/
def readHeader (p : List Byte) : Option (Word × Word) := do
  let (w, p) ← readBe32 p
  let (h, p) ← readBe32 p
  if p = Config.headerConstants then some (w, h) else none

/-- A whole file: the signature and the three chunks in order, every checksum verified (R91, R102). -/
def readFile (s : List Byte) : Option ReadFile := do
  let (sig, s) ← readBytes 8 s
  let (c1, s) ← readChunk s
  let (c2, s) ← readChunk s
  let (c3, s) ← readChunk s
  let (w, h) ← readHeader c1.payload
  let (raw, left) ← readStream c2.payload
  if sig = Config.signature ∧ c1.tag = Config.tagIHDR ∧ c2.tag = Config.tagIDAT ∧ c3.tag = Config.tagIEND
      ∧ c1.verifies ∧ c2.verifies ∧ c3.verifies ∧ left = [] ∧ c3.payload = [] ∧ s = [] then
    some ⟨w, h, raw⟩
  else none

end Sys2Proof.Machine
end

