-- ==== Sys2Proof/Safety.lean ====
section
/-! DEFINITION. What counts as a safe run, in the terms the statements use: the invariant of the states between steps, runs
that no step stops, and what a command takes from `DIN` and gives on `DOUT` and `CPL`. -/

namespace Sys2Proof.Machine

/-- `0 ≤ a ≤ 65520` and `0 ≤ b ≤ 65520` (spec/10_state.md R22, R23). -/
def State.sumsReduced (s : State) : Prop := s.a.toNat < 65521 ∧ s.b.toNat < 65521

/-- Every counter is 0 and every phase at rest whenever `busy = 0` (R27). -/
def State.quietWhenIdle (s : State) : Prop := s.busy = false → s.seq = Sequencer.zero

/-- The block is inside `SBW.WRAP`, at the `BD` phase of a stored block: the position where it can hold
(spec/42_stored_block_wrapper.md R184). -/
def State.insideBlock (s : State) : Prop :=
  s.seq.frame = .stream ∧ s.seq.sbw = .bd ∧ s.seq.idx = 0 ∧ s.latch.op = 0x30 ∧
  ∃ n : Word, s.latch.operands = .length n ∧
    0 < s.seq.blkRem.toNat ∧ s.seq.blkRem.toNat ≤ s.seq.inRem.toNat ∧ s.seq.inRem.toNat ≤ n.toNat

/-- The block is inside `CHK.MAKE`, at the `CP` phase: the position where it can hold (spec/44_chunk_serializer.md R230). -/
def State.insidePayload (s : State) : Prop :=
  s.seq.frame = .chunk ∧ s.seq.chk = .cp ∧ s.seq.idx = 0 ∧ s.latch.op = 0x50 ∧
  ∃ tag len : Word, s.latch.operands = .chunk tag len ∧
    0 < s.seq.payRem.toNat ∧ s.seq.payRem.toNat ≤ len.toNat

/-- The invariant of the states between steps: the sums are reduced, an idle block's sequencer is at rest, and a busy block
is where an operation can hold. -/
def State.Inv (s : State) : Prop :=
  s.sumsReduced ∧ s.quietWhenIdle ∧ (s.busy = true → s.insideBlock ∨ s.insidePayload)

/-- `CMD` holds whole packets only (spec/60_exceptions.md R290, spec/20_memory.md R64). -/
def State.cmdWhole (s : State) : Prop := ∃ ps : List CommandPacket, s.cmd = ps.flatMap CommandPacket.bytes

/-- A run of host moves and steps that no step stops: it ends in a next state. -/
def State.runsSafely (s : State) (es : List Event) : Prop := ∃ t, occurAll es s = .next t

/-! ### What a command takes and gives, as the family files' functions say it -/

/-- How many bytes a command consumes from `DIN` (spec/10_state.md R30). -/
def needs : Instr → Nat
  | .crcInit => 0
  | .crcUpd _ => 0
  | .crcFin => 0
  | .adlInit => 0
  | .adlUpd _ => 0
  | .adlFin => 0
  | .sbwWrap n => n.toNat
  | .slgGen _ _ _ _ _ => 0
  | .chkMake _ len => len.toNat
  | .encEncode _ _ _ _ _ => 0

/-- The bytes a command appends to `DOUT` when `input` is on `DIN` and holds all it needs. -/
def frameFor (i : Instr) (input : List Byte) : List Byte :=
  match i with
  | .crcInit => []
  | .crcUpd _ => []
  | .crcFin => []
  | .adlInit => []
  | .adlUpd _ => []
  | .adlFin => []
  | .sbwWrap n => zwrap (input.take n.toNat)
  | .slgGen w h r g b => if dimsLegal w h then raster w.toNat h.toNat r g b else []
  | .chkMake tag len => chunk tag (input.take len.toNat)
  | .encEncode w h r g b => if dimsLegal w h then file w h r g b else []

/-- The status a command completes with (R33, spec/60_exceptions.md R271). -/
def verdict : Instr → Status
  | .crcInit => .ok
  | .crcUpd _ => .ok
  | .crcFin => .ok
  | .adlInit => .ok
  | .adlUpd _ => .ok
  | .adlFin => .ok
  | .sbwWrap _ => .ok
  | .slgGen w h _ _ _ => if dimsLegal w h then .ok else .invalidDimensions
  | .chkMake _ _ => .ok
  | .encEncode w h _ _ _ => if dimsLegal w h then .ok else .invalidDimensions

/-- The bytes a sequence of commands appends to `DOUT`: the frames in command order, each drawing on what the commands
before it left of `input` (spec/20_memory.md R70). -/
def framesFor : List Instr → List Byte → List Byte
  | [], _ => []
  | i :: is, input => frameFor i input ++ framesFor is (input.drop (needs i))

end Sys2Proof.Machine
end

