-- ==== Sys2Proof/Certificates/Slice0/Obligations.lean ====
section
/-! DEFINITION. The statements for the provers, from the numbered rules of spec/. -/

open Sys2Proof Sys2Proof.Machine

/-! ### Reset and the completion record -/

/-- R40: the state after reset, by whatever state it is asserted in; `CRC.FIN` and `ADL.FIN` straight after it; the table.
(The latch, which R40 leaves unspecified, and the model's own `draws` are not mentioned.) -/
def Obligations.ResetLeavesTheStatedValues : Prop :=
  (∀ s : State, ∃ t, occur (.host .reset) s = .next t ∧
    t.crc = 0xFFFFFFFF ∧ t.a = 1 ∧ t.b = 0 ∧ t.busy = false ∧
    t.seq.idx = 0 ∧ t.seq.payRem = 0 ∧ t.seq.inRem = 0 ∧ t.seq.blkRem = 0 ∧
    t.seq.row = 0 ∧ t.seq.px = 0 ∧ t.seq.ch = 0 ∧
    t.cmd = [] ∧ t.din = [] ∧ t.dout = [] ∧ t.cpl = []) ∧
  (∃ t, exec .crcFin State.reset = .next t ∧ t.cpl = [⟨0x12, .ok, 0x00000000⟩]) ∧
  (∃ t, exec .adlFin State.reset = .next t ∧ t.cpl = [⟨0x22, .ok, 0x00000001⟩]) ∧
  crcTable.length = 256 ∧ ∀ i : Byte, crcTable[i.toNat]? = some (crcShifts 8 (i.setWidth 32))

/-- R33: `Complete(status, result)` appends the record, clears `busy` and every counter; the six bytes of a record. -/
def Obligations.CompletionRecordAndItsBytes : Prop :=
  ∀ (s : State) (st : Status) (v : Word),
    (s.complete st v).cpl = s.cpl ++ [⟨s.latch.op, st, v⟩] ∧
    (s.complete st v).busy = false ∧ (s.complete st v).seq = Sequencer.zero ∧
    (s.complete st v).crc = s.crc ∧ (s.complete st v).a = s.a ∧ (s.complete st v).b = s.b ∧
    (s.complete st v).cmd = s.cmd ∧ (s.complete st v).din = s.din ∧ (s.complete st v).dout = s.dout ∧
    ∀ op : Byte, (Completion.mk op st v).bytes =
      [op, (match st with | .ok => 0 | .invalidDimensions => 1 | .illegalCommand => 2),
        v.extractLsb' 24 8, v.extractLsb' 16 8, v.extractLsb' 8 8, v.extractLsb' 0 8]

/-- R274: taking an exception. It appends one record and clears `busy`; nothing is saved, no data moves, and a sequencer at
rest stays at rest. -/
def Obligations.RaiseAppendsARecordOnly : Prop :=
  ∀ (e : ExceptionCause) (s : State), s.seq = Sequencer.zero →
    (s.raise e).cpl = s.cpl ++ [⟨s.latch.op, e.status, 0⟩] ∧
    e.status.code = (match e with | .invalidDimensions => 1 | .illegalCommand => 2) ∧
    (s.raise e).busy = false ∧ (s.raise e).dout = s.dout ∧ (s.raise e).din = s.din ∧ (s.raise e).cmd = s.cmd ∧
    (s.raise e).crc = s.crc ∧ (s.raise e).a = s.a ∧ (s.raise e).b = s.b ∧ (s.raise e).seq = s.seq

/-! ### The CRC unit -/

/-- R131: `CRC.INIT`. -/
def Obligations.CrcInitSetsAllOnes : Prop :=
  encode .crcInit = [0x10] ∧
  ∀ s : State, ∃ t, exec .crcInit s = .next t ∧
    t.crc = 0xFFFFFFFF ∧ t.a = s.a ∧ t.b = s.b ∧ t.busy = false ∧ t.seq = Sequencer.zero ∧
    t.cmd = s.cmd ∧ t.din = s.din ∧ t.dout = s.dout ∧ t.cpl = s.cpl ++ [⟨0x10, .ok, 0⟩]

/-- R132: `CRC.UPD byte`, the loop written out. -/
def Obligations.CrcUpdFoldsOneByte : Prop :=
  (∀ x : Byte, encode (.crcUpd x) = [0x11, x]) ∧
  ∀ (s : State) (x : Byte), ∃ t, exec (.crcUpd x) s = .next t ∧
    t.crc = (fun c : Word => if c.getLsbD 0 = true then (c >>> 1) ^^^ 0xEDB88320 else c >>> 1)^[8]
      (s.crc ^^^ x.setWidth 32) ∧
    t.a = s.a ∧ t.b = s.b ∧ t.busy = false ∧ t.seq = Sequencer.zero ∧
    t.cmd = s.cmd ∧ t.din = s.din ∧ t.dout = s.dout ∧ t.cpl = s.cpl ++ [⟨0x11, .ok, 0⟩]

/-- R134: `CRC.FIN`. -/
def Obligations.CrcFinReturnsTheInverted : Prop :=
  encode .crcFin = [0x12] ∧
  ∀ s : State, ∃ t, exec .crcFin s = .next t ∧
    t.cpl = s.cpl ++ [⟨0x12, .ok, s.crc ^^^ 0xFFFFFFFF⟩] ∧
    t.crc = s.crc ∧ t.a = s.a ∧ t.b = s.b ∧ t.busy = false ∧ t.seq = Sequencer.zero ∧
    t.cmd = s.cmd ∧ t.din = s.din ∧ t.dout = s.dout

/-- R133: the table form of the update, for every register value and byte, and the selected entries. -/
def Obligations.CrcTableFormIsTheUpdate : Prop :=
  (∀ (c : Word) (x : Byte),
    (fun c : Word => if c.getLsbD 0 = true then (c >>> 1) ^^^ 0xEDB88320 else c >>> 1)^[8] (c ^^^ x.setWidth 32) =
      crcTable.getD ((c ^^^ x.setWidth 32).extractLsb' 0 8).toNat 0 ^^^ (c >>> 8)) ∧
  (∀ i : Byte, crcTable[i.toNat]? =
    some ((fun c : Word => if c.getLsbD 0 = true then (c >>> 1) ^^^ 0xEDB88320 else c >>> 1)^[8] (i.setWidth 32))) ∧
  crcTable[0]? = some 0x00000000 ∧ crcTable[1]? = some 0x77073096 ∧ crcTable[2]? = some 0xEE0E612C ∧
  crcTable[3]? = some 0x990951BA ∧ crcTable[4]? = some 0x076DC419 ∧ crcTable[5]? = some 0x706AF48F ∧
  crcTable[6]? = some 0xE963A535 ∧ crcTable[7]? = some 0x9E6495A3 ∧ crcTable[8]? = some 0x0EDB8832 ∧
  crcTable[16]? = some 0x1DB71064 ∧ crcTable[128]? = some 0xEDB88320 ∧ crcTable[255]? = some 0x2D02EF8D

/-- R136: `crc32(s)` is the result of `CRC.INIT`, one `CRC.UPD` per byte, `CRC.FIN`. -/
def Obligations.CrcOfAMessageByCommands : Prop :=
  ∀ (m : List Byte) (s : State), ∃ t, execAll (pseudoCrc32 m) s = .next t ∧
    t.cpl = s.cpl ++ [⟨0x10, .ok, 0⟩] ++ m.map (fun _ => ⟨0x11, .ok, 0⟩) ++
      [⟨0x12, .ok, (m.foldl (fun c x =>
        (fun c : Word => if c.getLsbD 0 = true then (c >>> 1) ^^^ 0xEDB88320 else c >>> 1)^[8] (c ^^^ x.setWidth 32))
        0xFFFFFFFF) ^^^ 0xFFFFFFFF⟩] ∧
    t.cpl.getLast? = some ⟨0x12, .ok, crc32 m⟩ ∧
    t.a = s.a ∧ t.b = s.b ∧ t.din = s.din ∧ t.dout = s.dout ∧ t.cmd = s.cmd

/-- R137: consequences of the definition of `crc32`. -/
def Obligations.CrcKnownValuesAndComposition : Prop :=
  crc32 [] = 0x00000000 ∧
  (∀ (c : Word) (m m' : List Byte), crcRun c (m ++ m') = crcRun (crcRun c m) m') ∧
  crc32 [0x31, 0x32, 0x33, 0x34, 0x35, 0x36, 0x37, 0x38, 0x39] = 0xCBF43926 ∧
  crc32 [0x49, 0x45, 0x4E, 0x44] = 0xAE426082 ∧
  chunk 0x49454E44 [] = [0x00, 0x00, 0x00, 0x00, 0x49, 0x45, 0x4E, 0x44, 0xAE, 0x42, 0x60, 0x82] ∧
  (∀ m : List Byte, crc32 m = m.foldl crcByteByTable 0xFFFFFFFF ^^^ 0xFFFFFFFF)

/-! ### The Adler-32 unit -/

/-- R151: `ADL.INIT`. -/
def Obligations.AdlInitSetsTheSums : Prop :=
  encode .adlInit = [0x20] ∧
  ∀ s : State, ∃ t, exec .adlInit s = .next t ∧
    t.a = 1 ∧ t.b = 0 ∧ t.crc = s.crc ∧ t.busy = false ∧ t.seq = Sequencer.zero ∧
    t.cmd = s.cmd ∧ t.din = s.din ∧ t.dout = s.dout ∧ t.cpl = s.cpl ++ [⟨0x20, .ok, 0⟩]

/-- R152: `ADL.UPD byte`; with both sums reduced, each remainder is one conditional subtraction. -/
def Obligations.AdlUpdFoldsOneByte : Prop :=
  (∀ x : Byte, encode (.adlUpd x) = [0x21, x]) ∧
  ∀ (s : State) (x : Byte), ∃ t, exec (.adlUpd x) s = .next t ∧
    t.a.toNat = (s.a.toNat + x.toNat) % 65521 ∧ t.b.toNat = (s.b.toNat + t.a.toNat) % 65521 ∧
    (s.a.toNat < 65521 → s.b.toNat < 65521 →
      t.a.toNat = (if s.a.toNat + x.toNat < 65521 then s.a.toNat + x.toNat else s.a.toNat + x.toNat - 65521) ∧
      t.b.toNat = (if s.b.toNat + t.a.toNat < 65521 then s.b.toNat + t.a.toNat
        else s.b.toNat + t.a.toNat - 65521)) ∧
    t.crc = s.crc ∧ t.busy = false ∧ t.seq = Sequencer.zero ∧
    t.cmd = s.cmd ∧ t.din = s.din ∧ t.dout = s.dout ∧ t.cpl = s.cpl ++ [⟨0x21, .ok, 0⟩]

/-- R154: `ADL.FIN`. -/
def Obligations.AdlFinReturnsThePackedSums : Prop :=
  encode .adlFin = [0x22] ∧
  ∀ s : State, ∃ t v, exec .adlFin s = .next t ∧ t.cpl = s.cpl ++ [⟨0x22, .ok, v⟩] ∧
    v = (s.b.setWidth 32 <<< 16) ||| s.a.setWidth 32 ∧ v.extractLsb' 16 16 = s.b ∧ v.extractLsb' 0 16 = s.a ∧
    t.crc = s.crc ∧ t.a = s.a ∧ t.b = s.b ∧ t.busy = false ∧ t.seq = Sequencer.zero ∧
    t.cmd = s.cmd ∧ t.din = s.din ∧ t.dout = s.dout

/-- R156: `adler32(s)` is the result of `ADL.INIT`, one `ADL.UPD` per byte, `ADL.FIN`; both sums in closed form. -/
def Obligations.AdlerOfAMessageByCommands : Prop :=
  ∀ (m : List Byte) (s : State), ∃ t, execAll (pseudoAdler32 m) s = .next t ∧
    t.cpl = s.cpl ++ [⟨0x20, .ok, 0⟩] ++ m.map (fun _ => ⟨0x21, .ok, 0⟩) ++ [⟨0x22, .ok, adler32 m⟩] ∧
    t.a.toNat = (1 + (m.map BitVec.toNat).sum) % 65521 ∧
    t.b.toNat = (m.length + (m.zipIdx.map (fun p => (m.length - p.2) * p.1.toNat)).sum) % 65521 ∧
    adler32 m = (t.b.setWidth 32 <<< 16) ||| t.a.setWidth 32 ∧
    t.crc = s.crc ∧ t.din = s.din ∧ t.dout = s.dout ∧ t.cmd = s.cmd

/-- R157: consequences of the definition of `adler32`. -/
def Obligations.AdlerKnownValuesAndComposition : Prop :=
  adler32 [] = 0x00000001 ∧
  (∀ (ab : Half × Half) (m m' : List Byte), adlerRun ab (m ++ m') = adlerRun (adlerRun ab m) m') ∧
  adler32 [0x57, 0x69, 0x6B, 0x69, 0x70, 0x65, 0x64, 0x69, 0x61] = 0x11E60398 ∧
  adler32 [0x00, 0xFF, 0x00, 0x00, 0xFF, 0x00, 0x00, 0x00, 0xFF, 0x00, 0x00, 0xFF, 0x00, 0x00] = 0x1FEE03FD

/-! ### The stored-block wrapper -/

/-- R174: the greedy partition. -/
def Obligations.PartitionIsGreedy : Prop :=
  ∀ raw : List Byte,
    blockCount raw.length = max 1 ((raw.length + 65534) / 65535) ∧
    (∀ k, k + 1 < blockCount raw.length → (piece raw k).length = 65535) ∧
    (piece raw (blockCount raw.length - 1)).length = raw.length - 65535 * (blockCount raw.length - 1) ∧
    (raw ≠ [] → 1 ≤ (piece raw (blockCount raw.length - 1)).length) ∧
    (piece raw (blockCount raw.length - 1)).length ≤ 65535 ∧
    (List.range (blockCount raw.length)).flatMap (piece raw) = raw ∧
    (∀ k, k < blockCount raw.length → piece raw k = (raw.drop (65535 * k)).take 65535)

/-- R172: `zwrap`, its blocks spelled out, and its length. -/
def Obligations.WrapIsHeaderBlocksTrailer : Prop :=
  ∀ raw : List Byte,
    zwrap raw = [0x78, 0x01]
      ++ (List.range (blockCount raw.length)).flatMap (fun k =>
          [if k + 1 = blockCount raw.length then 0x01 else 0x00]
          ++ le16 (BitVec.ofNat 16 (piece raw k).length)
          ++ le16 (BitVec.ofNat 16 (piece raw k).length ^^^ 0xFFFF)
          ++ piece raw k)
      ++ be32 (adler32 raw) ∧
    (zwrap raw).length = 2 + 5 * blockCount raw.length + raw.length + 4

/-- R176 and R178: `SBW.WRAP n`. With its `n` bytes on `DIN` it completes; with fewer it holds. -/
def Obligations.WrapEmitsTheStream : Prop :=
  (∀ n : Word, encode (.sbwWrap n) = 0x30 :: be32 n) ∧
  (∀ (n : Word) (raw rest : List Byte) (s : State), s.din = raw ++ rest → raw.length = n.toNat →
    ∃ t, exec (.sbwWrap n) s = .next t ∧
      t.dout = s.dout ++ zwrap raw ∧ (zwrap raw).length = 2 + 5 * blockCount n.toNat + n.toNat + 4 ∧ t.din = rest ∧
      (t.a, t.b) = raw.foldl adlerByte (1, 0) ∧ t.crc = s.crc ∧ t.cmd = s.cmd ∧
      t.cpl = s.cpl ++ [⟨0x30, .ok, 0⟩] ∧ t.busy = false ∧ t.seq = Sequencer.zero) ∧
  (∀ (n : Word) (s : State), s.din.length < n.toNat →
    ∃ t, exec (.sbwWrap n) s = .next t ∧ t.busy = true ∧ t.din = [] ∧ t.cpl = s.cpl ∧ t.crc = s.crc ∧ t.cmd = s.cmd)

/-- R66, for `SBW.WRAP`: with too few bytes on `DIN` it holds, having consumed them all and emitted a proper prefix of its
frame, whatever the missing bytes will be; and it makes no step while `DIN` is empty. -/
def Obligations.WrapHoldsOnEmptyInput : Prop :=
  ∀ (n : Word) (s : State), s.din.length < n.toNat →
    ∃ t out, exec (.sbwWrap n) s = .next t ∧ t.busy = true ∧ t.din = [] ∧
      t.dout = s.dout ++ out ∧ t.cpl = s.cpl ∧ t.crc = s.crc ∧ t.cmd = s.cmd ∧
      (∀ more : List Byte, s.din.length + more.length = n.toNat →
        out <+: zwrap (s.din ++ more) ∧ out.length < (zwrap (s.din ++ more)).length) ∧
      step t = .next t ∧ tick t = .next t

/-- R182 (a) to (d) and R102: a reader of the stream gets back the raw bytes and what follows the stream. The reader
is `readStream`, the model's rendering of R102 (log 26). -/
def Obligations.ReaderUnwrapsTheStream : Prop :=
  ∀ raw rest : List Byte, readStream (zwrap raw ++ rest) = some (raw, rest)

/-- R180: the corner cases, the blocks' first five bytes and the lengths. -/
def Obligations.WrapCornerCases : Prop :=
  zwrap [] = [0x78, 0x01, 0x01, 0x00, 0x00, 0xFF, 0xFF, 0x00, 0x00, 0x00, 0x01] ∧
  (∀ x : Byte, zwrap [x] = [0x78, 0x01, 0x01, 0x01, 0x00, 0xFE, 0xFF, x] ++
    be32 (((1 + x.setWidth 32) <<< 16) ||| (1 + x.setWidth 32))) ∧
  (∀ raw : List Byte, raw.length = 65535 →
    blockCount raw.length = 1 ∧ (zwrap raw).length = 65546 ∧
    (zwrap raw).take 7 = [0x78, 0x01, 0x01, 0xFF, 0xFF, 0x00, 0x00]) ∧
  (∀ raw : List Byte, raw.length = 65536 →
    blockCount raw.length = 2 ∧ (zwrap raw).length = 65552 ∧
    (zwrap raw).take 7 = [0x78, 0x01, 0x00, 0xFF, 0xFF, 0x00, 0x00] ∧
    ((zwrap raw).drop (7 + 65535)).take 5 = [0x01, 0x01, 0x00, 0xFE, 0xFF]) ∧
  (∀ raw : List Byte, raw.length = 131070 →
    blockCount raw.length = 2 ∧ (zwrap raw).length = 131086 ∧
    (zwrap raw).take 7 = [0x78, 0x01, 0x00, 0xFF, 0xFF, 0x00, 0x00] ∧
    ((zwrap raw).drop (7 + 65535)).take 5 = [0x01, 0xFF, 0xFF, 0x00, 0x00]) ∧
  (∀ raw : List Byte, raw.length = 50335744 →
    blockCount raw.length = 769 ∧ (zwrap raw).length = 50339595 ∧
    (∀ k, k < 768 → ((zwrap raw).drop (2 + k * 65540)).take 5 = [0x00, 0xFF, 0xFF, 0x00, 0x00]) ∧
    ((zwrap raw).drop (2 + 768 * 65540)).take 5 = [0x01, 0x00, 0x13, 0xFF, 0xEC])

/-! ### The scanline generator -/

/-- R202: byte `i` of the raster, and its length. -/
def Obligations.RasterByteByByte : Prop :=
  ∀ (w h : Nat) (r g b : Byte),
    (raster w h r g b).length = h * (1 + 3 * w) ∧
    raster w h r g b = (List.replicate h (0x00 :: (List.replicate w [r, g, b]).flatten)).flatten ∧
    (∀ i, i < h * (1 + 3 * w) →
      (raster w h r g b)[i]? = some (
        if i % (1 + 3 * w) = 0 then 0x00
        else if (i % (1 + 3 * w) - 1) % 3 = 0 then r
        else if (i % (1 + 3 * w) - 1) % 3 = 1 then g
        else b)) ∧
    (1 ≤ w → w ≤ 4096 → 1 ≤ h → h ≤ 4096 →
      4 ≤ (raster w h r g b).length ∧ (raster w h r g b).length ≤ 50335744 ∧
      (w = 1 → h = 1 → (raster w h r g b).length = 4) ∧
      (w = 4096 → h = 4096 → (raster w h r g b).length = 50335744))

/-- R204: `SLG.GEN`: with legal dimensions the whole raster, with others `InvalidDimensions` and no byte. -/
def Obligations.GeneratorEmitsTheRaster : Prop :=
  (∀ (w h : Word) (r g b : Byte), encode (.slgGen w h r g b) = 0x40 :: (be32 w ++ be32 h ++ [r, g, b])) ∧
  (∀ (w h : Word) (r g b : Byte) (s : State),
    1 ≤ w.toNat → w.toNat ≤ 4096 → 1 ≤ h.toNat → h.toNat ≤ 4096 →
    ∃ t, exec (.slgGen w h r g b) s = .next t ∧
      t.dout = s.dout ++ raster w.toNat h.toNat r g b ∧
      (raster w.toNat h.toNat r g b).length = h.toNat * (1 + 3 * w.toNat) ∧ t.din = s.din ∧
      t.crc = s.crc ∧ t.a = s.a ∧ t.b = s.b ∧ t.cmd = s.cmd ∧
      t.cpl = s.cpl ++ [⟨0x40, .ok, 0⟩] ∧ t.busy = false ∧ t.seq = Sequencer.zero) ∧
  (∀ (w h : Word) (r g b : Byte) (s : State),
    w.toNat < 1 ∨ 4096 < w.toNat ∨ h.toNat < 1 ∨ 4096 < h.toNat →
    ∃ t, exec (.slgGen w h r g b) s = .next t ∧ t.cpl = s.cpl ++ [⟨0x40, .invalidDimensions, 0⟩] ∧
      t.dout = s.dout ∧ t.din = s.din ∧ t.crc = s.crc ∧ t.a = s.a ∧ t.b = s.b ∧ t.cmd = s.cmd ∧
      t.busy = false ∧ t.seq = Sequencer.zero)

/-- R206: whatever `LANES` is, and whatever the row image held before, the broadcast rows serialise to the raster. -/
def Obligations.BroadcastIsTheRowForAnyLanes : Prop :=
  ∀ (lanes h : Nat) (r g b : Byte) (image : List Pixel), 1 ≤ lanes →
    serialiseRow (broadcastRow lanes ⟨r, g, b⟩ image) =
      0x00 :: (List.replicate image.length [r, g, b]).flatten ∧
    (List.replicate h (serialiseRow (broadcastRow lanes ⟨r, g, b⟩ image))).flatten = raster image.length h r g b

/-! ### The chunk serializer -/

/-- R224 and R226: `CHK.MAKE tag, len`. With its `len` payload bytes on `DIN` it completes; with fewer it holds. -/
def Obligations.SerializerEmitsTheChunk : Prop :=
  (∀ tag len : Word, encode (.chkMake tag len) = 0x50 :: (be32 tag ++ be32 len)) ∧
  (∀ (tag len : Word) (p rest : List Byte) (s : State), s.din = p ++ rest → p.length = len.toNat →
    ∃ t, exec (.chkMake tag len) s = .next t ∧
      t.dout = s.dout ++ (be32 len ++ be32 tag ++ p ++ be32 (crc32 (be32 tag ++ p))) ∧
      t.dout.length = s.dout.length + (12 + len.toNat) ∧ t.din = rest ∧
      t.crc = (be32 tag ++ p).foldl crcByte 0xFFFFFFFF ∧ t.a = s.a ∧ t.b = s.b ∧ t.cmd = s.cmd ∧
      t.cpl = s.cpl ++ [⟨0x50, .ok, 0⟩] ∧ t.busy = false ∧ t.seq = Sequencer.zero) ∧
  (∀ (tag len : Word) (s : State), s.din.length < len.toNat →
    ∃ t, exec (.chkMake tag len) s = .next t ∧ t.busy = true ∧ t.din = [] ∧ t.cpl = s.cpl ∧ t.a = s.a ∧ t.b = s.b ∧
      t.cmd = s.cmd)

/-- R66, for `CHK.MAKE`. -/
def Obligations.SerializerHoldsOnEmptyInput : Prop :=
  ∀ (tag len : Word) (s : State), s.din.length < len.toNat →
    ∃ t out, exec (.chkMake tag len) s = .next t ∧ t.busy = true ∧ t.din = [] ∧
      t.dout = s.dout ++ out ∧ t.cpl = s.cpl ∧ t.a = s.a ∧ t.b = s.b ∧ t.cmd = s.cmd ∧
      (∀ more : List Byte, s.din.length + more.length = len.toNat →
        out <+: chunk tag (s.din ++ more) ∧ out.length < (chunk tag (s.din ++ more)).length) ∧
      step t = .next t ∧ tick t = .next t

/-- R228: the fields of a chunk at their places. That a reader takes exactly the chunk off the front of any bytes that follow
is about `readChunk`, the model's rendering of R102 (log 26). -/
def Obligations.ReaderTakesTheChunkApart : Prop :=
  ∀ (tag : Word) (p rest : List Byte), p.length < 2 ^ 32 →
    readChunk (chunk tag p ++ rest) = some (⟨tag, p, crc32 (be32 tag ++ p)⟩, rest) ∧
    ((chunk tag p).take 4 = be32 (BitVec.ofNat 32 p.length)) ∧
    ((chunk tag p).drop 4).take 4 = be32 tag ∧
    ((chunk tag p).drop 8).take p.length = p ∧
    (chunk tag p).drop (8 + p.length) = be32 (crc32 (((chunk tag p).drop 4).take (4 + p.length)))

/-! ### The file encoder -/

/-- R242: `file`, its parts spelled out. -/
def Obligations.FileIsSignatureAndThreeChunks : Prop :=
  ∀ (w h : Word) (r g b : Byte),
    file w h r g b = [0x89, 0x50, 0x4E, 0x47, 0x0D, 0x0A, 0x1A, 0x0A]
      ++ chunk 0x49484452 (be32 w ++ be32 h ++ [0x08, 0x02, 0x00, 0x00, 0x00])
      ++ chunk 0x49444154 (zwrap (raster w.toNat h.toNat r g b))
      ++ chunk 0x49454E44 []

/-- R244: the lengths, as computed from the operands. -/
def Obligations.FileLengthsFromTheOperands : Prop :=
  ∀ (w h : Word) (r g b : Byte),
    1 ≤ w.toNat → w.toNat ≤ 4096 → 1 ≤ h.toNat → h.toNat ≤ 4096 →
    ∀ n nblk zlen : Nat, n = h.toNat * (1 + 3 * w.toNat) → nblk = max 1 ((n + 65534) / 65535) →
      zlen = 2 + 5 * nblk + n + 4 →
      (zwrap (raster w.toNat h.toNat r g b)).length = zlen ∧
      (file w h r g b).length = 57 + zlen ∧ (file w h r g b).length = 63 + 5 * nblk + n ∧
      4 ≤ n ∧ nblk = (n + 65534) / 65535 ∧ 15 ≤ zlen ∧ zlen ≤ 50339595 ∧
      72 ≤ (file w h r g b).length ∧ (file w h r g b).length ≤ 50339652 ∧
      (w.toNat = 1 → h.toNat = 1 → zlen = 15 ∧ (file w h r g b).length = 72) ∧
      (w.toNat = 4096 → h.toNat = 4096 → nblk = 769 ∧ zlen = 50339595 ∧ (file w h r g b).length = 50339652)

/-- R246 and R248: `ENC.ENCODE`: with legal dimensions the whole file, with others `InvalidDimensions`, no byte pushed and no
register written. -/
def Obligations.EncoderEmitsTheFile : Prop :=
  (∀ (w h : Word) (r g b : Byte), encode (.encEncode w h r g b) = 0x60 :: (be32 w ++ be32 h ++ [r, g, b])) ∧
  (∀ (w h : Word) (r g b : Byte) (s : State),
    1 ≤ w.toNat → w.toNat ≤ 4096 → 1 ≤ h.toNat → h.toNat ≤ 4096 →
    ∃ t, exec (.encEncode w h r g b) s = .next t ∧
      t.dout = s.dout ++ file w h r g b ∧
      (file w h r g b).length = 57 + (2 + 5 * blockCount (h.toNat * (1 + 3 * w.toNat)) + h.toNat * (1 + 3 * w.toNat) + 4) ∧
      t.din = s.din ∧ t.crc = 0x51BD9F7D ∧ (t.a, t.b) = (raster w.toNat h.toNat r g b).foldl adlerByte (1, 0) ∧ t.cmd = s.cmd ∧
      t.cpl = s.cpl ++ [⟨0x60, .ok, 0⟩] ∧ t.busy = false ∧ t.seq = Sequencer.zero) ∧
  (∀ (w h : Word) (r g b : Byte) (s : State),
    w.toNat < 1 ∨ 4096 < w.toNat ∨ h.toNat < 1 ∨ 4096 < h.toNat →
    ∃ t, exec (.encEncode w h r g b) s = .next t ∧ t.cpl = s.cpl ++ [⟨0x60, .invalidDimensions, 0⟩] ∧
      t.dout = s.dout ∧ t.din = s.din ∧ t.crc = s.crc ∧ t.a = s.a ∧ t.b = s.b ∧ t.cmd = s.cmd ∧
      t.busy = false ∧ t.seq = Sequencer.zero)

/-- R254: a reader of the file gets back the dimensions and the raster, every checksum verified. The reader is `readFile`, the
model's rendering of R102 (log 26). -/
def Obligations.ReaderTakesTheFileApart : Prop :=
  ∀ (w h : Word) (r g b : Byte),
    1 ≤ w.toNat → w.toNat ≤ 4096 → 1 ≤ h.toNat → h.toNat ≤ 4096 →
    readFile (file w h r g b) = some ⟨w, h, raster w.toNat h.toNat r g b⟩ ∧
    (file w h r g b).take 8 = [0x89, 0x50, 0x4E, 0x47, 0x0D, 0x0A, 0x1A, 0x0A]

/-- R68: the offset map of the file. -/
def Obligations.FileOffsetMap : Prop :=
  ∀ (w h : Word) (r g b : Byte),
    1 ≤ w.toNat → w.toNat ≤ 4096 → 1 ≤ h.toNat → h.toNat ≤ 4096 →
    ∀ (n nblk : Nat) (raw f : List Byte), raw = raster w.toNat h.toNat r g b → f = file w h r g b →
      n = h.toNat * (1 + 3 * w.toNat) → nblk = max 1 ((n + 65534) / 65535) →
      f.take 8 = [0x89, 0x50, 0x4E, 0x47, 0x0D, 0x0A, 0x1A, 0x0A] ∧
      (f.drop 8).take 4 = [0x00, 0x00, 0x00, 0x0D] ∧
      (f.drop 12).take 4 = [0x49, 0x48, 0x44, 0x52] ∧
      (f.drop 16).take 4 = be32 w ∧ (f.drop 20).take 4 = be32 h ∧
      (f.drop 24).take 5 = [0x08, 0x02, 0x00, 0x00, 0x00] ∧
      (f.drop 29).take 4 = be32 (crc32 ((f.drop 12).take 17)) ∧
      (f.drop 33).take 4 = be32 (BitVec.ofNat 32 (2 + 5 * nblk + n + 4)) ∧
      (f.drop 37).take 4 = [0x49, 0x44, 0x41, 0x54] ∧
      (f.drop 41).take 2 = [0x78, 0x01] ∧
      (∀ k, k < nblk → (f.drop (43 + k * (5 + 65535))).take (5 + min 65535 (n - 65535 * k)) =
        storedBlock (piece raw k) (decide (k + 1 = nblk))) ∧
      (f.drop (43 + 5 * nblk + n)).take 4 = be32 (adler32 raw) ∧
      (f.drop (47 + 5 * nblk + n)).take 4 = be32 (crc32 ((f.drop 37).take (10 + 5 * nblk + n))) ∧
      f.drop (51 + 5 * nblk + n) =
        [0x00, 0x00, 0x00, 0x00, 0x49, 0x45, 0x4E, 0x44, 0xAE, 0x42, 0x60, 0x82] ∧
      f.length = 63 + 5 * nblk + n

/-- R252: `ENC.ENCODE` never holds and is all or nothing: the whole file and `OK`, or no byte and `InvalidDimensions`. -/
def Obligations.EncoderIsAllOrNothing : Prop :=
  ∀ (w h : Word) (r g b : Byte) (s : State), ∃ t, exec (.encEncode w h r g b) s = .next t ∧ t.busy = false ∧
    t.din = s.din ∧
    ((t.dout = s.dout ++ file w h r g b ∧ t.cpl = s.cpl ++ [⟨0x60, .ok, 0⟩] ∧
        1 ≤ w.toNat ∧ w.toNat ≤ 4096 ∧ 1 ≤ h.toNat ∧ h.toNat ≤ 4096) ∨
      (t.dout = s.dout ∧ t.cpl = s.cpl ++ [⟨0x60, .invalidDimensions, 0⟩] ∧
        ¬(1 ≤ w.toNat ∧ w.toNat ≤ 4096 ∧ 1 ≤ h.toNat ∧ h.toNat ≤ 4096)))

/-! ### Exceptions, holds and fetch -/

/-- R271: `SLG.GEN` and `ENC.ENCODE` answer `InvalidDimensions` exactly when a dimension lies outside `1..4096`, both compared
as 32-bit unsigned numbers, whatever the colour; the boundary values. -/
def Obligations.BadDimensionsAreRefused : Prop :=
  (∀ (w h : Word) (r g b : Byte) (s : State),
    ∃ t u, exec (.slgGen w h r g b) s = .next t ∧ exec (.encEncode w h r g b) s = .next u ∧
      (t.cpl = s.cpl ++ [⟨0x40, .invalidDimensions, 0⟩] ↔
        w.toNat < 1 ∨ w.toNat > 4096 ∨ h.toNat < 1 ∨ h.toNat > 4096) ∧
      (u.cpl = s.cpl ++ [⟨0x60, .invalidDimensions, 0⟩] ↔
        w.toNat < 1 ∨ w.toNat > 4096 ∨ h.toNat < 1 ∨ h.toNat > 4096)) ∧
  dimsLegal 1 1 = true ∧ dimsLegal 4096 4096 = true ∧
  ∀ d ∈ ([0, 4097, 65536, 0x80000000, 0xFFFFFFFF] : List Word), ∀ e : Word,
    dimsLegal d e = false ∧ dimsLegal e d = false

/-- R272 and R111: an opcode byte that is none of the ten is consumed alone and answered with `IllegalCommand`; 246 bytes
are such. -/
def Obligations.IllegalOpcodeIsConsumedAlone : Prop :=
  (∀ (c : Byte) (rest : List Byte) (s : State), s.busy = false → s.cmd = c :: rest →
    c ∉ ([0x10, 0x11, 0x12, 0x20, 0x21, 0x22, 0x30, 0x40, 0x50, 0x60] : List Byte) →
    ∃ t, step s = .next t ∧ t.cpl = s.cpl ++ [⟨c, .illegalCommand, 0⟩] ∧ t.cmd = rest ∧
      t.dout = s.dout ∧ t.din = s.din ∧ t.crc = s.crc ∧ t.a = s.a ∧ t.b = s.b ∧
      t.busy = false ∧ t.seq = Sequencer.zero) ∧
  ((List.range 256).filter (fun c => decide (Op.ofByte (BitVec.ofNat 8 c) = none))).length = 246

/-- R25, R29, R108: when the block is idle and the packet of `i` is at the head of `CMD`, a step takes it and is `exec` of
`i`. -/
def Obligations.StepRunsTheDecodedCommand : Prop :=
  (∀ (i : Instr) (rest : List Byte) (s : State), s.busy = false → decode s.cmd = .command i rest →
    step s = exec i (s.setCmd rest)) ∧
  (∀ (i : Instr) (rest : List Byte) (s : State), i.wf = true → s.busy = false → s.cmd = encode i ++ rest →
    step s = exec i (s.setCmd rest))

/-- R66, R70: an operation that held goes on, once the host has supplied more, exactly as if all the bytes had been there
from the start. -/
def Obligations.ResumingAfterAHoldLosesNothing : Prop :=
  ∀ (i : Instr) (s t : State) (more : List Byte), exec i s = .next t → t.busy = true →
    step (t.supply more) = exec i (s.supply more)

/-- Log 2, log 3: with nothing to take, an idle block stays as it is: `CMD` is empty, or its packet is not all there yet. -/
def Obligations.IdleBlockWaitsForAWholePacket : Prop :=
  (∀ s : State, s.busy = false → s.cmd = [] → step s = .next s) ∧
  (∀ (i : Instr) (k : Nat) (s : State), s.busy = false → 1 ≤ k → k < (encode i).length →
    s.cmd = (encode i).take k → step s = .next s)

/-! ### Encoding -/

/-- R108 to R110: decoding an encoded command gives it back, with every operand at every value. -/
def Obligations.DecodeOfEncodeIsTheCommand : Prop :=
  ∀ (i : Instr) (rest : List Byte), i.wf = true → decode (encode i ++ rest) = .command i rest

/-- R108, R111: a packet the decoder accepts is the encoding of the command it gives, so each command has one packet. -/
def Obligations.DecodedPacketIsTheEncoding : Prop :=
  ∀ (p rest : List Byte) (i : Instr), decode p = .command i rest → p = encode i ++ rest

/-- R110: packets written out byte by byte, of every format. -/
def Obligations.PacketsWrittenOut : Prop :=
  decode [0x10] = .command .crcInit [] ∧
  decode [0x11, 0x10] = .command (.crcUpd 0x10) [] ∧
  decode [0x22] = .command .adlFin [] ∧
  decode [0x30, 0x00, 0x00, 0x00, 0x0E] = .command (.sbwWrap 14) [] ∧
  decode [0x50, 0x49, 0x48, 0x44, 0x52, 0x00, 0x00, 0x00, 0x0D] = .command (.chkMake 0x49484452 13) [] ∧
  decode [0x60, 0x00, 0x00, 0x00, 0x64, 0x00, 0x00, 0x01, 0x2C, 0x11, 0x22, 0x33] =
    .command (.encEncode 100 300 0x11 0x22 0x33) [] ∧
  decode [0x7F, 0x10] = .reject (.illegalOpcode 0x7F)

/-- R108, R110: the packet of every command, byte by byte, and its length by its opcode byte alone. -/
def Obligations.PacketLayoutByOpcode : Prop :=
  encode .crcInit = [0x10] ∧ encode .crcFin = [0x12] ∧ encode .adlInit = [0x20] ∧ encode .adlFin = [0x22] ∧
  (∀ x : Byte, encode (.crcUpd x) = [0x11, x] ∧ encode (.adlUpd x) = [0x21, x]) ∧
  (∀ n : Word, encode (.sbwWrap n) =
    [0x30, n.extractLsb' 24 8, n.extractLsb' 16 8, n.extractLsb' 8 8, n.extractLsb' 0 8]) ∧
  (∀ tag len : Word, encode (.chkMake tag len) =
    [0x50, tag.extractLsb' 24 8, tag.extractLsb' 16 8, tag.extractLsb' 8 8, tag.extractLsb' 0 8,
      len.extractLsb' 24 8, len.extractLsb' 16 8, len.extractLsb' 8 8, len.extractLsb' 0 8]) ∧
  (∀ (w h : Word) (r g b : Byte),
    encode (.slgGen w h r g b) =
      [0x40, w.extractLsb' 24 8, w.extractLsb' 16 8, w.extractLsb' 8 8, w.extractLsb' 0 8,
        h.extractLsb' 24 8, h.extractLsb' 16 8, h.extractLsb' 8 8, h.extractLsb' 0 8, r, g, b] ∧
    encode (.encEncode w h r g b) =
      [0x60, w.extractLsb' 24 8, w.extractLsb' 16 8, w.extractLsb' 8 8, w.extractLsb' 0 8,
        h.extractLsb' 24 8, h.extractLsb' 16 8, h.extractLsb' 8 8, h.extractLsb' 0 8, r, g, b]) ∧
  ∀ i : Instr, (encode i).length = packetLength i.op.code

/-! ### Whole-machine rules -/

/-- The invariant of the states between steps holds after reset. -/
def Obligations.ResetMeetsTheInvariant : Prop := State.reset.Inv

/-- Every step from every state that meets the invariant is a next state that meets it: the sums stay reduced (R22, R23),
an idle block's counters are 0 (R27), a busy block is where an operation can hold, and no step stops. -/
def Obligations.EveryStepKeepsTheInvariant : Prop :=
  ∀ s : State, s.Inv → ∃ t, step s = .next t ∧ t.Inv

/-- Host moves and steps in any order keep the invariant, and the run never stops. -/
def Obligations.NoRunOfStepsAndHostMovesStops : Prop :=
  ∀ (s : State) (es : List Event), s.Inv → (∀ e ∈ es, e ≠ .tick) → ∃ t, occurAll es s = .next t ∧ t.Inv

/-- At the finer granularity too the sums stay reduced and an idle block's counters are 0. -/
def Obligations.EveryByteStepKeepsSumsAndRest : Prop :=
  ∀ s t : State, s.sumsReduced → s.quietWhenIdle → tick s = .next t → t.sumsReduced ∧ t.quietWhenIdle

/-- R65: `DOUT` is append-only, `DIN` is consumed from its head, and `CPL` is append-only, at both granularities. -/
def Obligations.StreamsOnlyMoveForward : Prop :=
  ∀ s t : State, step s = .next t ∨ tick s = .next t →
    s.dout <+: t.dout ∧ t.din <:+ s.din ∧ s.cpl <+: t.cpl

/-- R64: a byte step moves at most one byte to `DOUT` and at most one from `DIN`. -/
def Obligations.OneByteStepMovesOneByte : Prop :=
  ∀ s t : State, tick s = .next t →
    (t.dout = s.dout ∨ ∃ x, t.dout = s.dout ++ [x]) ∧ (t.din = s.din ∨ ∃ x, s.din = x :: t.din)

/-- R32: a command that completes appends exactly one record, after those of the commands before it; one that holds appends
none; an illegal opcode byte is answered with one too. And R33: the record's opcode byte, status and result. -/
def Obligations.OneRecordPerCommand : Prop :=
  (∀ (i : Instr) (s t : State), exec i s = .next t →
    (t.busy = false → t.seq = Sequencer.zero ∧
      ∃ st v, t.cpl = s.cpl ++ [⟨i.op.code, st, v⟩] ∧ st = verdict i ∧
        v = (match i with
          | .crcFin => s.crc ^^^ 0xFFFFFFFF
          | .adlFin => (s.b.setWidth 32 <<< 16) ||| s.a.setWidth 32
          | _ => 0)) ∧
    (t.busy = true → t.cpl = s.cpl)) ∧
  (∀ (c : Byte) (rest : List Byte) (s t : State), s.busy = false → s.cmd = c :: rest → Op.ofByte c = none →
    step s = .next t → ∃ st v, t.cpl = s.cpl ++ [⟨c, st, v⟩])

/-- R21 to R23: which operations write `crc` and which write `a` and `b`, holds included. -/
def Obligations.RegisterWriters : Prop :=
  ∀ (i : Instr) (s t : State), exec i s = .next t →
    (i.op ≠ .crcInit → i.op ≠ .crcUpd → i.op ≠ .chkMake → i.op ≠ .encEncode → t.crc = s.crc) ∧
    (i.op ≠ .adlInit → i.op ≠ .adlUpd → i.op ≠ .sbwWrap → i.op ≠ .encEncode → t.a = s.a ∧ t.b = s.b)

/-- R38: what a composite operation emits, consumes and reports never depends on the values `crc`, `a`, `b` had before it,
holds included. -/
def Obligations.CompositesForgetTheRegisters : Prop :=
  ∀ (i : Instr) (s t : State) (c : Word) (x y : Half),
    i.op = .sbwWrap ∨ i.op = .slgGen ∨ i.op = .chkMake ∨ i.op = .encEncode → exec i s = .next t →
    ∃ t', exec i { s with crc := c, a := x, b := y } = .next t' ∧
      t'.dout = t.dout ∧ t'.din = t.din ∧ t'.cpl = t.cpl ∧ t'.busy = t.busy

/-- R178, R226, R248, R306: the checksum a composite operation emitted can be read back straight after it. -/
def Obligations.EmittedChecksumsReadBack : Prop :=
  (∀ (n : Word) (raw rest : List Byte) (s : State), s.din = raw ++ rest → raw.length = n.toNat →
    ∃ t, execAll [.sbwWrap n, .adlFin] s = .next t ∧
      t.cpl = s.cpl ++ [⟨0x30, .ok, 0⟩, ⟨0x22, .ok, adler32 raw⟩]) ∧
  (∀ (tag len : Word) (p rest : List Byte) (s : State), s.din = p ++ rest → p.length = len.toNat →
    ∃ t, execAll [.chkMake tag len, .crcFin] s = .next t ∧
      t.cpl = s.cpl ++ [⟨0x50, .ok, 0⟩, ⟨0x12, .ok, crc32 (be32 tag ++ p)⟩]) ∧
  (∀ (w h : Word) (r g b : Byte) (s : State), 1 ≤ w.toNat → w.toNat ≤ 4096 → 1 ≤ h.toNat → h.toNat ≤ 4096 →
    ∃ t, execAll [.encEncode w h r g b, .crcFin, .adlFin] s = .next t ∧
      t.cpl = s.cpl ++ [⟨0x60, .ok, 0⟩, ⟨0x12, .ok, 0xAE426082⟩,
        ⟨0x22, .ok, adler32 (raster w.toNat h.toNat r g b)⟩])

/-- R306: a `CHK.MAKE` between two updates takes the register over: the result is the checksum of its tag and the second
byte. -/
def Obligations.ChunkBetweenUpdatesTakesTheRegister : Prop :=
  ∀ (tag : Word) (x y : Byte) (s : State),
    ∃ t, execAll [.crcInit, .crcUpd x, .chkMake tag 0, .crcUpd y, .crcFin] s = .next t ∧
      t.cpl.getLast? = some ⟨0x12, .ok, crc32 (be32 tag ++ [y])⟩

/-- D15: the two granularities agree: what one step reaches, byte steps reach. -/
def Obligations.ByteStepsReachWhatAStepReaches : Prop :=
  ∀ s t : State, step s = .next t → ∃ k, ticks k s = .next t

/-- R312: a composite operation that does not hold takes one byte step per `DOUT` byte plus a constant, which R312 leaves open.
That the constant is 1, the step that begins, is the model's choice: the last byte's step also completes (log 12). -/
def Obligations.ByteStepsPerFrame : Prop :=
  (∀ (w h : Word) (r g b : Byte) (rest : List Byte) (s : State),
    1 ≤ w.toNat → w.toNat ≤ 4096 → 1 ≤ h.toNat → h.toNat ≤ 4096 → s.busy = false →
    (s.cmd = encode (.encEncode w h r g b) ++ rest → ticks (1 + (file w h r g b).length) s = step s) ∧
    (s.cmd = encode (.slgGen w h r g b) ++ rest → ticks (1 + h.toNat * (1 + 3 * w.toNat)) s = step s)) ∧
  (∀ (n : Word) (raw more rest : List Byte) (s : State), s.busy = false → s.din = raw ++ more →
    raw.length = n.toNat → s.cmd = encode (.sbwWrap n) ++ rest →
    ticks (1 + (2 + 5 * blockCount n.toNat + n.toNat + 4)) s = step s) ∧
  (∀ (tag len : Word) (p more rest : List Byte) (s : State), s.busy = false → s.din = p ++ more →
    p.length = len.toNat → s.cmd = encode (.chkMake tag len) ++ rest →
    ticks (1 + (12 + len.toNat)) s = step s) ∧
  (∀ (i : Instr) (rest : List Byte) (s : State), i.op ∈ [Op.crcInit, .crcUpd, .crcFin, .adlInit, .adlUpd, .adlFin] →
    s.busy = false → s.cmd = encode i ++ rest → ticks 1 s = step s)

/-- R71: at the byte granularity the bytes of a frame come out in order, one a step, and the record appears with the last
of them, no earlier. That it appears in that same byte step is the model's choice (log 12). -/
def Obligations.FrameBytesPrecedeTheRecord : Prop :=
  ∀ (i : Instr) (rest : List Byte) (s : State), s.busy = false → s.cmd = encode i ++ rest →
    needs i ≤ s.din.length → frameFor i s.din ≠ [] →
    ∀ k, k ≤ (frameFor i s.din).length →
      ∃ t, ticks (1 + k) s = .next t ∧ t.dout = s.dout ++ (frameFor i s.din).take k ∧
        (k < (frameFor i s.din).length → t.busy = true ∧ t.cpl = s.cpl) ∧
        (k = (frameFor i s.din).length → t.busy = false ∧ t.cpl = s.cpl ++ [⟨i.op.code, .ok, 0⟩])

/-- R70, R32: a queue of commands whose `DIN` bytes are all there runs in order, one step each: the frames follow one another
on `DOUT`, each command draws the `DIN` bytes the ones before it left, and the `k`-th new record answers the `k`-th
command. -/
def Obligations.QueueRunsInOrder : Prop :=
  ∀ (is : List Instr) (rest : List Byte) (s : State), s.busy = false → s.cmd = is.flatMap encode ++ rest →
    (is.map needs).sum ≤ s.din.length →
    ∃ t new, occurAll (List.replicate is.length .step) s = .next t ∧
      t.busy = false ∧ t.cmd = rest ∧ t.dout = s.dout ++ framesFor is s.din ∧
      t.din = s.din.drop (is.map needs).sum ∧ t.cpl = s.cpl ++ new ∧
      new.map (fun c => (c.op, c.status)) = is.map (fun i => (i.op.code, verdict i))

/-- R76: an event at one instance leaves every other instance as it was. -/
def Obligations.InstancesShareNothing : Prop :=
  ∀ (k : Nat) (e : Event) (bank bank' : List State), occurAt k e bank = .next bank' →
    bank'.length = bank.length ∧ ∀ j, j ≠ k → bank'[j]? = bank[j]?

/-- R290, R64: no event of a run, at either granularity, leaves part of a packet on `CMD`: the host issues whole packets and
the block takes whole packets. So an unfinished packet (log 2) is met in no run from reset. -/
def Obligations.CmdHoldsWholePackets : Prop :=
  State.reset.cmdWhole ∧
  (∀ (e : Event) (s t : State), s.cmdWhole → occur e s = .next t → t.cmdWhole) ∧
  (∀ (es : List Event) (s t : State) (o : Op), s.cmdWhole → occurAll es s = .next t →
    decode t.cmd ≠ .reject (.incomplete o))
end

