-- ==== Sys2Proof/Laws/Adler.lean ====
section
/-! SUPPORT. What the Adler update does: both sums stay reduced, and runs compose. -/

namespace Sys2Proof.Machine

theorem adlerAdd_toNat (x y : Nat) : (adlerAdd x y).toNat = (x + y) % 65521 := by
  have : (x + y) % 65521 < 65521 := Nat.mod_lt _ (by decide)
  simp only [adlerAdd, Config.adlerMod, BitVec.toNat_ofNat]
  omega

theorem adlerAdd_lt (x y : Nat) : (adlerAdd x y).toNat < 65521 := by
  rw [adlerAdd_toNat]; exact Nat.mod_lt _ (by decide)

theorem adlerByte_fst_lt (ab : Half × Half) (x : Byte) : (adlerByte ab x).1.toNat < 65521 := adlerAdd_lt _ _

theorem adlerByte_snd_lt (ab : Half × Half) (x : Byte) : (adlerByte ab x).2.toNat < 65521 := adlerAdd_lt _ _

/-- The sums over a sequence in two parts (spec/41_adler32.md R157(c)). -/
theorem adlerRun_append (ab : Half × Half) (xs ys : List Byte) :
    adlerRun ab (xs ++ ys) = adlerRun (adlerRun ab xs) ys := List.foldl_append

theorem adlerRun_cons (ab : Half × Half) (x : Byte) (xs : List Byte) :
    adlerRun ab (x :: xs) = adlerRun (adlerByte ab x) xs := rfl

/-- Reduced sums stay reduced over any sequence. -/
theorem adlerRun_lt {ab : Half × Half} (h1 : ab.1.toNat < 65521) (h2 : ab.2.toNat < 65521) (xs : List Byte) :
    (adlerRun ab xs).1.toNat < 65521 ∧ (adlerRun ab xs).2.toNat < 65521 := by
  induction xs generalizing ab with
  | nil => exact ⟨h1, h2⟩
  | cons x xs ih => exact ih (adlerByte_fst_lt ab x) (adlerByte_snd_lt ab x)

end Sys2Proof.Machine
end

