-- ==== Sys2Proof/Laws/Bytes.lean ====
section
/-! SUPPORT. What the byte-order helpers do: the two directions of `be32` and `le16`, and lengths. -/

namespace Sys2Proof.Machine

@[simp] theorem be32_length (v : Word) : (be32 v).length = 4 := rfl

@[simp] theorem le16_length (v : Half) : (le16 v).length = 2 := rfl

/-- The four bytes of `be32` put together again give the value. -/
theorem ofBe32_be32 (v : Word) :
    ofBe32 (v.extractLsb' 24 8) (v.extractLsb' 16 8) (v.extractLsb' 8 8) (v.extractLsb' 0 8) = v := by
  apply BitVec.eq_of_getLsbD_eq
  intro i hi
  simp only [ofBe32, BitVec.getLsbD_append, BitVec.getLsbD_extractLsb']
  interval_cases i <;> simp

/-- The two bytes of `le16` put together again give the value. -/
theorem ofLe16_le16 (v : Half) : ofLe16 (v.extractLsb' 0 8) (v.extractLsb' 8 8) = v := by
  apply BitVec.eq_of_getLsbD_eq
  intro i hi
  simp only [ofLe16, BitVec.getLsbD_append, BitVec.getLsbD_extractLsb']
  interval_cases i <;> simp

/-- A reader takes a big-endian value back from the front of a sequence. -/
theorem readBe32_be32 (v : Word) (rest : List Byte) : readBe32 (be32 v ++ rest) = some (v, rest) := by
  simp only [be32, List.cons_append, List.nil_append, readBe32, ofBe32_be32]

/-- Packets are read back byte for byte: decoding the four bytes of an operand gives the operand. -/
theorem be32_cons (v : Word) (rest : List Byte) :
    be32 v ++ rest = v.extractLsb' 24 8 :: v.extractLsb' 16 8 :: v.extractLsb' 8 8 :: v.extractLsb' 0 8 :: rest := rfl

end Sys2Proof.Machine
end

