-- ==== Sys2Proof/Laws/Crc.lean ====
section
/-! SUPPORT. What the CRC update does: runs compose, and the shift steps are linear. -/

namespace Sys2Proof.Machine

/-- The register over a sequence in two parts (spec/40_crc32.md R137(b)). -/
theorem crcRun_append (c : Word) (xs ys : List Byte) : crcRun c (xs ++ ys) = crcRun (crcRun c xs) ys :=
  List.foldl_append

theorem crcRun_cons (c : Word) (x : Byte) (xs : List Byte) : crcRun c (x :: xs) = crcRun (crcByte c x) xs := rfl

/-- One shift step is linear over XOR. -/
theorem crcShift_xor (x y : Word) : crcShift (x ^^^ y) = crcShift x ^^^ crcShift y := by
  simp only [crcShift, BitVec.getLsbD_xor, BitVec.ushiftRight_xor_distrib]
  generalize x >>> 1 = u
  generalize y >>> 1 = v
  generalize Config.crcPoly = p
  cases x.getLsbD 0 <;> cases y.getLsbD 0 <;> simp only [Bool.xor_false, Bool.xor_true, Bool.not_false, Bool.not_true,
    Bool.false_eq_true, if_true, if_false]
  · rw [BitVec.xor_assoc]
  · rw [BitVec.xor_assoc, BitVec.xor_comm v p, ← BitVec.xor_assoc]
  · rw [BitVec.xor_comm v p, BitVec.xor_assoc, ← BitVec.xor_assoc p p v, BitVec.xor_self, BitVec.zero_xor]

theorem crcShifts_xor (k : Nat) (x y : Word) : crcShifts k (x ^^^ y) = crcShifts k x ^^^ crcShifts k y := by
  induction k generalizing x y with
  | zero => rfl
  | succ k ih => simp only [crcShifts, crcShift_xor, ih]

/-- Shift steps on a value whose low bits are clear are plain right shifts. -/
theorem crcShifts_of_low_clear (k : Nat) (x : Word) (h : ∀ i, i < k → x.getLsbD i = false) :
    crcShifts k x = x >>> k := by
  induction k generalizing x with
  | zero => simp [crcShifts]
  | succ k ih =>
    have h0 : crcShift x = x >>> 1 := by simp only [crcShift, h 0 (by omega), Bool.false_eq_true, if_false]
    rw [crcShifts, h0, ih]
    · rw [← BitVec.shiftRight_add, Nat.add_comm]
    · intro i hi
      simp [BitVec.getLsbD_ushiftRight, h (1 + i) (by omega)]

end Sys2Proof.Machine
end

