-- ==== Sys2Proof/Laws/State.lean ====
section
/-! SUPPORT. One lemma per field per update of the state, so that no later proof unfolds a record update. -/

namespace Sys2Proof.Machine

variable (s : State)

@[simp] theorem State.take_crc (l : Latch) : (s.take l).crc = s.crc := rfl
@[simp] theorem State.take_a (l : Latch) : (s.take l).a = s.a := rfl
@[simp] theorem State.take_b (l : Latch) : (s.take l).b = s.b := rfl
@[simp] theorem State.take_busy (l : Latch) : (s.take l).busy = true := rfl
@[simp] theorem State.take_latch (l : Latch) : (s.take l).latch = l := rfl
@[simp] theorem State.take_seq (l : Latch) : (s.take l).seq = s.seq := rfl
@[simp] theorem State.take_cmd (l : Latch) : (s.take l).cmd = s.cmd := rfl
@[simp] theorem State.take_din (l : Latch) : (s.take l).din = s.din := rfl
@[simp] theorem State.take_dout (l : Latch) : (s.take l).dout = s.dout := rfl
@[simp] theorem State.take_cpl (l : Latch) : (s.take l).cpl = s.cpl := rfl
@[simp] theorem State.take_draws (l : Latch) : (s.take l).draws = s.draws := rfl

@[simp] theorem State.openFrame_crc (q : Sequencer) : (s.openFrame q).crc = s.crc := rfl
@[simp] theorem State.openFrame_a (q : Sequencer) : (s.openFrame q).a = s.a := rfl
@[simp] theorem State.openFrame_b (q : Sequencer) : (s.openFrame q).b = s.b := rfl
@[simp] theorem State.openFrame_busy (q : Sequencer) : (s.openFrame q).busy = s.busy := rfl
@[simp] theorem State.openFrame_latch (q : Sequencer) : (s.openFrame q).latch = s.latch := rfl
@[simp] theorem State.openFrame_seq (q : Sequencer) : (s.openFrame q).seq = q := rfl
@[simp] theorem State.openFrame_cmd (q : Sequencer) : (s.openFrame q).cmd = s.cmd := rfl
@[simp] theorem State.openFrame_din (q : Sequencer) : (s.openFrame q).din = s.din := rfl
@[simp] theorem State.openFrame_dout (q : Sequencer) : (s.openFrame q).dout = s.dout := rfl
@[simp] theorem State.openFrame_cpl (q : Sequencer) : (s.openFrame q).cpl = s.cpl := rfl
@[simp] theorem State.openFrame_draws (q : Sequencer) : (s.openFrame q).draws = s.draws := rfl

@[simp] theorem State.complete_crc (st : Status) (v : Word) : (s.complete st v).crc = s.crc := rfl
@[simp] theorem State.complete_a (st : Status) (v : Word) : (s.complete st v).a = s.a := rfl
@[simp] theorem State.complete_b (st : Status) (v : Word) : (s.complete st v).b = s.b := rfl
@[simp] theorem State.complete_busy (st : Status) (v : Word) : (s.complete st v).busy = false := rfl
@[simp] theorem State.complete_latch (st : Status) (v : Word) : (s.complete st v).latch = Config.freeLatch s.draws := rfl
@[simp] theorem State.complete_seq (st : Status) (v : Word) : (s.complete st v).seq = Sequencer.zero := rfl
@[simp] theorem State.complete_cmd (st : Status) (v : Word) : (s.complete st v).cmd = s.cmd := rfl
@[simp] theorem State.complete_din (st : Status) (v : Word) : (s.complete st v).din = s.din := rfl
@[simp] theorem State.complete_dout (st : Status) (v : Word) : (s.complete st v).dout = s.dout := rfl
@[simp] theorem State.complete_cpl (st : Status) (v : Word) : (s.complete st v).cpl = s.cpl ++ [⟨s.latch.op, st, v⟩] := rfl
@[simp] theorem State.complete_draws (st : Status) (v : Word) : (s.complete st v).draws = s.draws + 1 := rfl

@[simp] theorem State.outPush_crc (x : Byte) : (s.outPush x).crc = s.crc := rfl
@[simp] theorem State.outPush_a (x : Byte) : (s.outPush x).a = s.a := rfl
@[simp] theorem State.outPush_b (x : Byte) : (s.outPush x).b = s.b := rfl
@[simp] theorem State.outPush_busy (x : Byte) : (s.outPush x).busy = s.busy := rfl
@[simp] theorem State.outPush_latch (x : Byte) : (s.outPush x).latch = s.latch := rfl
@[simp] theorem State.outPush_seq (x : Byte) : (s.outPush x).seq = s.seq := rfl
@[simp] theorem State.outPush_cmd (x : Byte) : (s.outPush x).cmd = s.cmd := rfl
@[simp] theorem State.outPush_din (x : Byte) : (s.outPush x).din = s.din := rfl
@[simp] theorem State.outPush_dout (x : Byte) : (s.outPush x).dout = s.dout ++ [x] := rfl
@[simp] theorem State.outPush_cpl (x : Byte) : (s.outPush x).cpl = s.cpl := rfl
@[simp] theorem State.outPush_draws (x : Byte) : (s.outPush x).draws = s.draws := rfl

@[simp] theorem State.setCrc_crc (v : Word) : (s.setCrc v).crc = v := rfl
@[simp] theorem State.setCrc_a (v : Word) : (s.setCrc v).a = s.a := rfl
@[simp] theorem State.setCrc_b (v : Word) : (s.setCrc v).b = s.b := rfl
@[simp] theorem State.setCrc_busy (v : Word) : (s.setCrc v).busy = s.busy := rfl
@[simp] theorem State.setCrc_latch (v : Word) : (s.setCrc v).latch = s.latch := rfl
@[simp] theorem State.setCrc_seq (v : Word) : (s.setCrc v).seq = s.seq := rfl
@[simp] theorem State.setCrc_cmd (v : Word) : (s.setCrc v).cmd = s.cmd := rfl
@[simp] theorem State.setCrc_din (v : Word) : (s.setCrc v).din = s.din := rfl
@[simp] theorem State.setCrc_dout (v : Word) : (s.setCrc v).dout = s.dout := rfl
@[simp] theorem State.setCrc_cpl (v : Word) : (s.setCrc v).cpl = s.cpl := rfl
@[simp] theorem State.setCrc_draws (v : Word) : (s.setCrc v).draws = s.draws := rfl

@[simp] theorem State.setAdler_crc (ab : Half × Half) : (s.setAdler ab).crc = s.crc := rfl
@[simp] theorem State.setAdler_a (ab : Half × Half) : (s.setAdler ab).a = ab.1 := rfl
@[simp] theorem State.setAdler_b (ab : Half × Half) : (s.setAdler ab).b = ab.2 := rfl
@[simp] theorem State.setAdler_busy (ab : Half × Half) : (s.setAdler ab).busy = s.busy := rfl
@[simp] theorem State.setAdler_latch (ab : Half × Half) : (s.setAdler ab).latch = s.latch := rfl
@[simp] theorem State.setAdler_seq (ab : Half × Half) : (s.setAdler ab).seq = s.seq := rfl
@[simp] theorem State.setAdler_cmd (ab : Half × Half) : (s.setAdler ab).cmd = s.cmd := rfl
@[simp] theorem State.setAdler_din (ab : Half × Half) : (s.setAdler ab).din = s.din := rfl
@[simp] theorem State.setAdler_dout (ab : Half × Half) : (s.setAdler ab).dout = s.dout := rfl
@[simp] theorem State.setAdler_cpl (ab : Half × Half) : (s.setAdler ab).cpl = s.cpl := rfl
@[simp] theorem State.setAdler_draws (ab : Half × Half) : (s.setAdler ab).draws = s.draws := rfl

@[simp] theorem State.setCmd_crc (c : List Byte) : (s.setCmd c).crc = s.crc := rfl
@[simp] theorem State.setCmd_a (c : List Byte) : (s.setCmd c).a = s.a := rfl
@[simp] theorem State.setCmd_b (c : List Byte) : (s.setCmd c).b = s.b := rfl
@[simp] theorem State.setCmd_busy (c : List Byte) : (s.setCmd c).busy = s.busy := rfl
@[simp] theorem State.setCmd_latch (c : List Byte) : (s.setCmd c).latch = s.latch := rfl
@[simp] theorem State.setCmd_seq (c : List Byte) : (s.setCmd c).seq = s.seq := rfl
@[simp] theorem State.setCmd_cmd (c : List Byte) : (s.setCmd c).cmd = c := rfl
@[simp] theorem State.setCmd_din (c : List Byte) : (s.setCmd c).din = s.din := rfl
@[simp] theorem State.setCmd_dout (c : List Byte) : (s.setCmd c).dout = s.dout := rfl
@[simp] theorem State.setCmd_cpl (c : List Byte) : (s.setCmd c).cpl = s.cpl := rfl
@[simp] theorem State.setCmd_draws (c : List Byte) : (s.setCmd c).draws = s.draws := rfl

@[simp] theorem State.issue_crc (p : CommandPacket) : (s.issue p).crc = s.crc := rfl
@[simp] theorem State.issue_a (p : CommandPacket) : (s.issue p).a = s.a := rfl
@[simp] theorem State.issue_b (p : CommandPacket) : (s.issue p).b = s.b := rfl
@[simp] theorem State.issue_busy (p : CommandPacket) : (s.issue p).busy = s.busy := rfl
@[simp] theorem State.issue_latch (p : CommandPacket) : (s.issue p).latch = s.latch := rfl
@[simp] theorem State.issue_seq (p : CommandPacket) : (s.issue p).seq = s.seq := rfl
@[simp] theorem State.issue_cmd (p : CommandPacket) : (s.issue p).cmd = s.cmd ++ p.bytes := rfl
@[simp] theorem State.issue_din (p : CommandPacket) : (s.issue p).din = s.din := rfl
@[simp] theorem State.issue_dout (p : CommandPacket) : (s.issue p).dout = s.dout := rfl
@[simp] theorem State.issue_cpl (p : CommandPacket) : (s.issue p).cpl = s.cpl := rfl
@[simp] theorem State.issue_draws (p : CommandPacket) : (s.issue p).draws = s.draws := rfl

/-- Issuing commands one after another changes `CMD` alone, by their packets in order. -/
theorem State.issueCommands_eq (is : List Instr) (s : State) :
    s.issueCommands is = { s with cmd := s.cmd ++ is.flatMap encode } := by
  induction is generalizing s with
  | nil => simp [State.issueCommands]
  | cons i is ih => simp [State.issueCommands, ih, State.issue, CommandPacket.bytes]

@[simp] theorem State.supply_crc (ys : List Byte) : (s.supply ys).crc = s.crc := rfl
@[simp] theorem State.supply_a (ys : List Byte) : (s.supply ys).a = s.a := rfl
@[simp] theorem State.supply_b (ys : List Byte) : (s.supply ys).b = s.b := rfl
@[simp] theorem State.supply_busy (ys : List Byte) : (s.supply ys).busy = s.busy := rfl
@[simp] theorem State.supply_latch (ys : List Byte) : (s.supply ys).latch = s.latch := rfl
@[simp] theorem State.supply_seq (ys : List Byte) : (s.supply ys).seq = s.seq := rfl
@[simp] theorem State.supply_cmd (ys : List Byte) : (s.supply ys).cmd = s.cmd := rfl
@[simp] theorem State.supply_din (ys : List Byte) : (s.supply ys).din = s.din ++ ys := rfl
@[simp] theorem State.supply_dout (ys : List Byte) : (s.supply ys).dout = s.dout := rfl
@[simp] theorem State.supply_cpl (ys : List Byte) : (s.supply ys).cpl = s.cpl := rfl
@[simp] theorem State.supply_draws (ys : List Byte) : (s.supply ys).draws = s.draws := rfl

@[simp] theorem State.setIdx_crc (v : BitVec 4) : (s.setIdx v).crc = s.crc := rfl
@[simp] theorem State.setIdx_a (v : BitVec 4) : (s.setIdx v).a = s.a := rfl
@[simp] theorem State.setIdx_b (v : BitVec 4) : (s.setIdx v).b = s.b := rfl
@[simp] theorem State.setIdx_busy (v : BitVec 4) : (s.setIdx v).busy = s.busy := rfl
@[simp] theorem State.setIdx_latch (v : BitVec 4) : (s.setIdx v).latch = s.latch := rfl
@[simp] theorem State.setIdx_cmd (v : BitVec 4) : (s.setIdx v).cmd = s.cmd := rfl
@[simp] theorem State.setIdx_din (v : BitVec 4) : (s.setIdx v).din = s.din := rfl
@[simp] theorem State.setIdx_dout (v : BitVec 4) : (s.setIdx v).dout = s.dout := rfl
@[simp] theorem State.setIdx_cpl (v : BitVec 4) : (s.setIdx v).cpl = s.cpl := rfl
@[simp] theorem State.setIdx_draws (v : BitVec 4) : (s.setIdx v).draws = s.draws := rfl
@[simp] theorem State.setIdx_seq_idx (v : BitVec 4) : (s.setIdx v).seq.idx = v := rfl
@[simp] theorem State.setIdx_seq_payRem (v : BitVec 4) : (s.setIdx v).seq.payRem = s.seq.payRem := rfl
@[simp] theorem State.setIdx_seq_inRem (v : BitVec 4) : (s.setIdx v).seq.inRem = s.seq.inRem := rfl
@[simp] theorem State.setIdx_seq_blkRem (v : BitVec 4) : (s.setIdx v).seq.blkRem = s.seq.blkRem := rfl
@[simp] theorem State.setIdx_seq_row (v : BitVec 4) : (s.setIdx v).seq.row = s.seq.row := rfl
@[simp] theorem State.setIdx_seq_px (v : BitVec 4) : (s.setIdx v).seq.px = s.seq.px := rfl
@[simp] theorem State.setIdx_seq_ch (v : BitVec 4) : (s.setIdx v).seq.ch = s.seq.ch := rfl
@[simp] theorem State.setIdx_seq_frame (v : BitVec 4) : (s.setIdx v).seq.frame = s.seq.frame := rfl
@[simp] theorem State.setIdx_seq_chk (v : BitVec 4) : (s.setIdx v).seq.chk = s.seq.chk := rfl
@[simp] theorem State.setIdx_seq_sbw (v : BitVec 4) : (s.setIdx v).seq.sbw = s.seq.sbw := rfl

@[simp] theorem State.setPayRem_crc (v : BitVec 32) : (s.setPayRem v).crc = s.crc := rfl
@[simp] theorem State.setPayRem_a (v : BitVec 32) : (s.setPayRem v).a = s.a := rfl
@[simp] theorem State.setPayRem_b (v : BitVec 32) : (s.setPayRem v).b = s.b := rfl
@[simp] theorem State.setPayRem_busy (v : BitVec 32) : (s.setPayRem v).busy = s.busy := rfl
@[simp] theorem State.setPayRem_latch (v : BitVec 32) : (s.setPayRem v).latch = s.latch := rfl
@[simp] theorem State.setPayRem_cmd (v : BitVec 32) : (s.setPayRem v).cmd = s.cmd := rfl
@[simp] theorem State.setPayRem_din (v : BitVec 32) : (s.setPayRem v).din = s.din := rfl
@[simp] theorem State.setPayRem_dout (v : BitVec 32) : (s.setPayRem v).dout = s.dout := rfl
@[simp] theorem State.setPayRem_cpl (v : BitVec 32) : (s.setPayRem v).cpl = s.cpl := rfl
@[simp] theorem State.setPayRem_draws (v : BitVec 32) : (s.setPayRem v).draws = s.draws := rfl
@[simp] theorem State.setPayRem_seq_idx (v : BitVec 32) : (s.setPayRem v).seq.idx = s.seq.idx := rfl
@[simp] theorem State.setPayRem_seq_payRem (v : BitVec 32) : (s.setPayRem v).seq.payRem = v := rfl
@[simp] theorem State.setPayRem_seq_inRem (v : BitVec 32) : (s.setPayRem v).seq.inRem = s.seq.inRem := rfl
@[simp] theorem State.setPayRem_seq_blkRem (v : BitVec 32) : (s.setPayRem v).seq.blkRem = s.seq.blkRem := rfl
@[simp] theorem State.setPayRem_seq_row (v : BitVec 32) : (s.setPayRem v).seq.row = s.seq.row := rfl
@[simp] theorem State.setPayRem_seq_px (v : BitVec 32) : (s.setPayRem v).seq.px = s.seq.px := rfl
@[simp] theorem State.setPayRem_seq_ch (v : BitVec 32) : (s.setPayRem v).seq.ch = s.seq.ch := rfl
@[simp] theorem State.setPayRem_seq_frame (v : BitVec 32) : (s.setPayRem v).seq.frame = s.seq.frame := rfl
@[simp] theorem State.setPayRem_seq_chk (v : BitVec 32) : (s.setPayRem v).seq.chk = s.seq.chk := rfl
@[simp] theorem State.setPayRem_seq_sbw (v : BitVec 32) : (s.setPayRem v).seq.sbw = s.seq.sbw := rfl

@[simp] theorem State.setRemaining_crc (n : BitVec 32) (m : BitVec 16) : (s.setRemaining n m).crc = s.crc := rfl
@[simp] theorem State.setRemaining_a (n : BitVec 32) (m : BitVec 16) : (s.setRemaining n m).a = s.a := rfl
@[simp] theorem State.setRemaining_b (n : BitVec 32) (m : BitVec 16) : (s.setRemaining n m).b = s.b := rfl
@[simp] theorem State.setRemaining_busy (n : BitVec 32) (m : BitVec 16) : (s.setRemaining n m).busy = s.busy := rfl
@[simp] theorem State.setRemaining_latch (n : BitVec 32) (m : BitVec 16) : (s.setRemaining n m).latch = s.latch := rfl
@[simp] theorem State.setRemaining_cmd (n : BitVec 32) (m : BitVec 16) : (s.setRemaining n m).cmd = s.cmd := rfl
@[simp] theorem State.setRemaining_din (n : BitVec 32) (m : BitVec 16) : (s.setRemaining n m).din = s.din := rfl
@[simp] theorem State.setRemaining_dout (n : BitVec 32) (m : BitVec 16) : (s.setRemaining n m).dout = s.dout := rfl
@[simp] theorem State.setRemaining_cpl (n : BitVec 32) (m : BitVec 16) : (s.setRemaining n m).cpl = s.cpl := rfl
@[simp] theorem State.setRemaining_draws (n : BitVec 32) (m : BitVec 16) : (s.setRemaining n m).draws = s.draws := rfl
@[simp] theorem State.setRemaining_seq_idx (n : BitVec 32) (m : BitVec 16) : (s.setRemaining n m).seq.idx = s.seq.idx := rfl
@[simp] theorem State.setRemaining_seq_payRem (n : BitVec 32) (m : BitVec 16) : (s.setRemaining n m).seq.payRem = s.seq.payRem := rfl
@[simp] theorem State.setRemaining_seq_inRem (n : BitVec 32) (m : BitVec 16) : (s.setRemaining n m).seq.inRem = n := rfl
@[simp] theorem State.setRemaining_seq_blkRem (n : BitVec 32) (m : BitVec 16) : (s.setRemaining n m).seq.blkRem = m := rfl
@[simp] theorem State.setRemaining_seq_row (n : BitVec 32) (m : BitVec 16) : (s.setRemaining n m).seq.row = s.seq.row := rfl
@[simp] theorem State.setRemaining_seq_px (n : BitVec 32) (m : BitVec 16) : (s.setRemaining n m).seq.px = s.seq.px := rfl
@[simp] theorem State.setRemaining_seq_ch (n : BitVec 32) (m : BitVec 16) : (s.setRemaining n m).seq.ch = s.seq.ch := rfl
@[simp] theorem State.setRemaining_seq_frame (n : BitVec 32) (m : BitVec 16) : (s.setRemaining n m).seq.frame = s.seq.frame := rfl
@[simp] theorem State.setRemaining_seq_chk (n : BitVec 32) (m : BitVec 16) : (s.setRemaining n m).seq.chk = s.seq.chk := rfl
@[simp] theorem State.setRemaining_seq_sbw (n : BitVec 32) (m : BitVec 16) : (s.setRemaining n m).seq.sbw = s.seq.sbw := rfl

@[simp] theorem State.setPixel_crc (row px : BitVec 13) (ch : BitVec 2) : (s.setPixel row px ch).crc = s.crc := rfl
@[simp] theorem State.setPixel_a (row px : BitVec 13) (ch : BitVec 2) : (s.setPixel row px ch).a = s.a := rfl
@[simp] theorem State.setPixel_b (row px : BitVec 13) (ch : BitVec 2) : (s.setPixel row px ch).b = s.b := rfl
@[simp] theorem State.setPixel_busy (row px : BitVec 13) (ch : BitVec 2) : (s.setPixel row px ch).busy = s.busy := rfl
@[simp] theorem State.setPixel_latch (row px : BitVec 13) (ch : BitVec 2) : (s.setPixel row px ch).latch = s.latch := rfl
@[simp] theorem State.setPixel_cmd (row px : BitVec 13) (ch : BitVec 2) : (s.setPixel row px ch).cmd = s.cmd := rfl
@[simp] theorem State.setPixel_din (row px : BitVec 13) (ch : BitVec 2) : (s.setPixel row px ch).din = s.din := rfl
@[simp] theorem State.setPixel_dout (row px : BitVec 13) (ch : BitVec 2) : (s.setPixel row px ch).dout = s.dout := rfl
@[simp] theorem State.setPixel_cpl (row px : BitVec 13) (ch : BitVec 2) : (s.setPixel row px ch).cpl = s.cpl := rfl
@[simp] theorem State.setPixel_draws (row px : BitVec 13) (ch : BitVec 2) : (s.setPixel row px ch).draws = s.draws := rfl
@[simp] theorem State.setPixel_seq_idx (row px : BitVec 13) (ch : BitVec 2) : (s.setPixel row px ch).seq.idx = s.seq.idx := rfl
@[simp] theorem State.setPixel_seq_payRem (row px : BitVec 13) (ch : BitVec 2) : (s.setPixel row px ch).seq.payRem = s.seq.payRem := rfl
@[simp] theorem State.setPixel_seq_inRem (row px : BitVec 13) (ch : BitVec 2) : (s.setPixel row px ch).seq.inRem = s.seq.inRem := rfl
@[simp] theorem State.setPixel_seq_blkRem (row px : BitVec 13) (ch : BitVec 2) : (s.setPixel row px ch).seq.blkRem = s.seq.blkRem := rfl
@[simp] theorem State.setPixel_seq_row (row px : BitVec 13) (ch : BitVec 2) : (s.setPixel row px ch).seq.row = row := rfl
@[simp] theorem State.setPixel_seq_px (row px : BitVec 13) (ch : BitVec 2) : (s.setPixel row px ch).seq.px = px := rfl
@[simp] theorem State.setPixel_seq_ch (row px : BitVec 13) (ch : BitVec 2) : (s.setPixel row px ch).seq.ch = ch := rfl
@[simp] theorem State.setPixel_seq_frame (row px : BitVec 13) (ch : BitVec 2) : (s.setPixel row px ch).seq.frame = s.seq.frame := rfl
@[simp] theorem State.setPixel_seq_chk (row px : BitVec 13) (ch : BitVec 2) : (s.setPixel row px ch).seq.chk = s.seq.chk := rfl
@[simp] theorem State.setPixel_seq_sbw (row px : BitVec 13) (ch : BitVec 2) : (s.setPixel row px ch).seq.sbw = s.seq.sbw := rfl

@[simp] theorem State.setFrame_crc (f : Frame) : (s.setFrame f).crc = s.crc := rfl
@[simp] theorem State.setFrame_a (f : Frame) : (s.setFrame f).a = s.a := rfl
@[simp] theorem State.setFrame_b (f : Frame) : (s.setFrame f).b = s.b := rfl
@[simp] theorem State.setFrame_busy (f : Frame) : (s.setFrame f).busy = s.busy := rfl
@[simp] theorem State.setFrame_latch (f : Frame) : (s.setFrame f).latch = s.latch := rfl
@[simp] theorem State.setFrame_cmd (f : Frame) : (s.setFrame f).cmd = s.cmd := rfl
@[simp] theorem State.setFrame_din (f : Frame) : (s.setFrame f).din = s.din := rfl
@[simp] theorem State.setFrame_dout (f : Frame) : (s.setFrame f).dout = s.dout := rfl
@[simp] theorem State.setFrame_cpl (f : Frame) : (s.setFrame f).cpl = s.cpl := rfl
@[simp] theorem State.setFrame_draws (f : Frame) : (s.setFrame f).draws = s.draws := rfl
@[simp] theorem State.setFrame_seq_idx (f : Frame) : (s.setFrame f).seq.idx = s.seq.idx := rfl
@[simp] theorem State.setFrame_seq_payRem (f : Frame) : (s.setFrame f).seq.payRem = s.seq.payRem := rfl
@[simp] theorem State.setFrame_seq_inRem (f : Frame) : (s.setFrame f).seq.inRem = s.seq.inRem := rfl
@[simp] theorem State.setFrame_seq_blkRem (f : Frame) : (s.setFrame f).seq.blkRem = s.seq.blkRem := rfl
@[simp] theorem State.setFrame_seq_row (f : Frame) : (s.setFrame f).seq.row = s.seq.row := rfl
@[simp] theorem State.setFrame_seq_px (f : Frame) : (s.setFrame f).seq.px = s.seq.px := rfl
@[simp] theorem State.setFrame_seq_ch (f : Frame) : (s.setFrame f).seq.ch = s.seq.ch := rfl
@[simp] theorem State.setFrame_seq_frame (f : Frame) : (s.setFrame f).seq.frame = f := rfl
@[simp] theorem State.setFrame_seq_chk (f : Frame) : (s.setFrame f).seq.chk = s.seq.chk := rfl
@[simp] theorem State.setFrame_seq_sbw (f : Frame) : (s.setFrame f).seq.sbw = s.seq.sbw := rfl

@[simp] theorem State.setChk_crc (p : ChkPhase) : (s.setChk p).crc = s.crc := rfl
@[simp] theorem State.setChk_a (p : ChkPhase) : (s.setChk p).a = s.a := rfl
@[simp] theorem State.setChk_b (p : ChkPhase) : (s.setChk p).b = s.b := rfl
@[simp] theorem State.setChk_busy (p : ChkPhase) : (s.setChk p).busy = s.busy := rfl
@[simp] theorem State.setChk_latch (p : ChkPhase) : (s.setChk p).latch = s.latch := rfl
@[simp] theorem State.setChk_cmd (p : ChkPhase) : (s.setChk p).cmd = s.cmd := rfl
@[simp] theorem State.setChk_din (p : ChkPhase) : (s.setChk p).din = s.din := rfl
@[simp] theorem State.setChk_dout (p : ChkPhase) : (s.setChk p).dout = s.dout := rfl
@[simp] theorem State.setChk_cpl (p : ChkPhase) : (s.setChk p).cpl = s.cpl := rfl
@[simp] theorem State.setChk_draws (p : ChkPhase) : (s.setChk p).draws = s.draws := rfl
@[simp] theorem State.setChk_seq_idx (p : ChkPhase) : (s.setChk p).seq.idx = s.seq.idx := rfl
@[simp] theorem State.setChk_seq_payRem (p : ChkPhase) : (s.setChk p).seq.payRem = s.seq.payRem := rfl
@[simp] theorem State.setChk_seq_inRem (p : ChkPhase) : (s.setChk p).seq.inRem = s.seq.inRem := rfl
@[simp] theorem State.setChk_seq_blkRem (p : ChkPhase) : (s.setChk p).seq.blkRem = s.seq.blkRem := rfl
@[simp] theorem State.setChk_seq_row (p : ChkPhase) : (s.setChk p).seq.row = s.seq.row := rfl
@[simp] theorem State.setChk_seq_px (p : ChkPhase) : (s.setChk p).seq.px = s.seq.px := rfl
@[simp] theorem State.setChk_seq_ch (p : ChkPhase) : (s.setChk p).seq.ch = s.seq.ch := rfl
@[simp] theorem State.setChk_seq_frame (p : ChkPhase) : (s.setChk p).seq.frame = s.seq.frame := rfl
@[simp] theorem State.setChk_seq_chk (p : ChkPhase) : (s.setChk p).seq.chk = p := rfl
@[simp] theorem State.setChk_seq_sbw (p : ChkPhase) : (s.setChk p).seq.sbw = s.seq.sbw := rfl

@[simp] theorem State.setSbw_crc (p : SbwPhase) : (s.setSbw p).crc = s.crc := rfl
@[simp] theorem State.setSbw_a (p : SbwPhase) : (s.setSbw p).a = s.a := rfl
@[simp] theorem State.setSbw_b (p : SbwPhase) : (s.setSbw p).b = s.b := rfl
@[simp] theorem State.setSbw_busy (p : SbwPhase) : (s.setSbw p).busy = s.busy := rfl
@[simp] theorem State.setSbw_latch (p : SbwPhase) : (s.setSbw p).latch = s.latch := rfl
@[simp] theorem State.setSbw_cmd (p : SbwPhase) : (s.setSbw p).cmd = s.cmd := rfl
@[simp] theorem State.setSbw_din (p : SbwPhase) : (s.setSbw p).din = s.din := rfl
@[simp] theorem State.setSbw_dout (p : SbwPhase) : (s.setSbw p).dout = s.dout := rfl
@[simp] theorem State.setSbw_cpl (p : SbwPhase) : (s.setSbw p).cpl = s.cpl := rfl
@[simp] theorem State.setSbw_draws (p : SbwPhase) : (s.setSbw p).draws = s.draws := rfl
@[simp] theorem State.setSbw_seq_idx (p : SbwPhase) : (s.setSbw p).seq.idx = s.seq.idx := rfl
@[simp] theorem State.setSbw_seq_payRem (p : SbwPhase) : (s.setSbw p).seq.payRem = s.seq.payRem := rfl
@[simp] theorem State.setSbw_seq_inRem (p : SbwPhase) : (s.setSbw p).seq.inRem = s.seq.inRem := rfl
@[simp] theorem State.setSbw_seq_blkRem (p : SbwPhase) : (s.setSbw p).seq.blkRem = s.seq.blkRem := rfl
@[simp] theorem State.setSbw_seq_row (p : SbwPhase) : (s.setSbw p).seq.row = s.seq.row := rfl
@[simp] theorem State.setSbw_seq_px (p : SbwPhase) : (s.setSbw p).seq.px = s.seq.px := rfl
@[simp] theorem State.setSbw_seq_ch (p : SbwPhase) : (s.setSbw p).seq.ch = s.seq.ch := rfl
@[simp] theorem State.setSbw_seq_frame (p : SbwPhase) : (s.setSbw p).seq.frame = s.seq.frame := rfl
@[simp] theorem State.setSbw_seq_chk (p : SbwPhase) : (s.setSbw p).seq.chk = s.seq.chk := rfl
@[simp] theorem State.setSbw_seq_sbw (p : SbwPhase) : (s.setSbw p).seq.sbw = p := rfl

/-- Two states with the same fields are the same state. -/
theorem State.eq_of_fields {s t : State} (hcrc : s.crc = t.crc) (ha : s.a = t.a) (hb : s.b = t.b)
    (hbusy : s.busy = t.busy) (hlatch : s.latch = t.latch) (hseq : s.seq = t.seq) (hcmd : s.cmd = t.cmd)
    (hdin : s.din = t.din) (hdout : s.dout = t.dout) (hcpl : s.cpl = t.cpl) (hdraws : s.draws = t.draws) : s = t := by
  cases s; cases t; simp_all

/-- An exception is a completion with its status and result 0 (spec/60_exceptions.md R274). -/
theorem State.raise_eq (e : ExceptionCause) : s.raise e = s.complete e.status 0 := rfl

@[simp] theorem Sequencer.zero_idx : Sequencer.zero.idx = 0 := rfl
@[simp] theorem Sequencer.zero_payRem : Sequencer.zero.payRem = 0 := rfl
@[simp] theorem Sequencer.zero_inRem : Sequencer.zero.inRem = 0 := rfl
@[simp] theorem Sequencer.zero_blkRem : Sequencer.zero.blkRem = 0 := rfl
@[simp] theorem Sequencer.zero_row : Sequencer.zero.row = 0 := rfl
@[simp] theorem Sequencer.zero_px : Sequencer.zero.px = 0 := rfl
@[simp] theorem Sequencer.zero_ch : Sequencer.zero.ch = 0 := rfl
@[simp] theorem Sequencer.zero_frame : Sequencer.zero.frame = .atRest := rfl
@[simp] theorem Sequencer.zero_chk : Sequencer.zero.chk = .atRest := rfl
@[simp] theorem Sequencer.zero_sbw : Sequencer.zero.sbw = .atRest := rfl

end Sys2Proof.Machine
end

