-- ==== Sys2Proof/Laws/Draw.lean ====
section
/-! SUPPORT. Drawing a sequence of bytes from a `Source`: how draws compose, which updates a source commutes with, and what
`emitField` and `inPop` draw. -/

namespace Sys2Proof.Machine

/-- `src` gives the bytes `xs` one after another, from state `s`, and leaves state `t`. -/
def Draws (src : Source) : List Byte → State → State → Prop
  | [], s, t => t = s
  | x :: xs, s, t => ∃ u, src s = some (x, u) ∧ Draws src xs u t

theorem Draws.append {src : Source} {xs ys : List Byte} {s u t : State}
    (h1 : Draws src xs s u) (h2 : Draws src ys u t) : Draws src (xs ++ ys) s t := by
  induction xs generalizing s with
  | nil => cases h1; exact h2
  | cons x xs ih =>
    obtain ⟨v, hv, h1⟩ := h1
    exact ⟨v, hv, ih h1⟩

theorem Draws.split {src : Source} {xs ys : List Byte} {s t : State} (h : Draws src (xs ++ ys) s t) :
    ∃ u, Draws src xs s u ∧ Draws src ys u t := by
  induction xs generalizing s with
  | nil => exact ⟨s, rfl, h⟩
  | cons x xs ih =>
    obtain ⟨v, hv, h⟩ := h
    obtain ⟨u, h1, h2⟩ := ih h
    exact ⟨u, ⟨v, hv, h1⟩, h2⟩

/-- The first state may be replaced by one that gives the same first byte. -/
theorem Draws.of_first {src : Source} {xs : List Byte} {s s' t : State} (hne : xs ≠ []) (hs : src s = src s')
    (h : Draws src xs s' t) : Draws src xs s t := by
  cases xs with
  | nil => exact absurd rfl hne
  | cons x xs =>
    obtain ⟨u, hu, h⟩ := h
    exact ⟨u, hs.trans hu, h⟩

/-- `src` neither reads nor writes what `upd` writes. -/
def Commutes (src : Source) (upd : State → State) : Prop :=
  ∀ s, src (upd s) = (src s).map (fun p => (p.1, upd p.2))

theorem Commutes.draws {src : Source} {upd : State → State} (hc : Commutes src upd) {xs : List Byte} {s t : State}
    (h : Draws src xs s t) : Draws src xs (upd s) (upd t) := by
  induction xs generalizing s with
  | nil => cases h; rfl
  | cons x xs ih =>
    obtain ⟨u, hu, h⟩ := h
    exact ⟨upd u, by simp [hc s, hu], ih h⟩

/-- A source that commutes with every write of a part of the state leaves that part as it was. -/
theorem Commutes.keeps {α : Type} {src : Source} {upd : α → State → State} {get : State → α}
    (hc : ∀ v, Commutes src (upd v)) (hself : ∀ s, upd (get s) s = s) (hget : ∀ v s, get (upd v s) = v)
    {s t : State} {x : Byte} (h : src s = some (x, t)) : get t = get s := by
  have h' := hc (get s) s
  rw [hself, h] at h'
  have ht : t = upd (get s) t := by simpa using h'
  rw [ht, hget]

theorem Commutes.keeps_draws {α : Type} {src : Source} {upd : α → State → State} {get : State → α}
    (hc : ∀ v, Commutes src (upd v)) (hself : ∀ s, upd (get s) s = s) (hget : ∀ v s, get (upd v s) = v)
    {xs : List Byte} {s t : State} (h : Draws src xs s t) : get t = get s := by
  induction xs generalizing s with
  | nil => cases h; rfl
  | cons x xs ih =>
    obtain ⟨u, hu, h⟩ := h
    exact (ih h).trans (Commutes.keeps hc hself hget hu)

/-- What an update must be like for every source to commute with it that does not look at what it writes: it leaves `idx`
alone. -/
structure Beside (upd : State → State) : Prop where
  idx : ∀ s, (upd s).seq.idx = s.seq.idx
  setIdx : ∀ v s, (upd s).setIdx v = upd (s.setIdx v)

theorem emitField_commutes {field : List Byte} {done upd : State → State} (hb : Beside upd)
    (hd : ∀ s, done (upd s) = upd (done s)) : Commutes (emitField field done) upd := by
  intro s
  simp only [emitField, hb.idx, hb.setIdx, hd]
  cases field[s.seq.idx.toNat]? with
  | none => rfl
  | some x => by_cases h : s.seq.idx.toNat + 1 = field.length <;> simp [h]

/-- Everything `emitField` can do: it gives the byte at `idx` and counts `idx` up, or ends the field. -/
theorem emitField_eq {field : List Byte} {done : State → State} {s : State} (h : s.seq.idx.toNat < field.length) :
    emitField field done s =
      some (field[s.seq.idx.toNat], if s.seq.idx.toNat + 1 = field.length then done (s.setIdx 0)
        else s.setIdx (s.seq.idx + 1)) := by
  simp only [emitField, List.getElem?_eq_getElem h]
  split <;> rfl

/-- A source that emits a field, from its first byte on, draws the whole field. -/
theorem draws_field {src : Source} {field : List Byte} {done : State → State} {s : State}
    (hne : field ≠ []) (hlen : field.length ≤ 16) (hidx : s.seq.idx = 0)
    (h : ∀ j, j < field.length → src (s.setIdx (BitVec.ofNat 4 j)) =
      emitField field done (s.setIdx (BitVec.ofNat 4 j))) :
    Draws src field s (done s) := by
  have key : ∀ k j, j + k = field.length → 0 < k →
      Draws src (field.drop j) (s.setIdx (BitVec.ofNat 4 j)) (done (s.setIdx 0)) := by
    intro k
    induction k with
    | zero => intro j _ h0; omega
    | succ k ih =>
      intro j hj _
      have hjl : j < field.length := by omega
      have hto : (s.setIdx (BitVec.ofNat 4 j)).seq.idx.toNat = j := by
        simp only [State.setIdx_seq_idx, BitVec.toNat_ofNat]; omega
      have hstep := (h j hjl).trans (emitField_eq (by rw [hto]; exact hjl))
      simp only [hto] at hstep
      rw [List.drop_eq_getElem_cons hjl]
      by_cases hk : k = 0
      · refine ⟨_, hstep, ?_⟩
        have : j + 1 = field.length := by omega
        simp only [this, List.drop_length, if_true]
        rfl
      · refine ⟨_, hstep, ?_⟩
        have : j + 1 ≠ field.length := by omega
        simp only [this, if_false]
        have hnext := ih (j + 1) (by omega) (by omega)
        have heq : (s.setIdx (BitVec.ofNat 4 j)).setIdx ((s.setIdx (BitVec.ofNat 4 j)).seq.idx + 1)
            = s.setIdx (BitVec.ofNat 4 (j + 1)) := by
          simp [State.setIdx, BitVec.ofNat_add]
        rw [heq]; exact hnext
  have hlen0 : 0 < field.length := List.length_pos_iff.mpr hne
  have h0 : s.setIdx 0#4 = s := by
    cases s with | mk crc a b busy latch seq cmd din dout cpl draws =>
    cases seq; simp_all [State.setIdx]
  have := key field.length 0 (by omega) hlen0
  simpa [h0] using this

/-- `DIN` supplies its own bytes in order (spec/20_memory.md R65, R70). -/
theorem draws_inPop (xs rest : List Byte) (s : State) (h : s.din = xs ++ rest) :
    Draws State.inPop xs s { s with din := rest } := by
  induction xs generalizing s with
  | nil => cases s; simp_all [Draws]
  | cons x xs ih =>
    refine ⟨{ s with din := xs ++ rest }, by simp [State.inPop, h], ?_⟩
    exact ih _ rfl

theorem inPop_commutes {upd : State → State} (hdin : ∀ s, (upd s).din = s.din)
    (hset : ∀ s r, { upd s with din := r } = upd { s with din := r }) : Commutes State.inPop upd := by
  intro s
  simp only [State.inPop, hdin]
  cases s.din with
  | nil => rfl
  | cons x r => simp [hset]

end Sys2Proof.Machine
end

