-- ==== Sys2Proof/Laws/StoredBlock.lean ====
section
/-! SUPPORT. What the wrapper's byte steps draw: block headers, block data, whole streams (spec/42_stored_block_wrapper.md
R172, R174, R184). -/

namespace Sys2Proof.Machine

/-! ### The greedy partition -/

theorem blockCount_short {n : Nat} (h : n ≤ 65535) : blockCount n = 1 := by
  simp only [blockCount, Config.blockMax]; omega

theorem blockCount_long {n : Nat} (h : 65535 < n) : blockCount n = blockCount (n - 65535) + 1 := by
  simp only [blockCount, Config.blockMax]; omega

/-- At most 65535 bytes are one final block. -/
theorem storedBlocks_short {raw : List Byte} (h : raw.length ≤ 65535) : storedBlocks raw = storedBlock raw true := by
  have hp : piece raw 0 = raw := by simp [piece, Config.blockMax, List.take_of_length_le h]
  simp [storedBlocks, blockCount_short h, hp]

/-- More than 65535 bytes are one full block, not final, and the blocks of the rest. -/
theorem storedBlocks_long {raw : List Byte} (h : 65535 < raw.length) :
    storedBlocks raw = storedBlock (raw.take 65535) false ++ storedBlocks (raw.drop 65535) := by
  have hlen : (raw.drop 65535).length = raw.length - 65535 := List.length_drop
  have hp0 : piece raw 0 = raw.take 65535 := by simp [piece, Config.blockMax]
  have hp : ∀ k, piece raw (k + 1) = piece (raw.drop 65535) k := by
    intro k
    simp only [piece, Config.blockMax, List.drop_drop]
    congr 2
    omega
  have hpos : 0 < blockCount (raw.length - 65535) := by simp only [blockCount]; omega
  simp only [storedBlocks, hlen, blockCount_long h, List.range_succ_eq_map, List.flatMap_cons, List.flatMap_map, hp0]
  congr 1
  · congr 1
    simp; omega
  · congr 1
    funext k
    simp [hp]

theorem blockHeader_length (f : Bool) (m : Half) : (blockHeader f m).length = 5 := rfl

theorem storedBlock_length (d : List Byte) (f : Bool) : (storedBlock d f).length = 5 + d.length := by
  simp [storedBlock, blockHeader_length]

/-- `5 × nblk + n` bytes (spec/30_encoding.md R95). -/
theorem storedBlocks_length (raw : List Byte) : (storedBlocks raw).length = 5 * blockCount raw.length + raw.length := by
  induction hn : raw.length using Nat.strong_induction_on generalizing raw with
  | _ n ih =>
    by_cases h : n ≤ 65535
    · rw [storedBlocks_short (by omega), storedBlock_length, blockCount_short h]; omega
    · have hl : (raw.drop 65535).length = n - 65535 := by rw [List.length_drop, hn]
      rw [storedBlocks_long (by omega), List.length_append, storedBlock_length, List.length_take,
        ih (n - 65535) (by omega) _ hl, blockCount_long (n := n) (by omega)]
      omega

/-- The stream's length is `zlen` (R172). -/
theorem zwrap_length (raw : List Byte) : (zwrap raw).length = streamLength raw.length := by
  simp [zwrap, storedBlocks_length, streamLength, Config.streamHeader]; omega

/-! ### The byte steps -/

/-- A source of raw bytes for the wrapper: it neither reads nor writes what the wrapper writes. -/
structure RawSource (raw : Source) : Prop where
  adler : ∀ ab, Commutes raw (State.setAdler ab)
  remaining : ∀ n m, Commutes raw (State.setRemaining n m)
  sbw : ∀ p, Commutes raw (State.setSbw p)
  idx : ∀ v, Commutes raw (State.setIdx v)

/-- Everything the wrapper writes while it passes data. -/
def State.setWrap (ab : Half × Half) (n : BitVec 32) (m : BitVec 16) (p : SbwPhase) (s : State) : State :=
  ((s.setAdler ab).setRemaining n m).setSbw p

@[simp] theorem State.setWrap_crc (ab : Half × Half) (n : BitVec 32) (m : BitVec 16) (p : SbwPhase) (s : State) : (s.setWrap ab n m p).crc = s.crc := rfl
@[simp] theorem State.setWrap_a (ab : Half × Half) (n : BitVec 32) (m : BitVec 16) (p : SbwPhase) (s : State) : (s.setWrap ab n m p).a = ab.1 := rfl
@[simp] theorem State.setWrap_b (ab : Half × Half) (n : BitVec 32) (m : BitVec 16) (p : SbwPhase) (s : State) : (s.setWrap ab n m p).b = ab.2 := rfl
@[simp] theorem State.setWrap_busy (ab : Half × Half) (n : BitVec 32) (m : BitVec 16) (p : SbwPhase) (s : State) : (s.setWrap ab n m p).busy = s.busy := rfl
@[simp] theorem State.setWrap_latch (ab : Half × Half) (n : BitVec 32) (m : BitVec 16) (p : SbwPhase) (s : State) : (s.setWrap ab n m p).latch = s.latch := rfl
@[simp] theorem State.setWrap_cmd (ab : Half × Half) (n : BitVec 32) (m : BitVec 16) (p : SbwPhase) (s : State) : (s.setWrap ab n m p).cmd = s.cmd := rfl
@[simp] theorem State.setWrap_din (ab : Half × Half) (n : BitVec 32) (m : BitVec 16) (p : SbwPhase) (s : State) : (s.setWrap ab n m p).din = s.din := rfl
@[simp] theorem State.setWrap_dout (ab : Half × Half) (n : BitVec 32) (m : BitVec 16) (p : SbwPhase) (s : State) : (s.setWrap ab n m p).dout = s.dout := rfl
@[simp] theorem State.setWrap_cpl (ab : Half × Half) (n : BitVec 32) (m : BitVec 16) (p : SbwPhase) (s : State) : (s.setWrap ab n m p).cpl = s.cpl := rfl
@[simp] theorem State.setWrap_draws (ab : Half × Half) (n : BitVec 32) (m : BitVec 16) (p : SbwPhase) (s : State) : (s.setWrap ab n m p).draws = s.draws := rfl
@[simp] theorem State.setWrap_seq_idx (ab : Half × Half) (n : BitVec 32) (m : BitVec 16) (p : SbwPhase) (s : State) : (s.setWrap ab n m p).seq.idx = s.seq.idx := rfl
@[simp] theorem State.setWrap_seq_payRem (ab : Half × Half) (n : BitVec 32) (m : BitVec 16) (p : SbwPhase) (s : State) : (s.setWrap ab n m p).seq.payRem = s.seq.payRem := rfl
@[simp] theorem State.setWrap_seq_inRem (ab : Half × Half) (n : BitVec 32) (m : BitVec 16) (p : SbwPhase) (s : State) : (s.setWrap ab n m p).seq.inRem = n := rfl
@[simp] theorem State.setWrap_seq_blkRem (ab : Half × Half) (n : BitVec 32) (m : BitVec 16) (p : SbwPhase) (s : State) : (s.setWrap ab n m p).seq.blkRem = m := rfl
@[simp] theorem State.setWrap_seq_row (ab : Half × Half) (n : BitVec 32) (m : BitVec 16) (p : SbwPhase) (s : State) : (s.setWrap ab n m p).seq.row = s.seq.row := rfl
@[simp] theorem State.setWrap_seq_px (ab : Half × Half) (n : BitVec 32) (m : BitVec 16) (p : SbwPhase) (s : State) : (s.setWrap ab n m p).seq.px = s.seq.px := rfl
@[simp] theorem State.setWrap_seq_ch (ab : Half × Half) (n : BitVec 32) (m : BitVec 16) (p : SbwPhase) (s : State) : (s.setWrap ab n m p).seq.ch = s.seq.ch := rfl
@[simp] theorem State.setWrap_seq_frame (ab : Half × Half) (n : BitVec 32) (m : BitVec 16) (p : SbwPhase) (s : State) : (s.setWrap ab n m p).seq.frame = s.seq.frame := rfl
@[simp] theorem State.setWrap_seq_chk (ab : Half × Half) (n : BitVec 32) (m : BitVec 16) (p : SbwPhase) (s : State) : (s.setWrap ab n m p).seq.chk = s.seq.chk := rfl
@[simp] theorem State.setWrap_seq_sbw (ab : Half × Half) (n : BitVec 32) (m : BitVec 16) (p : SbwPhase) (s : State) : (s.setWrap ab n m p).seq.sbw = p := rfl

theorem RawSource.wrap {raw : Source} (hr : RawSource raw) (ab : Half × Half) (n : BitVec 32) (m : BitVec 16)
    (p : SbwPhase) : Commutes raw (State.setWrap ab n m p) := by
  intro s
  simp only [State.setWrap, hr.sbw p _, hr.remaining n m _, hr.adler ab s, Option.map_map, Function.comp_def]

theorem RawSource.keeps {raw : Source} (hr : RawSource raw) {s t : State} {x : Byte} (h : raw s = some (x, t)) :
    t.a = s.a ∧ t.b = s.b ∧ t.seq.inRem = s.seq.inRem ∧ t.seq.blkRem = s.seq.blkRem ∧ t.seq.sbw = s.seq.sbw ∧
      t.seq.idx = s.seq.idx := by
  have h1 := Commutes.keeps (get := fun s => (s.a, s.b)) hr.adler (fun _ => rfl) (fun _ _ => rfl) h
  have h2 := Commutes.keeps (upd := fun (v : BitVec 32 × BitVec 16) => State.setRemaining v.1 v.2)
    (get := fun s => (s.seq.inRem, s.seq.blkRem)) (fun v => hr.remaining v.1 v.2) (fun _ => rfl) (fun _ _ => rfl) h
  have h3 := Commutes.keeps (get := fun s => s.seq.sbw) hr.sbw (fun _ => rfl) (fun _ _ => rfl) h
  have h4 := Commutes.keeps (get := fun s => s.seq.idx) hr.idx (fun _ => rfl) (fun _ _ => rfl) h
  simp only [Prod.mk.injEq] at h1 h2
  exact ⟨h1.1, h1.2, h2.1, h2.2, h3, h4⟩

/-- `ZH0`, `ZH1`: the stream header; `a`, `b` and `in_rem` are initialised. -/
theorem draws_streamHeader (n : Word) (raw : Source) (s : State) (hp : s.seq.sbw = .zh) (hi : s.seq.idx = 0) :
    Draws (sbwByte n raw) Config.streamHeader s (s.setWrap adlerStart n s.seq.blkRem .bh) := by
  let s1 := (s.setAdler adlerStart).setRemaining n s.seq.blkRem
  have h1 : sbwByte n raw s = sbwByte n raw s1 := by
    simp [s1, sbwByte, hp, State.atFirst, hi]; rfl
  refine Draws.of_first (by decide) h1 ?_
  refine draws_field (done := State.setSbw .bh) (s := s1) (by decide) (by decide) hi ?_
  intro j hj
  by_cases h0 : (BitVec.ofNat 4 j) = 0
  · simp only [sbwByte, State.setIdx_seq_sbw, State.atFirst, State.setIdx_seq_idx, h0, if_true, s1,
      State.setRemaining_seq_sbw, State.setAdler_seq, hp]
    rfl
  · simp only [sbwByte, State.setIdx_seq_sbw, State.atFirst, State.setIdx_seq_idx, h0, if_false, s1,
      State.setRemaining_seq_sbw, State.setAdler_seq, hp]

theorem finalFlag_eq (n : Word) : finalFlag n = decide (n.toNat ≤ 65535) := rfl

theorem blockLength_toNat (n : Word) : (blockLength n).toNat = min n.toNat 65535 := by
  simp only [blockLength, Config.blockMax, BitVec.toNat_ofNat]; omega

/-- `BH`, `L0`, `L1`, `N0`, `N1`: the block header; `blk_rem` is loaded. -/
theorem draws_blockHeader (n : Word) (raw : Source) (s : State) (hp : s.seq.sbw = .bh) (hi : s.seq.idx = 0) :
    Draws (sbwByte n raw) (blockHeader (finalFlag s.seq.inRem) (blockLength s.seq.inRem)) s
      (s.setWrap (s.a, s.b) s.seq.inRem (blockLength s.seq.inRem)
        (if blockLength s.seq.inRem = 0 then .zt else .bd)) := by
  let s1 := s.setRemaining s.seq.inRem (blockLength s.seq.inRem)
  have h1 : sbwByte n raw s = sbwByte n raw s1 := by
    simp [s1, sbwByte, hp, State.atFirst, hi]; rfl
  refine Draws.of_first (by simp [blockHeader]) h1 ?_
  refine draws_field (done := State.setSbw (if blockLength s.seq.inRem = 0 then .zt else .bd)) (s := s1)
    (by simp [blockHeader]) (by simp [blockHeader_length]) hi ?_
  intro j hj
  by_cases h0 : (BitVec.ofNat 4 j) = 0
  · simp only [sbwByte, State.setIdx_seq_sbw, State.atFirst, State.setIdx_seq_idx, h0, if_true, s1,
      State.setRemaining_seq_sbw, hp]
    rfl
  · simp only [sbwByte, State.setIdx_seq_sbw, State.atFirst, State.setIdx_seq_idx, h0, if_false, s1,
      State.setRemaining_seq_sbw, hp]
    rfl

/-- `BD`: one raw byte drawn, folded into the sums and passed on. -/
theorem sbwByte_bd {n : Word} {raw : Source} {s t : State} {x : Byte} (hp : s.seq.sbw = .bd)
    (h : raw s = some (x, t)) :
    sbwByte n raw s = some (x, t.setWrap (adlerByte (t.a, t.b) x) (t.seq.inRem - 1) (t.seq.blkRem - 1)
      (if t.seq.blkRem - 1 ≠ 0 then .bd else if t.seq.inRem - 1 = 0 then .zt else .bh)) := by
  simp only [sbwByte, hp, h]; rfl

theorem sub_ofNat_toNat {w : Nat} {v : BitVec w} {k : Nat} (h : k ≤ v.toNat) :
    (v - BitVec.ofNat w k).toNat = v.toNat - k := by
  have hv := v.isLt
  have hk : k % 2 ^ w = k := Nat.mod_eq_of_lt (by omega)
  rw [BitVec.toNat_sub, BitVec.toNat_ofNat, hk]
  have : 2 ^ w - k + v.toNat = 2 ^ w + (v.toNat - k) := by omega
  rw [this, Nat.add_mod_left, Nat.mod_eq_of_lt (by omega)]

theorem sub_ofNat_succ {w : Nat} (v : BitVec w) (k : Nat) :
    v - BitVec.ofNat w (k + 1) = v - BitVec.ofNat w 1 - BitVec.ofNat w k := by
  rw [BitVec.ofNat_add, BitVec.add_comm]; exact sub_add_eq_sub_sub _ _ _

/-- The data of a stored block passes through, and the sums run over it: `xs` is all that is left of the block, or only a
part of it. -/
theorem draws_blockData {n : Word} {raw : Source} (hr : RawSource raw) (xs : List Byte) (s t : State)
    (hd : Draws raw xs s t) (hne : xs ≠ []) (hp : s.seq.sbw = .bd) (hblk : xs.length ≤ s.seq.blkRem.toNat)
    (hin : s.seq.blkRem.toNat ≤ s.seq.inRem.toNat) :
    Draws (sbwByte n raw) xs s
      (t.setWrap (adlerRun (s.a, s.b) xs) (s.seq.inRem - BitVec.ofNat 32 xs.length)
        (s.seq.blkRem - BitVec.ofNat 16 xs.length)
        (if s.seq.blkRem.toNat ≠ xs.length then .bd else if s.seq.inRem.toNat = xs.length then .zt else .bh)) := by
  induction xs generalizing s t with
  | nil => exact absurd rfl hne
  | cons x xs ih =>
    obtain ⟨u, hu, hd⟩ := hd
    obtain ⟨ha, hb, hinU, hblkU, hsbwU, -⟩ := hr.keeps hu
    refine ⟨_, sbwByte_bd hp hu, ?_⟩
    rw [ha, hb, hinU, hblkU]
    simp only [List.length_cons] at hblk hin
    have hb1 : (s.seq.blkRem - 1).toNat = s.seq.blkRem.toNat - 1 := sub_ofNat_toNat (k := 1) (by omega)
    have hi1 : (s.seq.inRem - 1).toNat = s.seq.inRem.toNat - 1 := sub_ofNat_toNat (k := 1) (by omega)
    cases xs with
    | nil =>
      cases hd
      have hbz : (s.seq.blkRem - 1 = 0) ↔ s.seq.blkRem.toNat = 1 := by
        rw [← BitVec.toNat_inj, hb1]; simp; omega
      have hiz : (s.seq.inRem - 1 = 0) ↔ s.seq.inRem.toNat = 1 := by
        rw [← BitVec.toNat_inj, hi1]; simp; omega
      simp only [Draws, adlerRun, List.foldl, List.length_cons, List.length_nil, ne_eq, hbz, hiz]
      rfl
    | cons y ys =>
      have hnz : s.seq.blkRem - 1 ≠ 0 := by
        intro h; rw [h] at hb1; simp at hb1 hblk; omega
      have hd' := (hr.wrap (adlerByte (s.a, s.b) x) (s.seq.inRem - 1) (s.seq.blkRem - 1) .bd).draws hd
      have hle : (y :: ys).length ≤ (s.seq.blkRem - 1).toNat := by rw [hb1]; omega
      have hle2 : (s.seq.blkRem - 1).toNat ≤ (s.seq.inRem - 1).toNat := by rw [hi1, hb1]; omega
      have := ih _ _ hd' (by simp) rfl hle hle2
      simp only [hnz, ne_eq, not_false_eq_true, if_true]
      convert this using 1
      have e1 : s.seq.inRem - BitVec.ofNat 32 (x :: y :: ys).length
          = s.seq.inRem - 1 - BitVec.ofNat 32 (y :: ys).length := sub_ofNat_succ _ _
      have e2 : s.seq.blkRem - BitVec.ofNat 16 (x :: y :: ys).length
          = s.seq.blkRem - 1 - BitVec.ofNat 16 (y :: ys).length := sub_ofNat_succ _ _
      have e3 : (s.seq.inRem.toNat = (x :: y :: ys).length) ↔ ((s.seq.inRem - 1).toNat = (y :: ys).length) := by
        rw [hi1]; simp only [List.length_cons] at hblk hin ⊢; omega
      have e4 : (s.seq.blkRem.toNat = (x :: y :: ys).length) ↔ ((s.seq.blkRem - 1).toNat = (y :: ys).length) := by
        rw [hb1]; simp only [List.length_cons] at hblk hin ⊢; omega
      rw [e1, e2]
      simp only [e3, e4]
      rfl

/-- All the stored blocks of `xs`, from the first block header on: the sums run over all of `xs`, and the trailer is
next. -/
theorem draws_storedBlocks {n : Word} {raw : Source} (hr : RawSource raw) (xs : List Byte) (s t : State)
    (hd : Draws raw xs s t) (hp : s.seq.sbw = .bh) (hi : s.seq.idx = 0) (hin : s.seq.inRem.toNat = xs.length) :
    Draws (sbwByte n raw) (storedBlocks xs) s (t.setWrap (adlerRun (s.a, s.b) xs) 0 0 .zt) := by
  induction hn : xs.length using Nat.strong_induction_on generalizing xs s t with
  | _ k ih =>
    have hin0 : s.seq.inRem.toNat < 2 ^ 32 := s.seq.inRem.isLt
    have hh := draws_blockHeader n raw s hp hi
    have hm := blockLength_toNat s.seq.inRem
    by_cases hk : k ≤ 65535
    · rw [storedBlocks_short (by omega), storedBlock]
      have hf : finalFlag s.seq.inRem = true := by simp [finalFlag_eq]; omega
      have hme : blockLength s.seq.inRem = BitVec.ofNat 16 xs.length := by
        apply BitVec.eq_of_toNat_eq; rw [hm, BitVec.toNat_ofNat]; omega
      rw [hf, hme] at hh
      refine hh.append ?_
      cases xs with
      | nil =>
        cases hd
        have hz : s.seq.inRem = 0 := by apply BitVec.eq_of_toNat_eq; rw [hin]; rfl
        simp only [List.length_nil, Draws, hz]
        rfl
      | cons x xs =>
        have hnz : BitVec.ofNat 16 (x :: xs).length ≠ 0 := by
          intro h; have := congrArg BitVec.toNat h; simp at this hn; omega
        simp only [hnz, if_false]
        have hd' := (hr.wrap (s.a, s.b) s.seq.inRem (BitVec.ofNat 16 (x :: xs).length) .bd).draws hd
        have hb1 : (BitVec.ofNat 16 (x :: xs).length).toNat = (x :: xs).length := by
          rw [BitVec.toNat_ofNat]; omega
        have := draws_blockData (n := n) hr _ _ _ hd' (by simp) rfl
          (by simp only [State.setWrap, State.setSbw_seq_blkRem, State.setRemaining_seq_blkRem, hb1]; omega)
          (by simp only [State.setWrap, State.setSbw_seq_inRem, State.setRemaining_seq_inRem, State.setSbw_seq_blkRem,
                State.setRemaining_seq_blkRem, hb1]; omega)
        convert this using 1
        have e1 : s.seq.inRem - BitVec.ofNat 32 (x :: xs).length = 0 := by
          apply BitVec.eq_of_toNat_eq; rw [sub_ofNat_toNat (by omega)]; simp; simp at hin; omega
        simp only [State.setWrap, State.setSbw_seq_inRem, State.setRemaining_seq_inRem, State.setSbw_seq_blkRem,
          State.setRemaining_seq_blkRem, e1, hin, hb1, ne_eq, not_true_eq_false, if_false, if_true, BitVec.sub_self]
        rfl
    · rw [storedBlocks_long (by omega), storedBlock]
      have htake : (xs.take 65535).length = 65535 := by rw [List.length_take]; omega
      have hf : finalFlag s.seq.inRem = false := by simp [finalFlag_eq]; omega
      have hme : blockLength s.seq.inRem = 0xFFFF := by
        apply BitVec.eq_of_toNat_eq; rw [hm]; simp; omega
      rw [hf, hme, if_neg (by decide)] at hh
      rw [htake]
      have hd0 : Draws raw (xs.take 65535 ++ xs.drop 65535) s t := by rw [List.take_append_drop]; exact hd
      obtain ⟨u, hd1, hd2⟩ := hd0.split
      have hd1' := (hr.wrap (s.a, s.b) s.seq.inRem 0xFFFF .bd).draws hd1
      have hdata := draws_blockData (n := n) hr _ _ _ hd1' (by intro h; rw [h] at htake; simp at htake) rfl
        (by rw [htake]; exact Nat.le_refl _)
        (by show 65535 ≤ s.seq.inRem.toNat; omega)
      have hidx : u.seq.idx = 0 := by
        rw [Commutes.keeps_draws (get := fun s => s.seq.idx) hr.idx (fun _ => rfl) (fun _ _ => rfl) hd1]; exact hi
      have hne : s.seq.inRem.toNat ≠ (xs.take 65535).length := by omega
      have hbe : (0xFFFF : Half).toNat = (xs.take 65535).length := htake.symm
      have hbz : (0xFFFF : Half) - BitVec.ofNat 16 (xs.take 65535).length = 0 := by rw [htake]; rfl
      simp only [State.setWrap, State.setSbw_seq_inRem, State.setRemaining_seq_inRem, State.setSbw_seq_blkRem,
        State.setRemaining_seq_blkRem, hbe, hbz, hne, ne_eq, not_true_eq_false, if_false] at hdata
      have hd2' := (hr.wrap (adlerRun (s.a, s.b) (xs.take 65535))
        (s.seq.inRem - BitVec.ofNat 32 (xs.take 65535).length) 0 .bh).draws hd2
      have hrest := ih (k - 65535) (by omega) (xs.drop 65535) _ _ hd2' rfl hidx
        (by simp only [State.setWrap, State.setSbw_seq_inRem, State.setRemaining_seq_inRem, BitVec.toNat_sub,
              BitVec.toNat_ofNat, htake, List.length_drop]; omega)
        (by rw [List.length_drop, hn])
      rw [List.append_assoc]
      refine hh.append (hdata.append ?_)
      convert hrest using 1
      · rfl
      show _ = State.setWrap (adlerRun (adlerRun (s.a, s.b) (xs.take 65535)) (xs.drop 65535)) 0 0 .zt _
      rw [← adlerRun_append, List.take_append_drop]
      rfl

/-- `ZT0..ZT3`: the trailer, and the wrapper is at rest. -/
theorem draws_streamTrailer (n : Word) (raw : Source) (s : State) (hp : s.seq.sbw = .zt) (hi : s.seq.idx = 0) :
    Draws (sbwByte n raw) (be32 (adlerPack s.a s.b)) s (s.setSbw .atRest) := by
  refine draws_field (done := State.setSbw .atRest) (by simp [be32]) (by simp) hi ?_
  intro j _
  simp only [sbwByte, State.setIdx_seq_sbw, hp]
  rfl

/-- The whole stream of `xs` (R172): from `ZH0` with `n` the number of raw bytes, the wrapper gives `zwrap xs` and is at
rest, the sums holding the Adler sums of `xs`. -/
theorem draws_zwrap {n : Word} {raw : Source} (hr : RawSource raw) (xs : List Byte) (s t : State)
    (hd : Draws raw xs s t) (hp : s.seq.sbw = .zh) (hi : s.seq.idx = 0) (hn : n.toNat = xs.length) :
    Draws (sbwByte n raw) (zwrap xs) s (t.setWrap (adlerRun adlerStart xs) 0 0 .atRest) := by
  have h1 := draws_streamHeader n raw s hp hi
  have hd' := (hr.wrap adlerStart n s.seq.blkRem .bh).draws hd
  have h2 := draws_storedBlocks (n := n) hr xs _ _ hd' rfl hi hn
  have hidx : t.seq.idx = 0 := by
    rw [Commutes.keeps_draws (get := fun s => s.seq.idx) hr.idx (fun _ => rfl) (fun _ _ => rfl) hd]; exact hi
  have h3 := draws_streamTrailer n raw (t.setWrap (adlerRun adlerStart xs) 0 0 .zt) rfl hidx
  exact (h1.append h2).append h3

/-- The wrapper commutes with an update its raw source commutes with and that stays clear of what the wrapper uses. -/
theorem sbwByte_commutes {n : Word} {raw : Source} {upd : State → State} (hraw : Commutes raw upd) (hb : Beside upd)
    (hsbw : ∀ s, (upd s).seq.sbw = s.seq.sbw) (hin : ∀ s, (upd s).seq.inRem = s.seq.inRem)
    (hblk : ∀ s, (upd s).seq.blkRem = s.seq.blkRem) (ha : ∀ s, (upd s).a = s.a) (hbb : ∀ s, (upd s).b = s.b)
    (h1 : ∀ ab s, (upd s).setAdler ab = upd (s.setAdler ab))
    (h2 : ∀ n m s, (upd s).setRemaining n m = upd (s.setRemaining n m))
    (h3 : ∀ p s, (upd s).setSbw p = upd (s.setSbw p)) : Commutes (sbwByte n raw) upd := by
  intro s
  simp only [sbwByte, hsbw]
  cases s.seq.sbw with
  | atRest => rfl
  | zh =>
    simp only [State.atFirst, hb.idx, hblk, h1, h2]
    by_cases hi : s.seq.idx = 0
    · simp only [hi, if_true]; exact emitField_commutes hb (h3 _) _
    · simp only [hi, if_false]; exact emitField_commutes hb (h3 _) _
  | bh =>
    simp only [State.atFirst, hb.idx, hin, h2]
    by_cases hi : s.seq.idx = 0
    · simp only [hi, if_true, hin, hblk]; exact emitField_commutes hb (h3 _) _
    · simp only [hi, if_false, hin, hblk]; exact emitField_commutes hb (h3 _) _
  | bd =>
    simp only [hraw s]
    cases raw s with
    | none => rfl
    | some p => simp [h1, h2, h3, hin, hblk, ha, hbb]
  | zt => simp only [ha, hbb]; exact emitField_commutes hb (h3 _) _

end Sys2Proof.Machine
end

