-- ==== Sys2Proof/Laws/Chunk.lean ====
section
/-! SUPPORT. What the serializer's byte steps draw: the length and tag fields, the payload, whole chunks
(spec/44_chunk_serializer.md R222, R230). -/

namespace Sys2Proof.Machine

theorem chunk_length (tag : Word) (p : List Byte) : (chunk tag p).length = 12 + p.length := by
  simp [chunk]; omega

/-- A source of payload bytes for the serializer: it neither reads nor writes what the serializer writes. -/
structure PayloadSource (payload : Source) : Prop where
  crc : ∀ v, Commutes payload (State.setCrc v)
  payRem : ∀ v, Commutes payload (State.setPayRem v)
  chk : ∀ p, Commutes payload (State.setChk p)

/-- Everything the serializer writes while it passes a payload. -/
def State.setSerial (c : Word) (v : BitVec 32) (p : ChkPhase) (s : State) : State :=
  ((s.setCrc c).setPayRem v).setChk p

@[simp] theorem State.setSerial_crc (c : Word) (v : BitVec 32) (p : ChkPhase) (s : State) : (s.setSerial c v p).crc = c := rfl
@[simp] theorem State.setSerial_a (c : Word) (v : BitVec 32) (p : ChkPhase) (s : State) : (s.setSerial c v p).a = s.a := rfl
@[simp] theorem State.setSerial_b (c : Word) (v : BitVec 32) (p : ChkPhase) (s : State) : (s.setSerial c v p).b = s.b := rfl
@[simp] theorem State.setSerial_busy (c : Word) (v : BitVec 32) (p : ChkPhase) (s : State) : (s.setSerial c v p).busy = s.busy := rfl
@[simp] theorem State.setSerial_latch (c : Word) (v : BitVec 32) (p : ChkPhase) (s : State) : (s.setSerial c v p).latch = s.latch := rfl
@[simp] theorem State.setSerial_cmd (c : Word) (v : BitVec 32) (p : ChkPhase) (s : State) : (s.setSerial c v p).cmd = s.cmd := rfl
@[simp] theorem State.setSerial_din (c : Word) (v : BitVec 32) (p : ChkPhase) (s : State) : (s.setSerial c v p).din = s.din := rfl
@[simp] theorem State.setSerial_dout (c : Word) (v : BitVec 32) (p : ChkPhase) (s : State) : (s.setSerial c v p).dout = s.dout := rfl
@[simp] theorem State.setSerial_cpl (c : Word) (v : BitVec 32) (p : ChkPhase) (s : State) : (s.setSerial c v p).cpl = s.cpl := rfl
@[simp] theorem State.setSerial_draws (c : Word) (v : BitVec 32) (p : ChkPhase) (s : State) : (s.setSerial c v p).draws = s.draws := rfl
@[simp] theorem State.setSerial_seq_idx (c : Word) (v : BitVec 32) (p : ChkPhase) (s : State) : (s.setSerial c v p).seq.idx = s.seq.idx := rfl
@[simp] theorem State.setSerial_seq_payRem (c : Word) (v : BitVec 32) (p : ChkPhase) (s : State) : (s.setSerial c v p).seq.payRem = v := rfl
@[simp] theorem State.setSerial_seq_inRem (c : Word) (v : BitVec 32) (p : ChkPhase) (s : State) : (s.setSerial c v p).seq.inRem = s.seq.inRem := rfl
@[simp] theorem State.setSerial_seq_blkRem (c : Word) (v : BitVec 32) (p : ChkPhase) (s : State) : (s.setSerial c v p).seq.blkRem = s.seq.blkRem := rfl
@[simp] theorem State.setSerial_seq_row (c : Word) (v : BitVec 32) (p : ChkPhase) (s : State) : (s.setSerial c v p).seq.row = s.seq.row := rfl
@[simp] theorem State.setSerial_seq_px (c : Word) (v : BitVec 32) (p : ChkPhase) (s : State) : (s.setSerial c v p).seq.px = s.seq.px := rfl
@[simp] theorem State.setSerial_seq_ch (c : Word) (v : BitVec 32) (p : ChkPhase) (s : State) : (s.setSerial c v p).seq.ch = s.seq.ch := rfl
@[simp] theorem State.setSerial_seq_frame (c : Word) (v : BitVec 32) (p : ChkPhase) (s : State) : (s.setSerial c v p).seq.frame = s.seq.frame := rfl
@[simp] theorem State.setSerial_seq_chk (c : Word) (v : BitVec 32) (p : ChkPhase) (s : State) : (s.setSerial c v p).seq.chk = p := rfl
@[simp] theorem State.setSerial_seq_sbw (c : Word) (v : BitVec 32) (p : ChkPhase) (s : State) : (s.setSerial c v p).seq.sbw = s.seq.sbw := rfl

theorem PayloadSource.serial {payload : Source} (hp : PayloadSource payload) (c : Word) (v : BitVec 32) (p : ChkPhase) :
    Commutes payload (State.setSerial c v p) := by
  intro s
  simp only [State.setSerial, hp.chk p _, hp.payRem v _, hp.crc c s, Option.map_map, Function.comp_def]

theorem PayloadSource.keeps {payload : Source} (hp : PayloadSource payload) {s t : State} {x : Byte}
    (h : payload s = some (x, t)) : t.crc = s.crc ∧ t.seq.payRem = s.seq.payRem ∧ t.seq.chk = s.seq.chk :=
  ⟨Commutes.keeps (get := fun s => s.crc) hp.crc (fun _ => rfl) (fun _ _ => rfl) h,
    Commutes.keeps (get := fun s => s.seq.payRem) hp.payRem (fun _ => rfl) (fun _ _ => rfl) h,
    Commutes.keeps (get := fun s => s.seq.chk) hp.chk (fun _ => rfl) (fun _ _ => rfl) h⟩

/-- `CL0..CL3`: the length field, not folded into `crc`; `crc` and `pay_rem` are initialised. -/
theorem draws_chunkLength (tag len : Word) (payload : Source) (s : State) (hp : s.seq.chk = .cl)
    (hi : s.seq.idx = 0) :
    Draws (chkByte tag len payload) (be32 len) s (s.setSerial Config.crcStart len .ct) := by
  let s1 := (s.setCrc Config.crcStart).setPayRem len
  have h1 : chkByte tag len payload s = chkByte tag len payload s1 := by
    simp only [s1, chkByte, State.setPayRem_seq_chk, State.setCrc_seq, hp, State.atFirst, hi, State.setPayRem_seq_idx,
      if_true]
    rfl
  refine Draws.of_first (by simp [be32]) h1 ?_
  refine draws_field (done := State.setChk .ct) (s := s1) (by simp [be32]) (by simp) hi ?_
  intro j _
  by_cases h0 : (BitVec.ofNat 4 j) = 0
  · simp only [chkByte, State.setIdx_seq_chk, State.atFirst, State.setIdx_seq_idx, h0, if_true, s1,
      State.setPayRem_seq_chk, State.setCrc_seq, hp]
    rfl
  · simp only [chkByte, State.setIdx_seq_chk, State.atFirst, State.setIdx_seq_idx, h0, if_false, s1,
      State.setPayRem_seq_chk, State.setCrc_seq, hp]

/-- A source that emits a field and folds every byte of it into `crc`. -/
theorem draws_foldedField {field : List Byte} {done : State → State} (s : State)
    (hne : field ≠ []) (hlen : field.length ≤ 16) (hi : s.seq.idx = 0)
    (hd : ∀ v u, (done u).setCrc v = done (u.setCrc v)) (hdc : ∀ u, (done u).crc = u.crc) (src : Source)
    (h : ∀ j c, j < field.length → src ((s.setCrc c).setIdx (BitVec.ofNat 4 j)) =
      (emitField field done ((s.setCrc c).setIdx (BitVec.ofNat 4 j))).map foldCrc) :
    Draws src field s (done (s.setCrc (crcRun s.crc field))) := by
  have key : ∀ k j c, j + k = field.length → 0 < k →
      Draws src (field.drop j) ((s.setCrc c).setIdx (BitVec.ofNat 4 j))
        (done ((s.setCrc (crcRun c (field.drop j))).setIdx 0)) := by
    intro k
    induction k with
    | zero => intro j c _ h0; omega
    | succ k ih =>
      intro j c hj _
      have hjl : j < field.length := by omega
      have hto : ((s.setCrc c).setIdx (BitVec.ofNat 4 j)).seq.idx.toNat = j := by
        simp only [State.setIdx_seq_idx, BitVec.toNat_ofNat]; omega
      have hstep := h j c hjl
      rw [emitField_eq (by rw [hto]; exact hjl)] at hstep
      simp only [hto, Option.map_some, foldCrc] at hstep
      rw [List.drop_eq_getElem_cons hjl, crcRun_cons]
      refine ⟨_, hstep, ?_⟩
      by_cases hk : k = 0
      · have : j + 1 = field.length := by omega
        simp only [this, List.drop_length, if_true, hd, hdc]
        rfl
      · have : j + 1 ≠ field.length := by omega
        simp only [this, if_false]
        have hnext := ih (j + 1) (crcByte c field[j]) (by omega) (by omega)
        have heq : (((s.setCrc c).setIdx (BitVec.ofNat 4 j)).setIdx
              (((s.setCrc c).setIdx (BitVec.ofNat 4 j)).seq.idx + 1)).setCrc
              (crcByte (((s.setCrc c).setIdx (BitVec.ofNat 4 j)).setIdx
                (((s.setCrc c).setIdx (BitVec.ofNat 4 j)).seq.idx + 1)).crc field[j])
            = (s.setCrc (crcByte c field[j])).setIdx (BitVec.ofNat 4 (j + 1)) := by
          simp [State.setIdx, State.setCrc, BitVec.ofNat_add]
        rw [heq]; exact hnext
  have hlen0 : 0 < field.length := List.length_pos_iff.mpr hne
  have h0 : ∀ c, (s.setCrc c).setIdx 0#4 = s.setCrc c := by
    intro c
    cases s with | mk crc a b busy latch seq cmd din dout cpl draws =>
    cases seq; simp_all [State.setIdx, State.setCrc]
  have h00 : s.setIdx 0#4 = s := h0 s.crc
  have hs : s.setCrc s.crc = s := rfl
  have := key field.length 0 s.crc (by omega) hlen0
  simpa [h0, h00, hs] using this

/-- `CT0..CT3`: the tag, folded into `crc`. -/
theorem draws_chunkTag (tag len : Word) (payload : Source) (s : State) (hp : s.seq.chk = .ct) (hi : s.seq.idx = 0) :
    Draws (chkByte tag len payload) (be32 tag) s
      (s.setSerial (crcRun s.crc (be32 tag)) s.seq.payRem (if s.seq.payRem = 0 then .cc else .cp)) := by
  refine draws_foldedField (done := State.setChk (if s.seq.payRem = 0 then .cc else .cp)) s (by simp [be32]) (by simp) hi
    (fun _ _ => rfl) (fun _ => rfl) _ ?_
  intro j c _
  simp only [chkByte, State.setIdx_seq_chk, State.setCrc_seq, hp]
  rfl

/-- `CP`: one payload byte drawn, folded into `crc` and passed on. -/
theorem chkByte_cp {tag len : Word} {payload : Source} {s t : State} {x : Byte} (hp : s.seq.chk = .cp)
    (h : payload s = some (x, t)) :
    chkByte tag len payload s = some (x, t.setSerial (crcByte t.crc x) (t.seq.payRem - 1)
      (if t.seq.payRem - 1 = 0 then .cc else .cp)) := by
  simp only [chkByte, hp, h]; rfl

/-- Payload bytes pass through, and `crc` runs over them: `xs` is all that is left of the payload, or only a part. -/
theorem draws_payload {tag len : Word} {payload : Source} (hpay : PayloadSource payload) (xs : List Byte) (s t : State)
    (hd : Draws payload xs s t) (hne : xs ≠ []) (hp : s.seq.chk = .cp) (hrem : xs.length ≤ s.seq.payRem.toNat) :
    Draws (chkByte tag len payload) xs s
      (t.setSerial (crcRun s.crc xs) (s.seq.payRem - BitVec.ofNat 32 xs.length)
        (if s.seq.payRem.toNat = xs.length then .cc else .cp)) := by
  induction xs generalizing s t with
  | nil => exact absurd rfl hne
  | cons x xs ih =>
    obtain ⟨u, hu, hd⟩ := hd
    obtain ⟨hc, hr, -⟩ := hpay.keeps hu
    refine ⟨_, chkByte_cp hp hu, ?_⟩
    rw [hc, hr]
    simp only [List.length_cons] at hrem
    have hr1 : (s.seq.payRem - 1).toNat = s.seq.payRem.toNat - 1 := sub_ofNat_toNat (k := 1) (by omega)
    cases xs with
    | nil =>
      cases hd
      have hz : (s.seq.payRem - 1 = 0) ↔ s.seq.payRem.toNat = 1 := by
        rw [← BitVec.toNat_inj, hr1]; simp; omega
      simp only [Draws, crcRun, List.foldl, List.length_cons, List.length_nil, hz]
      rfl
    | cons y ys =>
      have hnz : s.seq.payRem - 1 ≠ 0 := by
        intro h; rw [h] at hr1; simp at hr1 hrem; omega
      have hd' := (hpay.serial (crcByte s.crc x) (s.seq.payRem - 1) .cp).draws hd
      have hle : (y :: ys).length ≤ (s.seq.payRem - 1).toNat := by rw [hr1]; omega
      have := ih _ _ hd' (by simp) rfl hle
      simp only [hnz, if_false]
      convert this using 1
      have e1 : s.seq.payRem - BitVec.ofNat 32 (x :: y :: ys).length
          = s.seq.payRem - 1 - BitVec.ofNat 32 (y :: ys).length := sub_ofNat_succ _ _
      have e2 : (s.seq.payRem.toNat = (x :: y :: ys).length) ↔ ((s.seq.payRem - 1).toNat = (y :: ys).length) := by
        rw [hr1]; simp only [List.length_cons] at hrem ⊢; omega
      rw [e1]
      simp only [e2]
      rfl

/-- `CC0..CC3`: the checksum, and the serializer is at rest. -/
theorem draws_chunkChecksum (tag len : Word) (payload : Source) (s : State) (hp : s.seq.chk = .cc)
    (hi : s.seq.idx = 0) :
    Draws (chkByte tag len payload) (be32 (crcChecksum s.crc)) s (s.setChk .atRest) := by
  refine draws_field (done := State.setChk .atRest) (by simp [be32]) (by simp) hi ?_
  intro j _
  simp only [chkByte, State.setIdx_seq_chk, hp]
  rfl

/-- The whole chunk around payload `p` (R222): from `CL0` with `len` the payload's length, the serializer gives
`chunk tag p` and is at rest, `crc` holding the remainder over tag and payload. -/
theorem draws_chunk {tag len : Word} {payload : Source} (hpay : PayloadSource payload) (p : List Byte) (s t : State)
    (hd : Draws payload p s t) (hp : s.seq.chk = .cl) (hi : s.seq.idx = 0) (hit : t.seq.idx = 0)
    (hlen : len.toNat = p.length) :
    Draws (chkByte tag len payload) (chunk tag p) s
      (t.setSerial (crcRun Config.crcStart (be32 tag ++ p)) 0 .atRest) := by
  have h1 := draws_chunkLength tag len payload s hp hi
  have h2 := draws_chunkTag tag len payload (s.setSerial Config.crcStart len .ct) rfl hi
  have hlenEq : BitVec.ofNat 32 p.length = len := by
    apply BitVec.eq_of_toNat_eq; rw [BitVec.toNat_ofNat, ← hlen, Nat.mod_eq_of_lt len.isLt]
  have h12 := h1.append h2
  simp only [chunk, hlenEq]
  cases p with
  | nil =>
    cases hd
    have hz : len = 0 := by apply BitVec.eq_of_toNat_eq; rw [hlen]; rfl
    subst hz
    rw [List.append_nil]
    have h3 := draws_chunkChecksum tag 0 payload (s.setSerial (crcRun Config.crcStart (be32 tag)) 0 .cc) rfl hi
    rw [State.setSerial_crc] at h3
    rw [State.setSerial_seq_payRem, if_pos rfl, State.setSerial_crc] at h12
    rw [List.append_nil, crc32]
    exact h12.append h3
  | cons x xs =>
    have hnz : len ≠ 0 := by intro h; rw [h] at hlen; simp at hlen
    have hd' := (hpay.serial (crcRun Config.crcStart (be32 tag)) len .cp).draws hd
    have h3 := draws_payload (tag := tag) (len := len) hpay _ _ _ hd' (by simp) rfl
      (by rw [State.setSerial_seq_payRem]; exact Nat.le_of_eq hlen.symm)
    have hchk : (State.setSerial (crcRun Config.crcStart (be32 tag)) len ChkPhase.cp s).seq.payRem = len := rfl
    simp only [hchk, hlen, if_true] at h3
    have hrz : len - BitVec.ofNat 32 (x :: xs).length = 0 := by rw [hlenEq]; exact BitVec.sub_self len
    rw [hrz] at h3
    have h12' : Draws (chkByte tag len payload) (be32 len ++ be32 tag) s
        (s.setSerial (crcRun Config.crcStart (be32 tag)) len .cp) := by
      have hpr : (State.setSerial Config.crcStart len ChkPhase.ct s).seq.payRem = len := rfl
      rw [hpr, if_neg hnz] at h12
      exact h12
    have h123 := h12'.append h3
    have hsum : crcRun Config.crcStart (be32 tag ++ x :: xs)
        = crcRun (State.setSerial (crcRun Config.crcStart (be32 tag)) len ChkPhase.cp s).crc (x :: xs) := by
      rw [crcRun_append]; rfl
    have h4 := draws_chunkChecksum tag len payload
      (t.setSerial (crcRun Config.crcStart (be32 tag ++ x :: xs)) 0 .cc) rfl hit
    rw [hsum] at h4 ⊢
    have := h123.append h4
    simp only [crc32, hsum]
    exact this

/-- The serializer commutes with an update its payload source commutes with and that stays clear of what the serializer
uses. -/
theorem chkByte_commutes {tag len : Word} {payload : Source} {upd : State → State} (hpay : Commutes payload upd)
    (hb : Beside upd) (hchk : ∀ s, (upd s).seq.chk = s.seq.chk) (hrem : ∀ s, (upd s).seq.payRem = s.seq.payRem)
    (hcrc : ∀ s, (upd s).crc = s.crc) (h1 : ∀ v s, (upd s).setCrc v = upd (s.setCrc v))
    (h2 : ∀ v s, (upd s).setPayRem v = upd (s.setPayRem v)) (h3 : ∀ p s, (upd s).setChk p = upd (s.setChk p)) :
    Commutes (chkByte tag len payload) upd := by
  intro s
  simp only [chkByte, hchk]
  cases s.seq.chk with
  | atRest => rfl
  | cl =>
    simp only [State.atFirst, hb.idx, h1, h2]
    by_cases hi : s.seq.idx = 0
    · simp only [hi, if_true]; exact emitField_commutes hb (h3 _) _
    · simp only [hi, if_false]; exact emitField_commutes hb (h3 _) _
  | ct =>
    simp only [hrem, emitField_commutes hb (h3 _) s, Option.map_map]
    congr 1
    funext p
    obtain ⟨x, u⟩ := p
    simp only [Function.comp_def, foldCrc, hcrc, h1]
  | cp =>
    simp only [hpay s]
    cases payload s with
    | none => rfl
    | some p => simp [foldCrc, h1, h2, h3, hrem, hcrc]
  | cc => simp only [hcrc]; exact emitField_commutes hb (h3 _) _

end Sys2Proof.Machine
end

