-- ==== Sys2Proof/Laws/Scanline.lean ====
section
/-! SUPPORT. What the generator's byte steps draw: rows and the whole raster (spec/43_scanline_generator.md R202, R208). -/

namespace Sys2Proof.Machine

theorem rep_succ (k : Nat) (s : List Byte) : rep (k + 1) s = s ++ rep k s := by
  simp [rep, List.replicate_succ]

theorem rep_length (k : Nat) (s : List Byte) : (rep k s).length = k * s.length := by
  simp [rep]

theorem rowBytes_length (w : Nat) (r g b : Byte) : (rowBytes w r g b).length = 1 + 3 * w := by
  simp [rowBytes, rep_length]; omega

theorem raster_length (w h : Nat) (r g b : Byte) : (raster w h r g b).length = rasterLength w h := by
  rw [raster, rep_length, rowBytes_length, rasterLength]

/-- The start of a row gives the filter byte. -/
theorem slgByte_filter {width : Word} {r g b : Byte} {s : State} (hrow : s.seq.row ≠ 0) (hpx : s.seq.px = 0) :
    slgByte width r g b s = some (Config.filterNone, s.setPixel s.seq.row (width.setWidth 13) 0) := by
  simp only [slgByte, hrow, hpx, if_true, if_false]

theorem slgByte_red {width : Word} {r g b : Byte} {s : State} (hrow : s.seq.row ≠ 0) (hpx : s.seq.px ≠ 0)
    (hch : s.seq.ch = 0) : slgByte width r g b s = some (r, s.setPixel s.seq.row s.seq.px 1) := by
  simp only [slgByte, hrow, hpx, hch, if_true, if_false]

theorem slgByte_green {width : Word} {r g b : Byte} {s : State} (hrow : s.seq.row ≠ 0) (hpx : s.seq.px ≠ 0)
    (hch : s.seq.ch = 1) : slgByte width r g b s = some (g, s.setPixel s.seq.row s.seq.px 2) := by
  simp only [slgByte, hrow, hpx, hch, if_true, if_false]
  rfl

theorem slgByte_blue {width : Word} {r g b : Byte} {s : State} (hrow : s.seq.row ≠ 0) (hpx : s.seq.px ≠ 0)
    (hch : s.seq.ch = 2) : slgByte width r g b s =
      some (b, s.setPixel (if s.seq.px = 1 then s.seq.row - 1 else s.seq.row) (s.seq.px - 1) 0) := by
  simp only [slgByte, hrow, hpx, hch, if_true, if_false]
  rfl

theorem ofNat13_succ_ne_zero {j : Nat} (hj : j + 1 < 8192) : BitVec.ofNat 13 (j + 1) ≠ 0 := by
  intro h
  have := congrArg BitVec.toNat h
  simp at this
  omega

theorem ofNat13_succ_sub_one (j : Nat) : BitVec.ofNat 13 (j + 1) - 1 = BitVec.ofNat 13 j := by
  rw [BitVec.ofNat_add]; exact BitVec.add_sub_cancel _ _

/-- The pixels of a row: `k + 1` of them from the middle of row `j + 1`, then the next row is at its start. -/
theorem draws_pixels (width : Word) (r g b : Byte) (j : Nat) (hj : j + 1 < 8192) (k : Nat) (hk : k + 1 < 8192)
    (s : State) :
    Draws (slgByte width r g b) (rep (k + 1) [r, g, b])
      (s.setPixel (BitVec.ofNat 13 (j + 1)) (BitVec.ofNat 13 (k + 1)) 0)
      (s.setPixel (BitVec.ofNat 13 j) 0 0) := by
  have hrow := ofNat13_succ_ne_zero hj
  induction k with
  | zero =>
    refine ⟨_, slgByte_red hrow (ofNat13_succ_ne_zero hk) rfl, _, slgByte_green hrow (ofNat13_succ_ne_zero hk) rfl, _,
      slgByte_blue hrow (ofNat13_succ_ne_zero hk) rfl, ?_⟩
    simp only [State.setPixel_seq_px, State.setPixel_seq_row, ofNat13_succ_sub_one]
    rfl
  | succ k ih =>
    have hpx := ofNat13_succ_ne_zero hk
    have hpx1 : BitVec.ofNat 13 (k + 1 + 1) ≠ 1 := by
      intro h
      have := congrArg BitVec.toNat h
      simp at this
      omega
    rw [rep_succ]
    refine ⟨_, slgByte_red hrow hpx rfl, _, slgByte_green hrow hpx rfl, _, slgByte_blue hrow hpx rfl, ?_⟩
    simp only [State.setPixel_seq_px, State.setPixel_seq_row, ofNat13_succ_sub_one, hpx1, if_false]
    exact ih (by omega)

/-- One whole row, from its start. -/
theorem draws_row (width : Word) (r g b : Byte) (hw1 : 1 ≤ width.toNat) (hw2 : width.toNat ≤ 4096) (j : Nat)
    (hj : j + 1 < 8192) (s : State) :
    Draws (slgByte width r g b) (rowBytes width.toNat r g b) (s.setPixel (BitVec.ofNat 13 (j + 1)) 0 0)
      (s.setPixel (BitVec.ofNat 13 j) 0 0) := by
  have hwidth : width.setWidth 13 = BitVec.ofNat 13 (width.toNat - 1 + 1) := by
    apply BitVec.eq_of_toNat_eq; simp; omega
  have hrep : width.toNat = width.toNat - 1 + 1 := by omega
  refine ⟨_, slgByte_filter (ofNat13_succ_ne_zero hj) rfl, ?_⟩
  rw [hwidth, hrep]
  exact draws_pixels width r g b j hj (width.toNat - 1) (by omega) s

/-- The whole raster: `h` rows from the start of the first (R202). -/
theorem draws_raster (width : Word) (r g b : Byte) (hw1 : 1 ≤ width.toNat) (hw2 : width.toNat ≤ 4096) (h : Nat)
    (hh : h < 8192) (s : State) :
    Draws (slgByte width r g b) (raster width.toNat h r g b) (s.setPixel (BitVec.ofNat 13 h) 0 0)
      (s.setPixel 0 0 0) := by
  induction h with
  | zero => simp [raster, rep, Draws]
  | succ h ih =>
    rw [raster, rep_succ]
    exact (draws_row width r g b hw1 hw2 h hh s).append (ih (by omega))

/-- The generator looks at `row`, `px` and `ch` only. -/
theorem slgByte_commutes {width : Word} {r g b : Byte} {upd : State → State}
    (hrow : ∀ s, (upd s).seq.row = s.seq.row) (hpx : ∀ s, (upd s).seq.px = s.seq.px)
    (hch : ∀ s, (upd s).seq.ch = s.seq.ch) (hset : ∀ s i j k, (upd s).setPixel i j k = upd (s.setPixel i j k)) :
    Commutes (slgByte width r g b) upd := by
  intro s
  simp only [slgByte, hrow, hpx, hch, hset]
  repeat' split
  all_goals rfl

end Sys2Proof.Machine
end

