-- ==== Sys2Proof/Laws/Sequencer.lean ====
section
/-! SUPPORT. What the sequencer's frames draw, and how byte steps add up: every operation's frame as the bytes drawn from
its start (spec/10_state.md R27, spec/45_file_encoder.md R246, R256). -/

namespace Sys2Proof.Machine

/-! ### Updates the units do not see -/

/-- An update of the outer sequencer: it commutes with every write of a unit and leaves alone all that a unit reads. -/
structure Outer (upd : State → State) : Prop where
  idx : ∀ s, (upd s).seq.idx = s.seq.idx := by intro s; rfl
  payRem : ∀ s, (upd s).seq.payRem = s.seq.payRem := by intro s; rfl
  inRem : ∀ s, (upd s).seq.inRem = s.seq.inRem := by intro s; rfl
  blkRem : ∀ s, (upd s).seq.blkRem = s.seq.blkRem := by intro s; rfl
  row : ∀ s, (upd s).seq.row = s.seq.row := by intro s; rfl
  px : ∀ s, (upd s).seq.px = s.seq.px := by intro s; rfl
  ch : ∀ s, (upd s).seq.ch = s.seq.ch := by intro s; rfl
  chk : ∀ s, (upd s).seq.chk = s.seq.chk := by intro s; rfl
  sbw : ∀ s, (upd s).seq.sbw = s.seq.sbw := by intro s; rfl
  crc : ∀ s, (upd s).crc = s.crc := by intro s; rfl
  a : ∀ s, (upd s).a = s.a := by intro s; rfl
  b : ∀ s, (upd s).b = s.b := by intro s; rfl
  din : ∀ s, (upd s).din = s.din := by intro s; rfl
  setIdx : ∀ v s, (upd s).setIdx v = upd (s.setIdx v) := by intro v s; rfl
  setPayRem : ∀ v s, (upd s).setPayRem v = upd (s.setPayRem v) := by intro v s; rfl
  setRemaining : ∀ n m s, (upd s).setRemaining n m = upd (s.setRemaining n m) := by intro n m s; rfl
  setPixel : ∀ s i j k, (upd s).setPixel i j k = upd (s.setPixel i j k) := by intro s i j k; rfl
  setChk : ∀ p s, (upd s).setChk p = upd (s.setChk p) := by intro p s; rfl
  setSbw : ∀ p s, (upd s).setSbw p = upd (s.setSbw p) := by intro p s; rfl
  setCrc : ∀ v s, (upd s).setCrc v = upd (s.setCrc v) := by intro v s; rfl
  setAdler : ∀ ab s, (upd s).setAdler ab = upd (s.setAdler ab) := by intro ab s; rfl
  setDin : ∀ s r, { upd s with din := r } = upd { s with din := r } := by intro s r; rfl

theorem Outer.beside {upd : State → State} (h : Outer upd) : Beside upd := ⟨h.idx, h.setIdx⟩

/-- The bytes `ys` pushed on `DOUT`, in order. -/
def State.emit (ys : List Byte) (s : State) : State := { s with dout := s.dout ++ ys }

theorem State.emit_emit (xs ys : List Byte) (s : State) : (s.emit xs).emit ys = s.emit (xs ++ ys) := by
  simp [State.emit]

theorem State.outPush_eq_emit (x : Byte) (s : State) : s.outPush x = s.emit [x] := rfl

/-- The latch is written. -/
def State.setLatch (l : Latch) (s : State) : State := { s with latch := l }

theorem outer_emit (ys : List Byte) : Outer (State.emit ys) := {}

theorem outer_setLatch (l : Latch) : Outer (State.setLatch l) := {}

theorem outer_setFrame (f : Frame) : Outer (State.setFrame f) := {}

theorem Outer.inPop {upd : State → State} (h : Outer upd) : Commutes State.inPop upd := inPop_commutes h.din h.setDin

theorem Outer.slgByte {upd : State → State} (h : Outer upd) (w : Word) (r g b : Byte) :
    Commutes (slgByte w r g b) upd := slgByte_commutes h.row h.px h.ch h.setPixel

theorem Outer.sbwByte {upd : State → State} (h : Outer upd) (n : Word) {raw : Source} (hraw : Commutes raw upd) :
    Commutes (sbwByte n raw) upd :=
  sbwByte_commutes hraw h.beside h.sbw h.inRem h.blkRem h.a h.b h.setAdler h.setRemaining h.setSbw

theorem Outer.chkByte {upd : State → State} (h : Outer upd) (tag len : Word) {payload : Source}
    (hpay : Commutes payload upd) : Commutes (chkByte tag len payload) upd :=
  chkByte_commutes hpay h.beside h.chk h.payRem h.crc h.setCrc h.setPayRem h.setChk

theorem Outer.headerSource {upd : State → State} (h : Outer upd) (w ht : Word) : Commutes (headerSource w ht) upd :=
  emitField_commutes h.beside (fun _ => rfl)

theorem Outer.dataSource {upd : State → State} (h : Outer upd) (w ht : Word) (r g b : Byte) :
    Commutes (dataSource w ht r g b) upd := h.sbwByte _ (h.slgByte w r g b)

theorem commutes_noSource (upd : State → State) : Commutes noSource upd := fun _ => rfl

/-! ### The sources the units draw from -/

theorem inPop_rawSource : RawSource State.inPop where
  adler _ := inPop_commutes (fun _ => rfl) (fun _ _ => rfl)
  remaining _ _ := inPop_commutes (fun _ => rfl) (fun _ _ => rfl)
  sbw _ := inPop_commutes (fun _ => rfl) (fun _ _ => rfl)
  idx _ := inPop_commutes (fun _ => rfl) (fun _ _ => rfl)

theorem inPop_payloadSource : PayloadSource State.inPop where
  crc _ := inPop_commutes (fun _ => rfl) (fun _ _ => rfl)
  payRem _ := inPop_commutes (fun _ => rfl) (fun _ _ => rfl)
  chk _ := inPop_commutes (fun _ => rfl) (fun _ _ => rfl)

theorem slgByte_rawSource (w : Word) (r g b : Byte) : RawSource (slgByte w r g b) where
  adler _ := slgByte_commutes (fun _ => rfl) (fun _ => rfl) (fun _ => rfl) (fun _ _ _ _ => rfl)
  remaining _ _ := slgByte_commutes (fun _ => rfl) (fun _ => rfl) (fun _ => rfl) (fun _ _ _ _ => rfl)
  sbw _ := slgByte_commutes (fun _ => rfl) (fun _ => rfl) (fun _ => rfl) (fun _ _ _ _ => rfl)
  idx _ := slgByte_commutes (fun _ => rfl) (fun _ => rfl) (fun _ => rfl) (fun _ _ _ _ => rfl)

theorem slgByte_payloadSource (w : Word) (r g b : Byte) : PayloadSource (slgByte w r g b) where
  crc _ := slgByte_commutes (fun _ => rfl) (fun _ => rfl) (fun _ => rfl) (fun _ _ _ _ => rfl)
  payRem _ := slgByte_commutes (fun _ => rfl) (fun _ => rfl) (fun _ => rfl) (fun _ _ _ _ => rfl)
  chk _ := slgByte_commutes (fun _ => rfl) (fun _ => rfl) (fun _ => rfl) (fun _ _ _ _ => rfl)

theorem sbwByte_payloadSource (n : Word) {raw : Source} (hr : PayloadSource raw) : PayloadSource (sbwByte n raw) where
  crc v := sbwByte_commutes (hr.crc v) ⟨fun _ => rfl, fun _ _ => rfl⟩ (fun _ => rfl) (fun _ => rfl) (fun _ => rfl)
    (fun _ => rfl) (fun _ => rfl) (fun _ _ => rfl) (fun _ _ _ => rfl) (fun _ _ => rfl)
  payRem v := sbwByte_commutes (hr.payRem v) ⟨fun _ => rfl, fun _ _ => rfl⟩ (fun _ => rfl) (fun _ => rfl) (fun _ => rfl)
    (fun _ => rfl) (fun _ => rfl) (fun _ _ => rfl) (fun _ _ _ => rfl) (fun _ _ => rfl)
  chk p := sbwByte_commutes (hr.chk p) ⟨fun _ => rfl, fun _ _ => rfl⟩ (fun _ => rfl) (fun _ => rfl) (fun _ => rfl)
    (fun _ => rfl) (fun _ => rfl) (fun _ _ => rfl) (fun _ _ _ => rfl) (fun _ _ => rfl)

theorem headerSource_payloadSource (w h : Word) : PayloadSource (headerSource w h) where
  crc _ := emitField_commutes ⟨fun _ => rfl, fun _ _ => rfl⟩ (fun _ => rfl)
  payRem _ := emitField_commutes ⟨fun _ => rfl, fun _ _ => rfl⟩ (fun _ => rfl)
  chk _ := emitField_commutes ⟨fun _ => rfl, fun _ _ => rfl⟩ (fun _ => rfl)

theorem noSource_payloadSource : PayloadSource noSource := ⟨fun _ _ => rfl, fun _ _ => rfl, fun _ _ => rfl⟩

theorem headerPayload_length (w h : Word) : (headerPayload w h).length = 13 := rfl

/-- The 13 bytes of the header payload, from `idx` 0. -/
theorem draws_headerPayload (w h : Word) (s : State) (hi : s.seq.idx = 0) :
    Draws (headerSource w h) (headerPayload w h) s s :=
  draws_field (done := fun s => s) (by simp [headerPayload, be32]) (by simp [headerPayload_length]) hi
    (fun _ _ => rfl)

/-! ### Frames -/

/-- A unit that has ended gives no byte, so only its last byte moves the frame on. -/
theorem draws_frame {src : Source} {ended : State → Bool} {next : State → State} (inFrame : State → Prop)
    (hF : ∀ u, inFrame u → frameByte u = (src u).map (afterByte ended next))
    (hkeep : ∀ u x v, inFrame u → src u = some (x, v) → inFrame v)
    (hrun : ∀ u x v, src u = some (x, v) → ended u = false)
    {xs : List Byte} {s t : State} (hd : Draws src xs s t) (hs : inFrame s) (hne : xs ≠ []) :
    Draws frameByte xs s (if ended t then next t else t) := by
  induction xs generalizing s with
  | nil => exact absurd rfl hne
  | cons x xs ih =>
    obtain ⟨u, hu, hd⟩ := hd
    cases xs with
    | nil =>
      cases hd
      exact ⟨_, by rw [hF s hs, hu]; rfl, rfl⟩
    | cons y ys =>
      obtain ⟨v, hv, hd'⟩ := hd
      refine ⟨u, ?_, ih ⟨v, hv, hd'⟩ (hkeep s x u hs hu) (by simp)⟩
      rw [hF s hs, hu]
      simp [afterByte, hrun u y v hv]

theorem sbwByte_running {n : Word} {raw : Source} (u : State) (x : Byte) (v : State)
    (h : sbwByte n raw u = some (x, v)) : streamDone u = false := by
  cases hs : u.seq.sbw <;> simp_all [sbwByte, streamDone]

theorem chkByte_running {tag len : Word} {payload : Source} (u : State) (x : Byte) (v : State)
    (h : chkByte tag len payload u = some (x, v)) : chunkDone u = false := by
  cases hs : u.seq.chk <;> simp_all [chkByte, chunkDone]

theorem slgByte_running {w : Word} {r g b : Byte} (u : State) (x : Byte) (v : State)
    (h : slgByte w r g b u = some (x, v)) : rowsDone u = false := by
  by_cases h0 : u.seq.row = 0
  · simp [slgByte, h0] at h
  · simp only [rowsDone, h0, decide_false]

/-- A source that commutes with the writes of frame and latch leaves both alone. -/
theorem keeps_frame {src : Source} (hc : ∀ upd, Outer upd → Commutes src upd) {s t : State} {x : Byte}
    (h : src s = some (x, t)) : t.seq.frame = s.seq.frame ∧ t.latch = s.latch :=
  ⟨Commutes.keeps (get := fun s => s.seq.frame) (fun f => hc _ (outer_setFrame f)) (fun _ => rfl) (fun _ _ => rfl) h,
    Commutes.keeps (get := fun s => s.latch) (fun l => hc _ (outer_setLatch l)) (fun _ => rfl) (fun _ _ => rfl) h⟩

/-- The frame `f` with operands `o` is in progress. -/
def InFrame (f : Frame) (o : Operands) (s : State) : Prop := s.seq.frame = f ∧ s.latch.operands = o

theorem keeps_inFrame {src : Source} (hc : ∀ upd, Outer upd → Commutes src upd) (f : Frame) (o : Operands) (u : State)
    (x : Byte) (v : State) (hu : InFrame f o u) (h : src u = some (x, v)) : InFrame f o v := by
  obtain ⟨h1, h2⟩ := keeps_frame hc h
  exact ⟨h1.trans hu.1, by rw [h2]; exact hu.2⟩

/-- What the frame of `SBW.WRAP` draws. -/
theorem draws_streamFrame {n : Word} {xs : List Byte} {s t : State} (hd : Draws (sbwByte n State.inPop) xs s t)
    (hs : InFrame .stream (.length n) s) (hne : xs ≠ []) :
    Draws frameByte xs s (if streamDone t then t.setFrame .atRest else t) :=
  draws_frame (InFrame .stream (.length n)) (fun u hu => by simp only [frameByte, hu.1, hu.2])
    (keeps_inFrame (fun _ h => h.sbwByte n h.inPop) _ _) sbwByte_running hd hs hne

/-- What the frame of `CHK.MAKE` draws. -/
theorem draws_chunkFrame {tag len : Word} {xs : List Byte} {s t : State}
    (hd : Draws (chkByte tag len State.inPop) xs s t) (hs : InFrame .chunk (.chunk tag len) s) (hne : xs ≠ []) :
    Draws frameByte xs s (if chunkDone t then t.setFrame .atRest else t) :=
  draws_frame (InFrame .chunk (.chunk tag len)) (fun u hu => by simp only [frameByte, hu.1, hu.2])
    (keeps_inFrame (fun _ h => h.chkByte tag len h.inPop) _ _) chkByte_running hd hs hne

/-- What the frame of `SLG.GEN` draws. -/
theorem draws_rasterFrame {w h : Word} {r g b : Byte} {xs : List Byte} {s t : State}
    (hd : Draws (slgByte w r g b) xs s t) (hs : InFrame .raster (.image w h r g b) s) (hne : xs ≠ []) :
    Draws frameByte xs s (if rowsDone t then t.setFrame .atRest else t) :=
  draws_frame (InFrame .raster (.image w h r g b)) (fun u hu => by simp only [frameByte, hu.1, hu.2])
    (keeps_inFrame (fun _ h => h.slgByte w r g b) _ _) slgByte_running hd hs hne

/-! ### The whole frames of the four composite operations -/

theorem zwrap_ne_nil (raw : List Byte) : zwrap raw ≠ [] := by simp [zwrap, Config.streamHeader]

theorem chunk_ne_nil (tag : Word) (p : List Byte) : chunk tag p ≠ [] := by simp [chunk, be32]

/-- `SBW.WRAP n` with its `n` raw bytes at the head of `DIN`: from its start the frame is `zwrap raw`, and the sequencer is
at rest. -/
theorem draws_startSbwWrap (n : Word) (raw rest : List Byte) (s : State) (hd : s.din = raw ++ rest)
    (hn : n.toNat = raw.length) :
    ∃ t, Draws frameByte (zwrap raw) (startSbwWrap n s) t ∧ t.seq.frame = .atRest ∧
      t = { (startSbwWrap n s) with
              a := (adlerRun adlerStart raw).1, b := (adlerRun adlerStart raw).2, din := rest, seq := t.seq } := by
  have h1 := draws_inPop raw rest (startSbwWrap n s) hd
  have h2 := draws_zwrap (n := n) inPop_rawSource raw _ _ h1 rfl rfl hn
  have h3 := draws_streamFrame h2 ⟨rfl, rfl⟩ (zwrap_ne_nil raw)
  exact ⟨_, h3, rfl, rfl⟩

/-- `CHK.MAKE tag, len` with its `len` payload bytes at the head of `DIN`: from its start the frame is `chunk tag p`, and the
sequencer is at rest. -/
theorem draws_startChkMake (tag len : Word) (p rest : List Byte) (s : State) (hd : s.din = p ++ rest)
    (hn : len.toNat = p.length) :
    ∃ t, Draws frameByte (chunk tag p) (startChkMake tag len s) t ∧ t.seq.frame = .atRest ∧
      t = { (startChkMake tag len s) with
              crc := crcRun Config.crcStart (be32 tag ++ p), din := rest, seq := t.seq } := by
  have h1 := draws_inPop p rest (startChkMake tag len s) hd
  have h2 := draws_chunk (tag := tag) inPop_payloadSource p _ _ h1 rfl rfl rfl hn
  have h3 := draws_chunkFrame h2 ⟨rfl, rfl⟩ (chunk_ne_nil tag p)
  exact ⟨_, h3, rfl, rfl⟩

theorem dimsLegal_iff (w h : Word) :
    dimsLegal w h = true ↔ 1 ≤ w.toNat ∧ w.toNat ≤ 4096 ∧ 1 ≤ h.toNat ∧ h.toNat ≤ 4096 := by
  unfold dimsLegal; exact decide_eq_true_iff

theorem raster_ne_nil {w h : Nat} (hh : 1 ≤ h) (r g b : Byte) : raster w h r g b ≠ [] := by
  obtain ⟨k, rfl⟩ : ∃ k, h = k + 1 := ⟨h - 1, by omega⟩
  simp [raster, rep_succ, rowBytes]

/-- The start of a raster's rows: `row <- height`. -/
theorem draws_rasterWord (w h : Word) (r g b : Byte) (hl : dimsLegal w h = true) (s : State)
    (hrow : s.seq.row = h.setWidth 13) (hpx : s.seq.px = 0) (hch : s.seq.ch = 0) :
    Draws (slgByte w r g b) (raster w.toNat h.toNat r g b) s (s.setPixel 0 0 0) := by
  obtain ⟨hw1, hw2, hh1, hh2⟩ := (dimsLegal_iff w h).mp hl
  have := draws_raster w r g b hw1 hw2 h.toNat (by omega) s
  have he : s.setPixel (BitVec.ofNat 13 h.toNat) 0 0 = s := by
    have hr : BitVec.ofNat 13 h.toNat = s.seq.row := by
      rw [hrow]; apply BitVec.eq_of_toNat_eq; simp
    rw [hr, ← hpx]
    cases s with | mk crc a b busy latch seq cmd din dout cpl draws =>
    cases seq; simp_all [State.setPixel]
  rw [he] at this
  exact this

/-- `SLG.GEN` with legal dimensions: from its start the frame is the raster, and the sequencer is at rest. -/
theorem draws_startSlgGen (w h : Word) (r g b : Byte) (hl : dimsLegal w h = true) (s : State) :
    ∃ t, Draws frameByte (raster w.toNat h.toNat r g b) (startSlgGen w h r g b s) t ∧ t.seq.frame = .atRest ∧
      t = { (startSlgGen w h r g b s) with seq := t.seq } := by
  have hs : startSlgGen w h r g b s = (s.take (Instr.slgGen w h r g b).latch).openFrame
      { Sequencer.zero with frame := .raster, row := h.setWidth 13 } := by
    simp only [startSlgGen, hl, if_true]
  rw [hs]
  have h1 := draws_rasterWord w h r g b hl ((s.take (Instr.slgGen w h r g b).latch).openFrame
      { Sequencer.zero with frame := .raster, row := h.setWidth 13 }) rfl rfl rfl
  have h2 := draws_rasterFrame (h := h) h1 ⟨rfl, rfl⟩ (raster_ne_nil ((dimsLegal_iff w h).mp hl).2.2.1 r g b)
  exact ⟨_, h2, rfl, rfl⟩

theorem rasterLength_lt {w h : Word} (hl : dimsLegal w h = true) : rasterLength w.toNat h.toNat ≤ 50335744 := by
  obtain ⟨hw1, hw2, hh1, hh2⟩ := (dimsLegal_iff w h).mp hl
  have : h.toNat * (1 + 3 * w.toNat) ≤ 4096 * (1 + 3 * 4096) := Nat.mul_le_mul hh2 (by omega)
  simpa [rasterLength] using this

theorem streamLength_le {n : Nat} (hn : n ≤ 2 ^ 32) : streamLength n ≤ 2 ^ 32 + 5 * 65539 + 6 := by
  simp only [streamLength, blockCount, Config.blockMax]; omega

/-- `ENC.ENCODE` with legal dimensions: from its start the frames are the file, and the sequencer is at rest (R242, R246,
R248). -/
theorem draws_startEncEncode (w h : Word) (r g b : Byte) (hl : dimsLegal w h = true) (s : State) :
    ∃ t, Draws frameByte (file w h r g b) (startEncEncode w h r g b s) t ∧ t.seq.frame = .atRest ∧
      t = { (startEncEncode w h r g b s) with
              crc := crcRun Config.crcStart (be32 Config.tagIEND)
              a := (adlerRun adlerStart (raster w.toNat h.toNat r g b)).1
              b := (adlerRun adlerStart (raster w.toNat h.toNat r g b)).2, seq := t.seq } := by
  have hs : startEncEncode w h r g b s = (s.take (Instr.encEncode w h r g b).latch).openFrame
      { Sequencer.zero with frame := .signature } := by
    simp only [startEncEncode, hl, if_true]
  rw [hs]
  unfold file
  generalize hs0 : (s.take (Instr.encEncode w h r g b).latch).openFrame { Sequencer.zero with frame := .signature } = s0
  have hlat : s0.latch.operands = .image w h r g b := by rw [← hs0]; rfl
  have hfr : s0.seq.frame = .signature := by rw [← hs0]; rfl
  have hidx : s0.seq.idx = 0 := by rw [← hs0]; rfl
  clear hs hs0
  -- the signature
  have hsig : Draws frameByte Config.signature s0 (openHeader s0) := by
    refine draws_field (done := openHeader) (by decide) (by decide) hidx ?_
    intro j _
    simp only [frameByte, State.setIdx_seq_frame, State.setIdx_latch, hfr, hlat]
  -- the header chunk
  have hh0 := draws_headerPayload w h (openHeader s0) hidx
  have hh1 := draws_chunk (tag := Config.tagIHDR) (len := 13) (headerSource_payloadSource w h) _ _ _ hh0 rfl hidx hidx
    (by rw [headerPayload_length]; rfl)
  have hh2 := draws_frame (InFrame .header (.image w h r g b)) (fun u hu => by simp only [frameByte, hu.1, hu.2])
    (keeps_inFrame (fun _ ho => ho.chkByte _ _ (ho.headerSource w h)) _ _) chkByte_running hh1 ⟨rfl, hlat⟩
    (chunk_ne_nil _ _) (ended := chunkDone) (next := openData h)
  -- the data chunk
  generalize hs1 : (if chunkDone _ then openData h _ else _) = s1 at hh2
  have hs1' : s1 = openData h ((openHeader s0).setSerial
      (crcRun Config.crcStart (be32 Config.tagIHDR ++ headerPayload w h)) 0 .atRest) := hs1.symm
  have hd0 := draws_rasterWord w h r g b hl s1 (by rw [hs1']; rfl) (by rw [hs1']; rfl) (by rw [hs1']; rfl)
  have hi1 : s1.seq.idx = 0 := by rw [hs1']; exact hidx
  have hlat1 : s1.latch.operands = .image w h r g b := by rw [hs1']; exact hlat
  have hrl := rasterLength_lt hl
  have hd1 := draws_zwrap (n := rasterLengthWord w h) (slgByte_rawSource w r g b) _ _ _ hd0 (by rw [hs1']; rfl) hi1
    (by rw [raster_length, rasterLengthWord, BitVec.toNat_ofNat]; omega)
  have hsl := streamLength_le (n := rasterLength w.toNat h.toNat) (by omega)
  have hsl2 : streamLength (rasterLength w.toNat h.toNat) < 2 ^ 32 := by
    simp only [streamLength, blockCount, Config.blockMax]; omega
  have hd2 := draws_chunk (tag := Config.tagIDAT) (len := streamLengthWord w h)
    (sbwByte_payloadSource _ (slgByte_payloadSource w r g b)) _ _ _ hd1 (by rw [hs1']; rfl) hi1 hi1
    (by rw [zwrap_length, raster_length, streamLengthWord, BitVec.toNat_ofNat, Nat.mod_eq_of_lt hsl2])
  have hd3 := draws_frame (InFrame .data (.image w h r g b)) (fun u hu => by simp only [frameByte, hu.1, hu.2])
    (keeps_inFrame (fun _ ho => ho.chkByte _ _ (ho.dataSource w h r g b)) _ _) chkByte_running hd2
    ⟨by rw [hs1']; rfl, hlat1⟩ (chunk_ne_nil _ _) (ended := chunkDone) (next := openEnd)
  -- the end chunk
  generalize hs2 : (if chunkDone _ then openEnd _ else _) = s2 at hd3
  have hs2' : s2 = openEnd (((s1.setPixel 0 0 0).setWrap
      (adlerRun adlerStart (raster w.toNat h.toNat r g b)) 0 0 .atRest).setSerial
      (crcRun Config.crcStart (be32 Config.tagIDAT ++ zwrap (raster w.toNat h.toNat r g b))) 0 .atRest) := hs2.symm
  have he1 := draws_chunk (tag := Config.tagIEND) (len := 0) noSource_payloadSource [] s2 s2 rfl
    (by rw [hs2']; rfl) (by rw [hs2']; exact hi1) (by rw [hs2']; exact hi1) rfl
  have he2 := draws_frame (InFrame .endChunk (.image w h r g b)) (fun u hu => by simp only [frameByte, hu.1, hu.2])
    (keeps_inFrame (fun _ ho => ho.chkByte _ _ (commutes_noSource _)) _ _) chkByte_running he1
    ⟨by rw [hs2']; rfl, by rw [hs2']; exact hlat1⟩ (chunk_ne_nil _ _) (ended := chunkDone)
    (next := State.setFrame .atRest)
  generalize hs3 : (if chunkDone _ then State.setFrame .atRest _ else _) = s3 at he2
  have hs3' : s3 = (s2.setSerial (crcRun Config.crcStart (be32 Config.tagIEND ++ [])) 0 .atRest).setFrame .atRest :=
    hs3.symm
  have hall := ((hsig.append hh2).append hd3).append he2
  refine ⟨s3, hall, by rw [hs3']; rfl, ?_⟩
  apply State.eq_of_fields <;> simp [hs3', hs2', hs1', openEnd, openData, openHeader]

/-! ### Byte steps add up -/

theorem frameByte_atRest {s : State} (h : s.seq.frame = .atRest) : frameByte s = none := by
  simp only [frameByte, h]

theorem afterByte_commutes {ended : State → Bool} {next upd : State → State} (he : ∀ s, ended (upd s) = ended s)
    (hn : ∀ s, next (upd s) = upd (next s)) (p : Byte × State) :
    afterByte ended next (p.1, upd p.2) = ((afterByte ended next p).1, upd (afterByte ended next p).2) := by
  obtain ⟨x, t⟩ := p
  simp only [afterByte, he]
  by_cases h : ended t = true <;> simp [h, hn]

theorem map_afterByte_commutes {src : Source} {ended : State → Bool} {next upd : State → State} (hc : Commutes src upd)
    (he : ∀ s, ended (upd s) = ended s) (hn : ∀ s, next (upd s) = upd (next s)) (s : State) :
    (src (upd s)).map (afterByte ended next) =
      ((src s).map (afterByte ended next)).map (fun p => (p.1, upd p.2)) := by
  rw [hc s]
  cases src s with
  | none => rfl
  | some p => simp only [Option.map_some, afterByte_commutes he hn]

/-- The frame's bytes do not depend on what is on `DOUT`. -/
theorem frameByte_emit (ys : List Byte) : Commutes frameByte (State.emit ys) := by
  have ho := outer_emit ys
  intro s
  have hf : (s.emit ys).seq.frame = s.seq.frame := rfl
  have hl : (s.emit ys).latch.operands = s.latch.operands := rfl
  simp only [frameByte, hf, hl]
  cases s.seq.frame <;> cases s.latch.operands <;> dsimp only <;>
    first
    | rfl
    | (refine map_afterByte_commutes (ho.slgByte _ _ _ _) ?_ ?_ s <;> intro _ <;> rfl)
    | (refine map_afterByte_commutes (ho.sbwByte _ ho.inPop) ?_ ?_ s <;> intro _ <;> rfl)
    | (refine map_afterByte_commutes (ho.chkByte _ _ ho.inPop) ?_ ?_ s <;> intro _ <;> rfl)
    | (refine map_afterByte_commutes (ho.chkByte _ _ (ho.headerSource _ _)) ?_ ?_ s <;> intro _ <;> rfl)
    | (refine map_afterByte_commutes (ho.chkByte _ _ (ho.dataSource _ _ _ _ _)) ?_ ?_ s <;> intro _ <;> rfl)
    | (refine map_afterByte_commutes (ho.chkByte _ _ (commutes_noSource _)) ?_ ?_ s <;> intro _ <;> rfl)
    | (refine emitField_commutes ho.beside ?_ s; intro _; rfl)

theorem beat_atRest {s : State} (h : s.seq.frame = .atRest) : beat s = none := by
  simp only [beat, frameByte_atRest h]

theorem drive_atRest {s : State} (h : s.seq.frame = .atRest) (k : Nat) : drive k s = s := by
  cases k with
  | zero => rfl
  | succ k => simp only [drive, beat_atRest h]

theorem beat_running {s u : State} {x : Byte} (h : frameByte s = some (x, u)) (hf : u.seq.frame ≠ .atRest) :
    beat s = some (u.emit [x]) := by
  simp only [beat, h, if_neg hf]; rfl

theorem beat_last {s u : State} {x : Byte} (h : frameByte s = some (x, u)) (hf : u.seq.frame = .atRest) :
    beat s = some ((u.emit [x]).complete .ok 0) := by
  simp only [beat, h, if_pos hf]; rfl

/-- As many byte steps as there are bytes drawn push them on `DOUT`, while the frame goes on. -/
theorem drive_draws {xs : List Byte} {s t : State} (hd : Draws frameByte xs s t) (hf : t.seq.frame ≠ .atRest)
    (k : Nat) : drive (xs.length + k) s = drive k (t.emit xs) := by
  induction xs generalizing s t with
  | nil => cases hd; simp [State.emit]
  | cons x xs ih =>
    obtain ⟨u, hu, hd⟩ := hd
    have hu' : u.seq.frame ≠ .atRest := by
      cases xs with
      | nil => cases hd; exact hf
      | cons y ys =>
        obtain ⟨v, hv, -⟩ := hd
        intro h0
        rw [frameByte_atRest h0] at hv
        cases hv
    have hk : (x :: xs).length + k = (xs.length + k) + 1 := by simp; omega
    rw [hk]
    simp only [drive, beat_running hu hu']
    have := ih ((frameByte_emit [x]).draws hd) hf
    rw [this, State.emit_emit]
    rfl

/-- With the last byte of the last frame the operation completes, and no further byte step follows. -/
theorem drive_finish {xs : List Byte} {s t : State} (hd : Draws frameByte xs s t) (hne : xs ≠ [])
    (hf : t.seq.frame = .atRest) (k : Nat) (hk : xs.length ≤ k) : drive k s = (t.emit xs).complete .ok 0 := by
  obtain ⟨ys, y, rfl⟩ : ∃ ys y, xs = ys ++ [y] := ⟨xs.dropLast, xs.getLast hne, (List.dropLast_append_getLast hne).symm⟩
  obtain ⟨u, h1, h2⟩ := hd.split
  obtain ⟨v, hv, rfl⟩ := h2
  have hu : u.seq.frame ≠ .atRest := by
    intro h0; rw [frameByte_atRest h0] at hv; cases hv
  obtain ⟨j, rfl⟩ : ∃ j, k = ys.length + (j + 1) := ⟨k - ys.length - 1, by simp at hk; omega⟩
  rw [drive_draws h1 hu]
  have hv' : frameByte (u.emit ys) = some (y, t.emit ys) := by rw [frameByte_emit ys u, hv]; rfl
  simp only [drive, beat_last hv' hf, State.emit_emit]
  exact drive_atRest rfl j

end Sys2Proof.Machine
end

