-- ==== Sys2Proof/Laws/Beats.lean ====
section
/-! SUPPORT. What one byte step can do, said once; byte steps in a row; and byte steps when the host supplies more `DIN`
(spec/20_memory.md R65, R66, R70). -/

namespace Sys2Proof.Machine

/-! ### What a unit's byte can change -/

theorem emitField_cases {field : List Byte} {done : State → State} {s t : State} {x : Byte}
    (h : emitField field done s = some (x, t)) :
    ∃ hi : s.seq.idx.toNat < field.length, x = field[s.seq.idx.toNat] ∧
      ((s.seq.idx.toNat + 1 = field.length ∧ t = done (s.setIdx 0)) ∨
        (s.seq.idx.toNat + 1 ≠ field.length ∧ t = s.setIdx (s.seq.idx + 1))) := by
  by_cases hi : s.seq.idx.toNat < field.length
  · rw [emitField_eq hi] at h
    simp only [Option.some.injEq, Prod.mk.injEq] at h
    refine ⟨hi, h.1.symm, ?_⟩
    by_cases hl : s.seq.idx.toNat + 1 = field.length
    · exact .inl ⟨hl, by rw [← h.2, if_pos hl]⟩
    · exact .inr ⟨hl, by rw [← h.2, if_neg hl]⟩
  · simp [emitField, hi] at h

/-- `emitField` writes the sequencer only, if `done` does. -/
theorem emitField_seq {field : List Byte} {done : State → State} (hd : ∀ u, done u = { u with seq := (done u).seq })
    {s t : State} {x : Byte} (h : emitField field done s = some (x, t)) : t = { s with seq := t.seq } := by
  obtain ⟨-, -, ⟨-, rfl⟩ | ⟨-, rfl⟩⟩ := emitField_cases h
  · exact hd _
  · rfl

/-- A byte of the wrapper: one it drew from `raw` and folded into the sums, or one of its own, which leaves the sums alone
or initialises them. -/
theorem sbwByte_cases {n : Word} {raw : Source} {s t : State} {x : Byte} (h : sbwByte n raw s = some (x, t)) :
    (s.seq.sbw = .bd ∧ ∃ u, raw s = some (x, u) ∧
      t = { u with a := (adlerByte (u.a, u.b) x).1, b := (adlerByte (u.a, u.b) x).2, seq := t.seq }) ∨
    t = { s with seq := t.seq } ∨ t = { s with a := 1, b := 0, seq := t.seq } := by
  cases hs : s.seq.sbw with
  | atRest => simp [sbwByte, hs] at h
  | zh =>
    simp only [sbwByte, hs] at h
    have := emitField_seq (fun _ => rfl) h
    simp only [State.atFirst] at this
    by_cases hi : s.seq.idx = 0
    · rw [if_pos hi] at this; exact .inr (.inr this)
    · rw [if_neg hi] at this; exact .inr (.inl this)
  | bh =>
    simp only [sbwByte, hs] at h
    have := emitField_seq (fun _ => rfl) h
    simp only [State.atFirst] at this
    by_cases hi : s.seq.idx = 0
    · rw [if_pos hi] at this; exact .inr (.inl this)
    · rw [if_neg hi] at this; exact .inr (.inl this)
  | bd =>
    simp only [sbwByte, hs] at h
    split at h
    · cases h
    · rename_i y u hu
      simp only [Option.some.injEq, Prod.mk.injEq] at h
      obtain ⟨rfl, rfl⟩ := h
      exact .inl ⟨rfl, u, hu, rfl⟩
  | zt =>
    simp only [sbwByte, hs] at h
    exact .inr (.inl (emitField_seq (fun _ => rfl) h))

/-- A byte of the serializer: one it drew from `payload`, or one of its own; it writes `crc` and the sequencer. -/
theorem chkByte_cases {tag len : Word} {payload : Source} {s t : State} {x : Byte}
    (h : chkByte tag len payload s = some (x, t)) :
    (s.seq.chk = .cp ∧ ∃ u, payload s = some (x, u) ∧ t = { u with crc := t.crc, seq := t.seq }) ∨
    t = { s with crc := t.crc, seq := t.seq } := by
  cases hs : s.seq.chk with
  | atRest => simp [chkByte, hs] at h
  | cl =>
    simp only [chkByte, hs] at h
    have := emitField_seq (fun _ => rfl) h
    simp only [State.atFirst] at this
    by_cases hi : s.seq.idx = 0
    · rw [if_pos hi] at this; rw [this]; exact .inr rfl
    · rw [if_neg hi] at this; rw [this]; exact .inr rfl
  | ct =>
    simp only [chkByte, hs] at h
    obtain ⟨⟨y, u⟩, hu, he⟩ := Option.map_eq_some_iff.mp h
    have := emitField_seq (fun _ => rfl) hu
    simp only [foldCrc, Prod.mk.injEq] at he
    rw [← he.2, this]
    exact .inr rfl
  | cp =>
    simp only [chkByte, hs] at h
    split at h
    · cases h
    · rename_i y u hu
      simp only [foldCrc, Option.some.injEq, Prod.mk.injEq] at h
      obtain ⟨rfl, rfl⟩ := h
      exact .inl ⟨rfl, u, hu, rfl⟩
  | cc =>
    simp only [chkByte, hs] at h
    have := emitField_seq (fun _ => rfl) h
    rw [this]; exact .inr rfl

theorem slgByte_cases {w : Word} {r g b : Byte} {s t : State} {x : Byte} (h : slgByte w r g b s = some (x, t)) :
    t = { s with seq := t.seq } := by
  simp only [slgByte] at h
  repeat' split at h
  all_goals first
    | (cases h; done)
    | (cases h; rfl)

theorem inPop_cases {s t : State} {x : Byte} (h : s.inPop = some (x, t)) :
    s.din = x :: t.din ∧ t = { s with din := t.din } := by
  simp only [State.inPop] at h
  split at h
  · cases h
  · rename_i y r hr
    simp only [Option.some.injEq, Prod.mk.injEq] at h
    obtain ⟨rfl, rfl⟩ := h
    exact ⟨hr, rfl⟩

/-- Everything one byte of a frame can change outside the sequencer: `crc`; the sums, which stay reduced; at most the head
of `DIN`. -/
theorem frameByte_cases {s t : State} {x : Byte} (h : frameByte s = some (x, t)) :
    t = { s with crc := t.crc, a := t.a, b := t.b, din := t.din, seq := t.seq } ∧
    (s.sumsReduced → t.sumsReduced) ∧
    (t.din = s.din ∨ (s.din = x :: t.din ∧ (s.seq.frame = .stream ∨ s.seq.frame = .chunk))) := by
  have hmap : ∀ {src : Source} {ended : State → Bool} {next : State → State},
      (∀ u, next u = { u with seq := (next u).seq }) → (src s).map (afterByte ended next) = some (x, t) →
      ∃ u, src s = some (x, u) ∧ t = { u with seq := t.seq } := by
    intro src ended next hn hm
    obtain ⟨⟨y, u⟩, hu, he⟩ := Option.map_eq_some_iff.mp hm
    simp only [afterByte, Prod.mk.injEq] at he
    obtain ⟨rfl, rfl⟩ := he
    refine ⟨u, hu, ?_⟩
    by_cases hd : ended u = true
    · simp only [hd, if_true]; exact hn u
    · simp only [hd]; rfl
  have hsum : ∀ {n : Word} {raw : Source} {v : State} {y : Byte}, sbwByte n raw s = some (y, v) →
      (∀ u, raw s = some (y, u) → u = { s with din := u.din, seq := u.seq }) →
      v = { s with a := v.a, b := v.b, din := v.din, seq := v.seq } ∧ (s.sumsReduced → v.sumsReduced) := by
    intro n raw v y hv hraw
    obtain ⟨-, u, hu, hv'⟩ | hv' | hv' := sbwByte_cases hv
    · have hu' := hraw u hu
      rw [hv', hu']
      exact ⟨rfl, fun _ => ⟨adlerByte_fst_lt _ _, adlerByte_snd_lt _ _⟩⟩
    · rw [hv']; exact ⟨rfl, fun hr => hr⟩
    · rw [hv']; exact ⟨rfl, fun _ => ⟨show (1 : Half).toNat < 65521 by decide, show (0 : Half).toNat < 65521 by decide⟩⟩
  simp only [frameByte] at h
  split at h
  · obtain ⟨u, hu, ht⟩ := hmap (fun _ => rfl) h
    rw [ht, slgByte_cases hu]
    exact ⟨rfl, fun hr => hr, .inl rfl⟩
  · rename_i n hf ho
    obtain ⟨u, hu, ht⟩ := hmap (fun _ => rfl) h
    obtain ⟨h1, h2⟩ := hsum hu (fun v hv => by rw [(inPop_cases hv).2])
    refine ⟨by rw [ht, h1], fun hr => by rw [ht]; exact h2 hr, ?_⟩
    have hdin : t.din = u.din := by rw [ht]
    obtain ⟨-, v, hv, hu'⟩ | hu' | hu' := sbwByte_cases hu
    · have hvd : u.din = v.din := by rw [hu']
      exact .inr ⟨by rw [hdin, hvd]; exact (inPop_cases hv).1, .inl hf⟩
    · exact .inl (by rw [hdin, hu'])
    · exact .inl (by rw [hdin, hu'])
  · rename_i tag len hf ho
    obtain ⟨u, hu, ht⟩ := hmap (fun _ => rfl) h
    have hdin : t.din = u.din := by rw [ht]
    obtain ⟨-, v, hv, hu'⟩ | hu' := chkByte_cases hu
    · have hvd : u.din = v.din := by rw [hu']
      obtain ⟨h1, h2⟩ := inPop_cases hv
      refine ⟨by rw [ht, hu', h2], fun hr => by rw [ht, hu', h2]; exact hr, .inr ⟨by rw [hdin, hvd]; exact h1, .inr hf⟩⟩
    · exact ⟨by rw [ht, hu'], fun hr => by rw [ht, hu']; exact hr, .inl (by rw [hdin, hu'])⟩
  · have := emitField_seq (fun _ => rfl) h
    rw [this]; exact ⟨rfl, fun hr => hr, .inl rfl⟩
  · obtain ⟨u, hu, ht⟩ := hmap (fun _ => rfl) h
    obtain ⟨-, v, hv, hu'⟩ | hu' := chkByte_cases hu
    · have hv' := emitField_seq (fun _ => rfl) hv
      rw [ht, hu', hv']; exact ⟨rfl, fun hr => hr, .inl rfl⟩
    · rw [ht, hu']; exact ⟨rfl, fun hr => hr, .inl rfl⟩
  · obtain ⟨u, hu, ht⟩ := hmap (fun _ => rfl) h
    obtain ⟨-, v, hv, hu'⟩ | hu' := chkByte_cases hu
    · obtain ⟨h1, h2⟩ := hsum hv (fun w hw => by rw [slgByte_cases hw])
      have hvd : v.din = s.din := by
        obtain ⟨-, w, hw, hv'⟩ | hv' | hv' := sbwByte_cases hv
        · rw [hv', slgByte_cases hw]
        · rw [hv']
        · rw [hv']
      refine ⟨by rw [ht, hu', h1], fun hr => by rw [ht, hu']; exact h2 hr, .inl (by rw [ht, hu']; exact hvd)⟩
    · rw [ht, hu']; exact ⟨rfl, fun hr => hr, .inl rfl⟩
  · obtain ⟨u, hu, ht⟩ := hmap (fun _ => rfl) h
    obtain ⟨-, v, hv, -⟩ | hu' := chkByte_cases hu
    · cases hv
    · rw [ht, hu']; exact ⟨rfl, fun hr => hr, .inl rfl⟩
  · cases h

/-- Everything one byte step can do: it pushes one byte, and with the last byte of the last frame it completes. -/
theorem beat_cases {s t : State} (h : beat s = some t) :
    ∃ x u, frameByte s = some (x, u) ∧
      ((u.seq.frame ≠ .atRest ∧ t = u.emit [x]) ∨ (u.seq.frame = .atRest ∧ t = (u.emit [x]).complete .ok 0)) := by
  simp only [beat] at h
  split at h
  · cases h
  · rename_i x u hu
    refine ⟨x, u, hu, ?_⟩
    by_cases hf : u.seq.frame = .atRest
    · rw [if_pos hf] at h; cases h; exact .inr ⟨hf, rfl⟩
    · rw [if_neg hf] at h; cases h; exact .inl ⟨hf, rfl⟩

/-! ### Byte steps in a row -/

/-- `k` byte steps from `s` to `t`. -/
def Beats : Nat → State → State → Prop
  | 0, s, t => t = s
  | k + 1, s, t => ∃ u, beat s = some u ∧ Beats k u t

/-- `drive` takes byte steps until there is none, or until its count is used up. -/
theorem drive_beats (k : Nat) (s : State) :
    ∃ j, j ≤ k ∧ Beats j s (drive k s) ∧ (j = k ∨ beat (drive k s) = none) := by
  induction k generalizing s with
  | zero => exact ⟨0, Nat.le_refl _, rfl, .inl rfl⟩
  | succ k ih =>
    cases hb : beat s with
    | none => exact ⟨0, by omega, by simp [drive, hb, Beats], .inr (by simp [drive, hb])⟩
    | some u =>
      obtain ⟨j, hj, h1, h2⟩ := ih u
      have hd : drive (k + 1) s = drive k u := by simp [drive, hb]
      rw [hd]
      exact ⟨j + 1, by omega, ⟨u, hb, h1⟩, h2.elim (fun h => .inl (by omega)) .inr⟩

theorem drive_paused {s : State} (h : beat s = none) (k : Nat) : drive k s = s := by
  cases k with
  | zero => rfl
  | succ k => simp [drive, h]

theorem Beats.drive {j : Nat} {s t : State} (h : Beats j s t) (k : Nat) : drive (j + k) s = drive k t := by
  induction j generalizing s with
  | zero => cases h; rw [Nat.zero_add]
  | succ j ih =>
    obtain ⟨u, hu, h⟩ := h
    have : j + 1 + k = (j + k) + 1 := by omega
    rw [this]
    simp only [Machine.drive, hu]
    exact ih h

theorem Beats.trans {i j : Nat} {s t u : State} (h1 : Beats i s t) (h2 : Beats j t u) : Beats (i + j) s u := by
  induction i generalizing s with
  | zero => cases h1; rw [Nat.zero_add]; exact h2
  | succ i ih =>
    obtain ⟨v, hv, h1⟩ := h1
    have : i + 1 + j = (i + j) + 1 := by omega
    rw [this]
    exact ⟨v, hv, ih h1⟩

/-- The byte steps that draw a frame to its end. -/
theorem beats_finish {xs : List Byte} {s t : State} (hd : Draws frameByte xs s t) (hne : xs ≠ [])
    (hf : t.seq.frame = .atRest) : Beats xs.length s ((t.emit xs).complete .ok 0) := by
  induction xs generalizing s t with
  | nil => exact absurd rfl hne
  | cons x xs ih =>
    obtain ⟨u, hu, hd⟩ := hd
    cases xs with
    | nil => cases hd; exact ⟨_, beat_last hu hf, rfl⟩
    | cons y ys =>
      have hu' : u.seq.frame ≠ .atRest := by
        obtain ⟨v, hv, -⟩ := hd
        intro h0
        rw [frameByte_atRest h0] at hv
        cases hv
      refine ⟨_, beat_running hu hu', ?_⟩
      have := ih ((frameByte_emit [x]).draws hd) (by simp) hf
      rw [State.emit_emit] at this
      exact this

/-- A property that every byte step keeps is kept by byte steps in a row. -/
theorem Beats.keeps {P : State → Prop} (hstep : ∀ s t, P s → beat s = some t → P t) {k : Nat} {s t : State}
    (h : Beats k s t) (hs : P s) : P t := by
  induction k generalizing s with
  | zero => cases h; exact hs
  | succ k ih =>
    obtain ⟨u, hu, h⟩ := h
    exact ih h (hstep s u hs hu)

/-- What byte steps in a row keep, `drive` keeps. -/
theorem drive_keeps {P : State → Prop} (hstep : ∀ s t, P s → beat s = some t → P t) (k : Nat) {s : State} (hs : P s) :
    P (drive k s) := by
  obtain ⟨j, -, h, -⟩ := drive_beats k s
  exact h.keeps hstep hs

/-- Byte steps are deterministic: of two rows of them from one state, the longer goes on from where the shorter ends. -/
theorem Beats.rest {j k : Nat} {s t u : State} (h1 : Beats j s t) (h2 : Beats k s u) (hjk : j ≤ k) :
    Beats (k - j) t u := by
  induction j generalizing s k with
  | zero => cases h1; exact h2
  | succ j ih =>
    obtain ⟨v, hv, h1⟩ := h1
    cases k with
    | zero => omega
    | succ k =>
      obtain ⟨w, hw, h2⟩ := h2
      rw [hv] at hw
      cases hw
      rw [Nat.succ_sub_succ]
      exact ih h1 h2 (by omega)

/-- No byte steps lead on from a state that has none. -/
theorem Beats.none_of_paused {j : Nat} {s t : State} (h : Beats j s t) (hp : beat s = none) : j = 0 ∧ t = s := by
  cases j with
  | zero => exact ⟨rfl, h⟩
  | succ j =>
    obtain ⟨u, hu, -⟩ := h
    rw [hp] at hu
    cases hu

/-- What a byte step leaves as it was, and what it does to the queues. -/
theorem beat_frame {s t : State} (h : beat s = some t) :
    t.cmd = s.cmd ∧ (∃ x, t.dout = s.dout ++ [x]) ∧ t.din <:+ s.din ∧ s.cpl <+: t.cpl ∧
      (t.busy = false ∨ (t.busy = s.busy ∧ t.latch = s.latch ∧ t.cpl = s.cpl)) := by
  obtain ⟨x, u, hu, hcase⟩ := beat_cases h
  obtain ⟨hueq, -, hdin⟩ := frameByte_cases hu
  have hsuf : u.din <:+ s.din := by
    obtain hd | ⟨hd, -⟩ := hdin
    · rw [hd]
    · rw [hd]; exact List.suffix_cons _ _
  have h1 : u.cmd = s.cmd ∧ u.dout = s.dout ∧ u.cpl = s.cpl ∧ u.busy = s.busy ∧ u.latch = s.latch := by
    rw [hueq]; exact ⟨rfl, rfl, rfl, rfl, rfl⟩
  obtain ⟨hc, ho, hp, hb, hl⟩ := h1
  obtain ⟨-, rfl⟩ | ⟨-, rfl⟩ := hcase
  · refine ⟨hc, ⟨x, ?_⟩, hsuf, ?_, .inr ⟨hb, hl, hp⟩⟩
    · show u.dout ++ [x] = _; rw [ho]
    · show _ <+: u.cpl; rw [hp]
  · refine ⟨hc, ⟨x, ?_⟩, hsuf, ?_, .inl rfl⟩
    · show u.dout ++ [x] = _; rw [ho]
    · show _ <+: u.cpl ++ _; rw [hp]; exact List.prefix_append _ _

theorem Beats.dout {k : Nat} {s t : State} (h : Beats k s t) : ∃ ys, ys.length = k ∧ t.dout = s.dout ++ ys := by
  induction k generalizing s with
  | zero => cases h; exact ⟨[], rfl, by simp⟩
  | succ k ih =>
    obtain ⟨u, hu, h⟩ := h
    obtain ⟨ys, hy, ht⟩ := ih h
    obtain ⟨-, ⟨x, hx⟩, -⟩ := beat_frame hu
    exact ⟨x :: ys, by simp [hy], by rw [ht, hx]; simp⟩

/-! ### More bytes on `DIN` -/

theorem inPop_supply {s t : State} {x : Byte} (ys : List Byte) (h : s.inPop = some (x, t)) :
    (s.supply ys).inPop = some (x, t.supply ys) := by
  obtain ⟨h1, h2⟩ := inPop_cases h
  rw [h2]
  simp [State.inPop, State.supply, h1]

theorem beside_supply (ys : List Byte) : Beside (State.supply ys) := ⟨fun _ => rfl, fun _ _ => rfl⟩

theorem slgByte_supply (w : Word) (r g b : Byte) (ys : List Byte) : Commutes (slgByte w r g b) (State.supply ys) :=
  slgByte_commutes (fun _ => rfl) (fun _ => rfl) (fun _ => rfl) (fun _ _ _ _ => rfl)

theorem headerSource_supply (w h : Word) (ys : List Byte) : Commutes (headerSource w h) (State.supply ys) :=
  emitField_commutes (beside_supply ys) (fun _ => rfl)

theorem sbwByte_supply_commutes {n : Word} {raw : Source} {ys : List Byte} (h : Commutes raw (State.supply ys)) :
    Commutes (sbwByte n raw) (State.supply ys) :=
  sbwByte_commutes h (beside_supply ys) (fun _ => rfl) (fun _ => rfl) (fun _ => rfl) (fun _ => rfl) (fun _ => rfl)
    (fun _ _ => rfl) (fun _ _ _ => rfl) (fun _ _ => rfl)

theorem chkByte_supply_commutes {tag len : Word} {payload : Source} {ys : List Byte}
    (h : Commutes payload (State.supply ys)) : Commutes (chkByte tag len payload) (State.supply ys) :=
  chkByte_commutes h (beside_supply ys) (fun _ => rfl) (fun _ => rfl) (fun _ => rfl) (fun _ _ => rfl)
    (fun _ _ => rfl) (fun _ _ => rfl)

/-- Away from an `InPop` the wrapper does not see `DIN`. -/
theorem sbwByte_supply_of_not_bd {n : Word} {raw : Source} {s : State} (ys : List Byte) (hp : s.seq.sbw ≠ .bd) :
    sbwByte n raw (s.supply ys) = (sbwByte n raw s).map (fun p => (p.1, p.2.supply ys)) := by
  have h := sbwByte_supply_commutes (n := n) (raw := noSource) (ys := ys) (commutes_noSource _) s
  have e : ∀ u : State, u.seq.sbw ≠ .bd → sbwByte n raw u = sbwByte n noSource u := by
    intro u hu
    cases hs : u.seq.sbw <;> simp_all [sbwByte]
  rw [e s hp, e (s.supply ys) hp, h]

theorem chkByte_supply_of_not_cp {tag len : Word} {payload : Source} {s : State} (ys : List Byte)
    (hp : s.seq.chk ≠ .cp) :
    chkByte tag len payload (s.supply ys) = (chkByte tag len payload s).map (fun p => (p.1, p.2.supply ys)) := by
  have h := chkByte_supply_commutes (tag := tag) (len := len) (payload := noSource) (ys := ys) (commutes_noSource _) s
  have e : ∀ u : State, u.seq.chk ≠ .cp → chkByte tag len payload u = chkByte tag len noSource u := by
    intro u hu
    cases hs : u.seq.chk <;> simp_all [chkByte]
  rw [e s hp, e (s.supply ys) hp, h]

/-- Whatever more the host has supplied, a state that is not waiting for `DIN` gives the same byte. -/
theorem frameByte_supply {s : State} (ys : List Byte) (hw : holding s = false) :
    frameByte (s.supply ys) = (frameByte s).map (fun p => (p.1, p.2.supply ys)) := by
  have hf : (s.supply ys).seq.frame = s.seq.frame := rfl
  have hl : (s.supply ys).latch.operands = s.latch.operands := rfl
  have hmap : ∀ {src : Source} {ended : State → Bool} {next : State → State},
      src (s.supply ys) = (src s).map (fun p => (p.1, p.2.supply ys)) →
      (∀ u, ended (u.supply ys) = ended u) → (∀ u, next (u.supply ys) = (next u).supply ys) →
      (src (s.supply ys)).map (afterByte ended next) =
        ((src s).map (afterByte ended next)).map (fun p => (p.1, p.2.supply ys)) := by
    intro src ended next hc he hn
    rw [hc]
    cases src s with
    | none => rfl
    | some p => simp only [Option.map_some, afterByte_commutes he hn]
  simp only [holding] at hw
  simp only [frameByte, hf, hl]
  cases hfr : s.seq.frame <;> cases ho : s.latch.operands <;> dsimp only <;> simp only [hfr, ho] at hw <;>
    first
    | rfl
    | (refine hmap (slgByte_supply _ _ _ _ ys s) ?_ ?_ <;> intro _ <;> rfl)
    | (refine hmap (chkByte_supply_commutes (headerSource_supply _ _ ys) s) ?_ ?_ <;> intro _ <;> rfl)
    | (refine hmap (chkByte_supply_commutes (sbwByte_supply_commutes (slgByte_supply _ _ _ _ ys)) s) ?_ ?_ <;>
        intro _ <;> rfl)
    | (refine hmap (chkByte_supply_commutes (commutes_noSource _) s) ?_ ?_ <;> intro _ <;> rfl)
    | (refine emitField_commutes (beside_supply ys) ?_ s; intro _; rfl)
    | skip
  · refine hmap ?_ (fun _ => rfl) (fun _ => rfl)
    by_cases hp : s.seq.sbw = .bd
    · cases hd : s.din with
      | nil => simp [hp, hd] at hw
      | cons x r =>
        have h1 : s.inPop = some (x, { s with din := r }) := by simp [State.inPop, hd]
        have h2 := inPop_supply ys h1
        rw [sbwByte_bd (s := s) hp h1, sbwByte_bd (s := s.supply ys) hp h2]
        rfl
    · exact sbwByte_supply_of_not_bd ys hp
  · refine hmap ?_ (fun _ => rfl) (fun _ => rfl)
    by_cases hp : s.seq.chk = .cp
    · cases hd : s.din with
      | nil => simp [hp, hd] at hw
      | cons x r =>
        have h1 : s.inPop = some (x, { s with din := r }) := by simp [State.inPop, hd]
        have h2 := inPop_supply ys h1
        rw [chkByte_cp (s := s) hp h1, chkByte_cp (s := s.supply ys) hp h2]
        rfl
    · exact chkByte_supply_of_not_cp ys hp

/-- A waiting operation has no byte step. -/
theorem beat_holding {s : State} (h : holding s = true) : beat s = none := by
  simp only [holding] at h
  split at h
  · rename_i n hf ho
    simp only [Bool.and_eq_true, decide_eq_true_eq, List.isEmpty_iff] at h
    simp [beat, frameByte, hf, ho, sbwByte, h.1, State.inPop, h.2]
  · rename_i tag len hf ho
    simp only [Bool.and_eq_true, decide_eq_true_eq, List.isEmpty_iff] at h
    simp [beat, frameByte, hf, ho, chkByte, h.1, State.inPop, h.2]
  · cases h

theorem beat_supply {s : State} (ys : List Byte) (hw : holding s = false) :
    beat (s.supply ys) = (beat s).map (State.supply ys) := by
  simp only [beat, frameByte_supply ys hw]
  cases frameByte s with
  | none => rfl
  | some p =>
    obtain ⟨x, t⟩ := p
    simp only [Option.map_some]
    by_cases hf : t.seq.frame = .atRest
    · rw [if_pos hf, if_pos (show (t.supply ys).seq.frame = .atRest from hf)]; rfl
    · rw [if_neg hf, if_neg (show ¬ (t.supply ys).seq.frame = .atRest from hf)]; rfl

theorem beat_some_supply {s t : State} (ys : List Byte) (h : beat s = some t) :
    beat (s.supply ys) = some (t.supply ys) := by
  have hw : holding s = false := by
    by_contra hc
    rw [beat_holding (by simpa using hc)] at h
    cases h
  rw [beat_supply ys hw, h]; rfl

theorem Beats.supply {k : Nat} {s t : State} (h : Beats k s t) (ys : List Byte) : Beats k (s.supply ys) (t.supply ys) := by
  induction k generalizing s with
  | zero => cases h; rfl
  | succ k ih =>
    obtain ⟨u, hu, h⟩ := h
    exact ⟨_, beat_some_supply ys hu, ih h⟩

/-- A state that has no byte step now and would have one with more `DIN` is waiting for it. -/
theorem holding_of_supply {s : State} {ys : List Byte} (h : beat s = none) (h' : beat (s.supply ys) ≠ none) :
    holding s = true := by
  by_contra hw
  rw [beat_supply ys (by simpa using hw), h] at h'
  exact h' rfl

end Sys2Proof.Machine
end

