-- ==== Sys2Proof/Laws/PerInstr.lean ====
section
/-! SUPPORT. Statements about every command, one lemma per constructor of `Instr`. -/

namespace Sys2Proof.Laws.WholePacket

/-- The encoding of a command is one well-formed packet, and its first byte names the command's operation
(spec/30_encoding.md R108, R110). -/
def Statement (i : Instr) : Prop :=
  Packet.wf (encode i) = true ∧ (encode i).head? = some i.op.code ∧ Op.ofByte i.op.code = some i.op

theorem crcInit : Statement .crcInit := ⟨rfl, rfl, rfl⟩

theorem crcUpd (x : Byte) : Statement (.crcUpd x) := ⟨rfl, rfl, rfl⟩

theorem crcFin : Statement .crcFin := ⟨rfl, rfl, rfl⟩

theorem adlInit : Statement .adlInit := ⟨rfl, rfl, rfl⟩

theorem adlUpd (x : Byte) : Statement (.adlUpd x) := ⟨rfl, rfl, rfl⟩

theorem adlFin : Statement .adlFin := ⟨rfl, rfl, rfl⟩

theorem sbwWrap (n : Word) : Statement (.sbwWrap n) := ⟨rfl, rfl, rfl⟩

theorem slgGen (width height : Word) (r g b : Byte) : Statement (.slgGen width height r g b) := ⟨rfl, rfl, rfl⟩

theorem chkMake (tag len : Word) : Statement (.chkMake tag len) := ⟨rfl, rfl, rfl⟩

theorem encEncode (width height : Word) (r g b : Byte) : Statement (.encEncode width height r g b) := ⟨rfl, rfl, rfl⟩

end Sys2Proof.Laws.WholePacket
end

