-- ==== Sys2Proof/Laws/Settle.lean ====
section
/-! SUPPORT. Running an operation to its completion or to a hold (spec/10_state.md R25, spec/20_memory.md R66): the byte
steps left decrease, so `settle` never stops. -/

namespace Sys2Proof.Machine

/-- A byte of a fixed field is there while `idx` is inside the field. -/
theorem emitField_some {field : List Byte} (done : State → State) {s : State} (h : s.seq.idx.toNat < field.length) :
    ∃ x, emitField field done s =
      some (x, if s.seq.idx.toNat + 1 = field.length then done (s.setIdx 0) else s.setIdx (s.seq.idx + 1)) :=
  ⟨_, emitField_eq h⟩

theorem idx_succ {v : BitVec 4} {k : Nat} (hk : k ≤ 15) (h : v.toNat < k) : (v + 1).toNat = v.toNat + 1 := by
  have h1 : (1 : BitVec 4).toNat = 1 := rfl
  rw [BitVec.toNat_add, h1]; omega

theorem idx_succ_ne_zero {v : BitVec 4} {k : Nat} (hk : k ≤ 15) (h : v.toNat < k) : v + 1 ≠ 0 := by
  intro h0
  have := idx_succ hk h
  rw [h0] at this
  simp at this

/-! ### `SBW.WRAP` -/

/-- Where the wrapper's counters stand inside a stream of `n` raw bytes. -/
def SbwAt (n : Word) (q : Sequencer) : Prop :=
  match q.sbw with
  | .atRest => False
  | .zh => q.idx.toNat < 2 ∧ (q.idx ≠ 0 → q.inRem = n)
  | .bh => q.idx.toNat < 5 ∧ q.inRem.toNat ≤ n.toNat ∧ (q.idx ≠ 0 → q.blkRem = blockLength q.inRem)
  | .bd => q.idx = 0 ∧ 0 < q.blkRem.toNat ∧ q.blkRem.toNat ≤ q.inRem.toNat ∧ q.inRem.toNat ≤ n.toNat
  | .zt => q.idx.toNat < 4

/-- A bound on the byte steps the wrapper has left. -/
def sbwLeft (n : Word) (q : Sequencer) : Nat :=
  match q.sbw with
  | .atRest => 0
  | .zh => (2 - q.idx.toNat) + 5 + 6 * n.toNat + 4
  | .bh => (5 - q.idx.toNat) + 6 * q.inRem.toNat + 4
  | .bd => 6 * q.inRem.toNat + 4
  | .zt => 4 - q.idx.toNat

/-- One byte of the wrapper from inside a stream: it waits for a raw byte, or it gives a byte and fewer are left. -/
theorem sbwByte_progress {n : Word} {s : State} (h : SbwAt n s.seq) :
    (s.seq.sbw = .bd ∧ s.din = []) ∨
    ∃ x t, sbwByte n State.inPop s = some (x, t) ∧
      (t.seq.sbw = .atRest ∨ (SbwAt n t.seq ∧ sbwLeft n t.seq < sbwLeft n s.seq)) := by
  unfold SbwAt at h
  cases hs : s.seq.sbw with
  | atRest => rw [hs] at h; exact h.elim
  | zh =>
    rw [hs] at h
    right
    obtain ⟨hi, hn⟩ := h
    generalize hu : s.atFirst (fun s => (s.setAdler adlerStart).setRemaining n s.seq.blkRem) = u
    have hui : u.seq.idx = s.seq.idx := by rw [← hu]; simp only [State.atFirst]; split <;> rfl
    have hup : u.seq.sbw = .zh := by rw [← hu]; simp only [State.atFirst]; split <;> simpa using hs
    have hun : u.seq.inRem = n := by
      rw [← hu]; simp only [State.atFirst]
      by_cases h0 : s.seq.idx = 0
      · rw [if_pos h0]; rfl
      · rw [if_neg h0]; exact hn h0
    obtain ⟨x, hx⟩ := emitField_some (field := Config.streamHeader) (State.setSbw .bh) (s := u)
      (by rw [hui]; exact hi)
    refine ⟨x, _, by simp only [sbwByte, hs, hu]; exact hx, .inr ?_⟩
    have hlen : Config.streamHeader.length = 2 := rfl
    rw [hui, hlen]
    by_cases hl : s.seq.idx.toNat + 1 = 2
    · rw [if_pos hl]
      refine ⟨⟨by simp, by simp [hun], by simp⟩, ?_⟩
      simp only [sbwLeft, hs, State.setSbw_seq_sbw, State.setSbw_seq_idx, State.setSbw_seq_inRem,
        State.setIdx_seq_idx, State.setIdx_seq_inRem, hun]
      simp; omega
    · rw [if_neg hl]
      have h1 := idx_succ (k := 2) (by omega) hi
      simp only [SbwAt, sbwLeft, hs, State.setIdx_seq_sbw, State.setIdx_seq_idx, State.setIdx_seq_inRem, hup, hun, h1]
      exact ⟨⟨by omega, fun _ => trivial⟩, by omega⟩
  | bh =>
    rw [hs] at h
    right
    obtain ⟨hi, hn, hb⟩ := h
    generalize hu : s.atFirst (fun s => s.setRemaining s.seq.inRem (blockLength s.seq.inRem)) = u
    have hui : u.seq.idx = s.seq.idx := by rw [← hu]; simp only [State.atFirst]; split <;> rfl
    have hup : u.seq.sbw = .bh := by rw [← hu]; simp only [State.atFirst]; split <;> simpa using hs
    have hun : u.seq.inRem = s.seq.inRem := by rw [← hu]; simp only [State.atFirst]; split <;> rfl
    have hub : u.seq.blkRem = blockLength s.seq.inRem := by
      rw [← hu]; simp only [State.atFirst]
      by_cases h0 : s.seq.idx = 0
      · rw [if_pos h0]; rfl
      · rw [if_neg h0]; exact hb h0
    obtain ⟨x, hx⟩ := emitField_some (field := blockHeader (finalFlag u.seq.inRem) u.seq.blkRem)
      (State.setSbw (if u.seq.blkRem = 0 then .zt else .bd)) (s := u) (by rw [hui, blockHeader_length]; exact hi)
    refine ⟨x, _, by simp only [sbwByte, hs, hu]; exact hx, .inr ?_⟩
    rw [hui, blockHeader_length]
    have hm := blockLength_toNat s.seq.inRem
    by_cases hl : s.seq.idx.toNat + 1 = 5
    · rw [if_pos hl]
      by_cases hz : u.seq.blkRem = 0
      · rw [if_pos hz]
        simp only [SbwAt, sbwLeft, hs, State.setSbw_seq_sbw, State.setSbw_seq_idx, State.setIdx_seq_idx]
        simp; omega
      · rw [if_neg hz]
        have hpos : 0 < u.seq.blkRem.toNat := by
          rcases Nat.eq_zero_or_pos u.seq.blkRem.toNat with h0 | h0
          · exact absurd (BitVec.eq_of_toNat_eq h0) hz
          · exact h0
        simp only [SbwAt, sbwLeft, hs, State.setSbw_seq_sbw, State.setSbw_seq_idx, State.setIdx_seq_idx,
          State.setSbw_seq_inRem, State.setSbw_seq_blkRem, State.setIdx_seq_inRem, State.setIdx_seq_blkRem, hun]
        rw [hub] at hpos ⊢
        rw [hm] at hpos ⊢
        exact ⟨⟨trivial, hpos, by omega, hn⟩, by omega⟩
    · rw [if_neg hl]
      have h1 := idx_succ (k := 5) (by omega) hi
      simp only [SbwAt, sbwLeft, hs, State.setIdx_seq_sbw, State.setIdx_seq_idx, State.setIdx_seq_inRem,
        State.setIdx_seq_blkRem, hup, hun, h1]
      exact ⟨⟨by omega, hn, fun _ => hub⟩, by omega⟩
  | bd =>
    rw [hs] at h
    obtain ⟨hi, hb, hbi, hn⟩ := h
    cases hd : s.din with
    | nil => exact .inl ⟨rfl, rfl⟩
    | cons x r =>
      right
      have hp : s.inPop = some (x, { s with din := r }) := by simp [State.inPop, hd]
      refine ⟨x, _, sbwByte_bd hs hp, ?_⟩
      have hb1 : (s.seq.blkRem - 1).toNat = s.seq.blkRem.toNat - 1 := sub_ofNat_toNat (k := 1) (by omega)
      have hi1 : (s.seq.inRem - 1).toNat = s.seq.inRem.toNat - 1 := sub_ofNat_toNat (k := 1) (by omega)
      right
      simp only [State.setWrap, SbwAt, sbwLeft, hs, State.setSbw_seq_sbw, State.setSbw_seq_idx, State.setSbw_seq_inRem,
        State.setSbw_seq_blkRem, State.setRemaining_seq_inRem, State.setRemaining_seq_blkRem, State.setRemaining_seq_idx,
        State.setAdler_seq, hi]
      by_cases hz : s.seq.blkRem - 1 ≠ 0
      · rw [if_pos hz]
        have hpos : 0 < (s.seq.blkRem - 1).toNat := by
          rcases Nat.eq_zero_or_pos (s.seq.blkRem - 1).toNat with h0 | h0
          · exact absurd (BitVec.eq_of_toNat_eq h0) hz
          · exact h0
        rw [hb1] at hpos
        simp only [hb1, hi1]
        exact ⟨⟨trivial, hpos, by omega, by omega⟩, by omega⟩
      · rw [if_neg hz]
        by_cases hy : s.seq.inRem - 1 = 0
        · rw [if_pos hy]; simp; omega
        · rw [if_neg hy]; simp only [hi1]; simp; omega
  | zt =>
    rw [hs] at h
    right
    obtain ⟨x, hx⟩ := emitField_some (field := be32 (adlerPack s.a s.b)) (State.setSbw .atRest) (s := s) h
    refine ⟨x, _, by simp only [sbwByte, hs]; exact hx, ?_⟩
    have hlen : (be32 (adlerPack s.a s.b)).length = 4 := rfl
    rw [hlen]
    by_cases hl : s.seq.idx.toNat + 1 = 4
    · rw [if_pos hl]; exact .inl rfl
    · rw [if_neg hl]
      have h1 := idx_succ (k := 4) (by omega) h
      simp only [SbwAt, sbwLeft, hs, State.setIdx_seq_sbw, State.setIdx_seq_idx, h1]
      exact .inr ⟨by omega, by omega⟩

/-! ### `CHK.MAKE` -/

/-- Where the serializer's counters stand inside a chunk of `len` payload bytes. -/
def ChkAt (len : Word) (q : Sequencer) : Prop :=
  match q.chk with
  | .atRest => False
  | .cl => q.idx.toNat < 4 ∧ (q.idx ≠ 0 → q.payRem = len)
  | .ct => q.idx.toNat < 4 ∧ q.payRem = len
  | .cp => q.idx = 0 ∧ 0 < q.payRem.toNat ∧ q.payRem.toNat ≤ len.toNat
  | .cc => q.idx.toNat < 4

/-- A bound on the byte steps the serializer has left. -/
def chkLeft (len : Word) (q : Sequencer) : Nat :=
  match q.chk with
  | .atRest => 0
  | .cl => (4 - q.idx.toNat) + 4 + len.toNat + 4
  | .ct => (4 - q.idx.toNat) + len.toNat + 4
  | .cp => q.payRem.toNat + 4
  | .cc => 4 - q.idx.toNat

/-- One byte of the serializer from inside a chunk: it waits for a payload byte, or it gives a byte and fewer are left. -/
theorem chkByte_progress {tag len : Word} {s : State} (h : ChkAt len s.seq) :
    (s.seq.chk = .cp ∧ s.din = []) ∨
    ∃ x t, chkByte tag len State.inPop s = some (x, t) ∧
      (t.seq.chk = .atRest ∨ (ChkAt len t.seq ∧ chkLeft len t.seq < chkLeft len s.seq)) := by
  unfold ChkAt at h
  cases hs : s.seq.chk with
  | atRest => rw [hs] at h; exact h.elim
  | cl =>
    rw [hs] at h
    right
    obtain ⟨hi, hn⟩ := h
    generalize hu : s.atFirst (fun s => (s.setCrc Config.crcStart).setPayRem len) = u
    have hui : u.seq.idx = s.seq.idx := by rw [← hu]; simp only [State.atFirst]; split <;> rfl
    have hup : u.seq.chk = .cl := by rw [← hu]; simp only [State.atFirst]; split <;> simpa using hs
    have hun : u.seq.payRem = len := by
      rw [← hu]; simp only [State.atFirst]
      by_cases h0 : s.seq.idx = 0
      · rw [if_pos h0]; rfl
      · rw [if_neg h0]; exact hn h0
    obtain ⟨x, hx⟩ := emitField_some (field := be32 len) (State.setChk .ct) (s := u) (by rw [hui]; exact hi)
    refine ⟨x, _, by simp only [chkByte, hs, hu]; exact hx, .inr ?_⟩
    have hlen : (be32 len).length = 4 := rfl
    rw [hui, hlen]
    by_cases hl : s.seq.idx.toNat + 1 = 4
    · rw [if_pos hl]
      simp only [ChkAt, chkLeft, hs, State.setChk_seq_chk, State.setChk_seq_idx, State.setChk_seq_payRem,
        State.setIdx_seq_idx, State.setIdx_seq_payRem, hun]
      simp; omega
    · rw [if_neg hl]
      have h1 := idx_succ (k := 4) (by omega) hi
      simp only [ChkAt, chkLeft, hs, State.setIdx_seq_chk, State.setIdx_seq_idx, State.setIdx_seq_payRem, hup, hun, h1]
      exact ⟨⟨by omega, fun _ => trivial⟩, by omega⟩
  | ct =>
    rw [hs] at h
    right
    obtain ⟨hi, hn⟩ := h
    obtain ⟨x, hx⟩ := emitField_some (field := be32 tag) (State.setChk (if s.seq.payRem = 0 then .cc else .cp)) (s := s) hi
    refine ⟨x, _, by simp only [chkByte, hs, hx, Option.map_some, foldCrc]; rfl, .inr ?_⟩
    have hlen : (be32 tag).length = 4 := rfl
    rw [hlen]
    by_cases hl : s.seq.idx.toNat + 1 = 4
    · simp only [if_pos hl]
      by_cases hz : s.seq.payRem = 0
      · simp only [if_pos hz, ChkAt, chkLeft, hs, State.setCrc_seq, State.setChk_seq_chk, State.setChk_seq_idx,
          State.setIdx_seq_idx]
        simp; omega
      · have hpos : 0 < s.seq.payRem.toNat := by
          rcases Nat.eq_zero_or_pos s.seq.payRem.toNat with h0 | h0
          · exact absurd (BitVec.eq_of_toNat_eq h0) hz
          · exact h0
        simp only [if_neg hz, ChkAt, chkLeft, hs, State.setCrc_seq, State.setChk_seq_chk, State.setChk_seq_idx,
          State.setChk_seq_payRem, State.setIdx_seq_payRem, State.setIdx_seq_idx]
        rw [hn] at hpos ⊢
        exact ⟨⟨trivial, hpos, Nat.le_refl _⟩, by omega⟩
    · simp only [if_neg hl]
      have h1 := idx_succ (k := 4) (by omega) hi
      simp only [ChkAt, chkLeft, hs, State.setCrc_seq, State.setIdx_seq_chk, State.setIdx_seq_idx,
        State.setIdx_seq_payRem, h1]
      exact ⟨⟨by omega, hn⟩, by omega⟩
  | cp =>
    rw [hs] at h
    obtain ⟨hi, hb, hn⟩ := h
    cases hd : s.din with
    | nil => exact .inl ⟨rfl, rfl⟩
    | cons x r =>
      right
      have hp : s.inPop = some (x, { s with din := r }) := by simp [State.inPop, hd]
      refine ⟨x, _, chkByte_cp hs hp, .inr ?_⟩
      have hb1 : (s.seq.payRem - 1).toNat = s.seq.payRem.toNat - 1 := sub_ofNat_toNat (k := 1) (by omega)
      simp only [ChkAt, chkLeft, hs, State.setSerial_seq_chk, State.setSerial_seq_idx, State.setSerial_seq_payRem, hi]
      by_cases hz : s.seq.payRem - 1 = 0
      · rw [if_pos hz]; simp; omega
      · rw [if_neg hz]
        have hpos : 0 < (s.seq.payRem - 1).toNat := by
          rcases Nat.eq_zero_or_pos (s.seq.payRem - 1).toNat with h0 | h0
          · exact absurd (BitVec.eq_of_toNat_eq h0) hz
          · exact h0
        rw [hb1] at hpos
        simp only [hb1]
        exact ⟨⟨trivial, hpos, by omega⟩, by omega⟩
  | cc =>
    rw [hs] at h
    right
    obtain ⟨x, hx⟩ := emitField_some (field := be32 (crcChecksum s.crc)) (State.setChk .atRest) (s := s) h
    refine ⟨x, _, by simp only [chkByte, hs]; exact hx, ?_⟩
    have hlen : (be32 (crcChecksum s.crc)).length = 4 := rfl
    rw [hlen]
    by_cases hl : s.seq.idx.toNat + 1 = 4
    · rw [if_pos hl]; exact .inl rfl
    · rw [if_neg hl]
      have h1 := idx_succ (k := 4) (by omega) h
      simp only [ChkAt, chkLeft, hs, State.setIdx_seq_chk, State.setIdx_seq_idx, h1]
      exact .inr ⟨by omega, by omega⟩

/-! ### Inside an operation that can hold -/

/-- Inside `SBW.WRAP n`. -/
def Wrapping (n : Word) (s : State) : Prop :=
  s.busy = true ∧ s.latch = ⟨0x30, .length n⟩ ∧ s.seq.frame = .stream ∧ SbwAt n s.seq

/-- Inside `CHK.MAKE tag, len`. -/
def Serializing (tag len : Word) (s : State) : Prop :=
  s.busy = true ∧ s.latch = ⟨0x50, .chunk tag len⟩ ∧ s.seq.frame = .chunk ∧ ChkAt len s.seq

/-- A byte step that is the last of its operation: it completes with status `OK` and result 0. -/
def Completes (s t : State) : Prop :=
  t.busy = false ∧ t.seq = Sequencer.zero ∧ t.cpl = s.cpl ++ [⟨s.latch.op, .ok, 0⟩]

theorem frameByte_busy {s t : State} {x : Byte} (h : frameByte s = some (x, t)) :
    t.busy = s.busy ∧ t.latch = s.latch ∧ t.cpl = s.cpl := by
  obtain ⟨ht, -⟩ := frameByte_cases h
  rw [ht]; exact ⟨rfl, rfl, rfl⟩

/-- A byte that ends its frame for good completes the operation. -/
theorem beat_completes {s u : State} {x : Byte} (h : frameByte s = some (x, u)) (hf : u.seq.frame = .atRest) :
    beat s = some ((u.emit [x]).complete .ok 0) ∧ Completes s ((u.emit [x]).complete .ok 0) := by
  obtain ⟨-, h2, h3⟩ := frameByte_busy h
  refine ⟨beat_last h hf, rfl, rfl, ?_⟩
  show u.cpl ++ [⟨u.latch.op, .ok, 0⟩] = _
  rw [h2, h3]

/-- One byte step from inside `SBW.WRAP`: it holds, it completes, or it goes on with fewer byte steps left. -/
theorem Wrapping.beat {n : Word} {s : State} (h : Wrapping n s) :
    holding s = true ∨ ∃ t, beat s = some t ∧
      (Completes s t ∨ (Wrapping n t ∧ sbwLeft n t.seq < sbwLeft n s.seq)) := by
  obtain ⟨hb, hl, hf, hat⟩ := h
  have hfr : frameByte s = (sbwByte n State.inPop s).map (afterByte streamDone (State.setFrame .atRest)) := by
    simp only [frameByte, hf, hl]
  obtain ⟨hp, hd⟩ | ⟨x, u, hu, hnext⟩ := sbwByte_progress hat
  · left; simp [holding, hf, hl, hp, hd]
  · right
    obtain ⟨k1, k2⟩ := keeps_frame (fun _ ho => ho.sbwByte n ho.inPop) hu
    rw [hu, Option.map_some] at hfr
    by_cases hr : u.seq.sbw = .atRest
    · have hdone : streamDone u = true := by simp [streamDone, hr]
      simp only [afterByte, hdone, if_true] at hfr
      obtain ⟨h1, h2⟩ := beat_completes hfr rfl
      exact ⟨_, h1, .inl h2⟩
    · have hdone : streamDone u = false := by simp [streamDone, hr]
      simp only [afterByte, hdone] at hfr
      obtain hr' | ⟨hat', hlt⟩ := hnext
      · exact absurd hr' hr
      · refine ⟨_, beat_running hfr (by rw [show (if false = true then _ else u) = u from rfl, k1, hf]; decide), .inr ?_⟩
        obtain ⟨b1, b2, -⟩ := frameByte_busy hfr
        exact ⟨⟨b1.trans hb, b2.trans hl, k1.trans hf, hat'⟩, hlt⟩

/-- One byte step from inside `CHK.MAKE`. -/
theorem Serializing.beat {tag len : Word} {s : State} (h : Serializing tag len s) :
    holding s = true ∨ ∃ t, beat s = some t ∧
      (Completes s t ∨ (Serializing tag len t ∧ chkLeft len t.seq < chkLeft len s.seq)) := by
  obtain ⟨hb, hl, hf, hat⟩ := h
  have hfr : frameByte s = (chkByte tag len State.inPop s).map (afterByte chunkDone (State.setFrame .atRest)) := by
    simp only [frameByte, hf, hl]
  obtain ⟨hp, hd⟩ | ⟨x, u, hu, hnext⟩ := chkByte_progress (tag := tag) hat
  · left; simp [holding, hf, hl, hp, hd]
  · right
    obtain ⟨k1, k2⟩ := keeps_frame (fun _ ho => ho.chkByte tag len ho.inPop) hu
    rw [hu, Option.map_some] at hfr
    by_cases hr : u.seq.chk = .atRest
    · have hdone : chunkDone u = true := by simp [chunkDone, hr]
      simp only [afterByte, hdone, if_true] at hfr
      obtain ⟨h1, h2⟩ := beat_completes hfr rfl
      exact ⟨_, h1, .inl h2⟩
    · have hdone : chunkDone u = false := by simp [chunkDone, hr]
      simp only [afterByte, hdone] at hfr
      obtain hr' | ⟨hat', hlt⟩ := hnext
      · exact absurd hr' hr
      · refine ⟨_, beat_running hfr (by rw [show (if false = true then _ else u) = u from rfl, k1, hf]; decide), .inr ?_⟩
        obtain ⟨b1, b2, -⟩ := frameByte_busy hfr
        exact ⟨⟨b1.trans hb, b2.trans hl, k1.trans hf, hat'⟩, hlt⟩

theorem beat_idle {s : State} (h : s.seq = Sequencer.zero) : beat s = none := beat_atRest (by rw [h]; rfl)

/-- Byte steps that stay inside `P` with fewer and fewer left come to a pause: the operation holds, still inside `P`, or
has completed. -/
theorem drive_pauses {P : State → Prop} {left : State → Nat}
    (hstep : ∀ s, P s → holding s = true ∨ ∃ t, beat s = some t ∧ (Completes s t ∨ (P t ∧ left t < left s)))
    (k : Nat) (s : State) (hs : P s) (hk : left s < k) :
    (P (drive k s) ∧ holding (drive k s) = true ∧ (∃ j, Beats j s (drive k s))) ∨
    (∃ u j, P u ∧ Beats j s u ∧ beat u = some (drive k s) ∧ Completes u (drive k s)) := by
  induction k generalizing s with
  | zero => omega
  | succ k ih =>
    obtain hh | ⟨t, ht, hc | ⟨hP, hlt⟩⟩ := hstep s hs
    · rw [drive_paused (beat_holding hh)]
      exact .inl ⟨hs, hh, 0, rfl⟩
    · right
      have : drive (k + 1) s = t := by simp only [drive, ht]; exact drive_paused (beat_idle hc.2.1) k
      rw [this]
      exact ⟨s, 0, hs, rfl, ht, hc⟩
    · have : drive (k + 1) s = drive k t := by simp only [drive, ht]
      rw [this]
      obtain ⟨h1, h2, j, h3⟩ | ⟨u, j, h1, h2, h3⟩ := ih t hP (by omega)
      · exact .inl ⟨h1, h2, j + 1, t, ht, h3⟩
      · exact .inr ⟨u, j + 1, h1, ⟨t, ht, h2⟩, h3⟩

theorem atPause_idle {s : State} (h : s.busy = false) : atPause s = .next s := by simp [atPause, h]

theorem atPause_holding {s : State} (h : holding s = true) : atPause s = .next s := by simp [atPause, h]

theorem sbwLeft_lt (n : Word) (s : State) : sbwLeft n s.seq < beatBound := by
  have hn := n.isLt
  have hi := s.seq.inRem.isLt
  simp only [sbwLeft, beatBound]
  split <;> omega

theorem chkLeft_lt (len : Word) (s : State) : chkLeft len s.seq < beatBound := by
  have hn := len.isLt
  have hi := s.seq.payRem.isLt
  simp only [chkLeft, beatBound]
  split <;> omega

/-- Everything `settle` can do with an operation that can hold: it completes it, or it stops where it waits for `DIN`. -/
theorem settle_cases {P : State → Prop} {left : State → Nat}
    (hstep : ∀ s, P s → holding s = true ∨ ∃ t, beat s = some t ∧ (Completes s t ∨ (P t ∧ left t < left s)))
    {s : State} (hs : P s) (hk : left s < beatBound) :
    ∃ t, settle s = .next t ∧ t = drive beatBound s ∧
      ((P t ∧ holding t = true) ∨ (t.busy = false ∧ t.seq = Sequencer.zero)) := by
  obtain ⟨h1, h2, -⟩ | ⟨u, j, h1, h2, h3, hc⟩ := drive_pauses hstep beatBound s hs hk
  · exact ⟨_, atPause_holding h2, rfl, .inl ⟨h1, h2⟩⟩
  · exact ⟨_, atPause_idle hc.1, rfl, .inr ⟨hc.1, hc.2.1⟩⟩

theorem Wrapping.settle {n : Word} {s : State} (h : Wrapping n s) :
    ∃ t, settle s = .next t ∧ t = drive beatBound s ∧
      ((Wrapping n t ∧ holding t = true) ∨ (t.busy = false ∧ t.seq = Sequencer.zero)) :=
  settle_cases (left := fun s => sbwLeft n s.seq) (fun _ hs => hs.beat) h (sbwLeft_lt n s)

theorem Serializing.settle {tag len : Word} {s : State} (h : Serializing tag len s) :
    ∃ t, settle s = .next t ∧ t = drive beatBound s ∧
      ((Serializing tag len t ∧ holding t = true) ∨ (t.busy = false ∧ t.seq = Sequencer.zero)) :=
  settle_cases (left := fun s => chkLeft len s.seq) (fun _ hs => hs.beat) h (chkLeft_lt len s)

theorem wrapping_startSbwWrap (n : Word) (s : State) : Wrapping n (startSbwWrap n s) :=
  ⟨rfl, rfl, rfl, by show (0 : BitVec 4).toNat < 2; decide, fun h => absurd rfl h⟩

theorem serializing_startChkMake (tag len : Word) (s : State) : Serializing tag len (startChkMake tag len s) :=
  ⟨rfl, rfl, rfl, by show (0 : BitVec 4).toNat < 4; decide, fun h => absurd rfl h⟩

/-! ### The meanings, said once -/

theorem settle_raise (e : ExceptionCause) (s : State) : settle (s.raise e) = .next (s.raise e) := by
  rw [settle, drive_atRest rfl]; exact atPause_idle rfl

/-- `SBW.WRAP` with its bytes on `DIN`. -/
theorem execSbwWrap_whole (n : Word) (raw rest : List Byte) (s : State) (hd : s.din = raw ++ rest)
    (hn : n.toNat = raw.length) :
    ∃ t, Draws frameByte (zwrap raw) (startSbwWrap n s) t ∧ t.seq.frame = .atRest ∧
      t = { (startSbwWrap n s) with
              a := (adlerRun adlerStart raw).1, b := (adlerRun adlerStart raw).2, din := rest, seq := t.seq } ∧
      execSbwWrap n s = .next ((t.emit (zwrap raw)).complete .ok 0) := by
  obtain ⟨t, h1, h2, h3⟩ := draws_startSbwWrap n raw rest s hd hn
  refine ⟨t, h1, h2, h3, ?_⟩
  have hlen : (zwrap raw).length ≤ beatBound := by
    rw [zwrap_length]
    have := n.isLt
    have := streamLength_le (n := raw.length) (by omega)
    simp only [beatBound]; omega
  rw [execSbwWrap, settle, drive_finish h1 (zwrap_ne_nil raw) h2 _ hlen]
  exact atPause_idle rfl

/-- `CHK.MAKE` with its bytes on `DIN`. -/
theorem execChkMake_whole (tag len : Word) (p rest : List Byte) (s : State) (hd : s.din = p ++ rest)
    (hn : len.toNat = p.length) :
    ∃ t, Draws frameByte (chunk tag p) (startChkMake tag len s) t ∧ t.seq.frame = .atRest ∧
      t = { (startChkMake tag len s) with
              crc := crcRun Config.crcStart (be32 tag ++ p), din := rest, seq := t.seq } ∧
      execChkMake tag len s = .next ((t.emit (chunk tag p)).complete .ok 0) := by
  obtain ⟨t, h1, h2, h3⟩ := draws_startChkMake tag len p rest s hd hn
  refine ⟨t, h1, h2, h3, ?_⟩
  have hlen : (chunk tag p).length ≤ beatBound := by
    rw [chunk_length]
    have := len.isLt
    simp only [beatBound]; omega
  rw [execChkMake, settle, drive_finish h1 (chunk_ne_nil tag p) h2 _ hlen]
  exact atPause_idle rfl

/-- `SLG.GEN` with legal dimensions. -/
theorem execSlgGen_whole (w h : Word) (r g b : Byte) (hl : dimsLegal w h = true) (s : State) :
    ∃ t, Draws frameByte (raster w.toNat h.toNat r g b) (startSlgGen w h r g b s) t ∧ t.seq.frame = .atRest ∧
      t = { (startSlgGen w h r g b s) with seq := t.seq } ∧
      execSlgGen w h r g b s = .next ((t.emit (raster w.toNat h.toNat r g b)).complete .ok 0) := by
  obtain ⟨t, h1, h2, h3⟩ := draws_startSlgGen w h r g b hl s
  refine ⟨t, h1, h2, h3, ?_⟩
  have hlen : (raster w.toNat h.toNat r g b).length ≤ beatBound := by
    rw [raster_length]
    have := rasterLength_lt hl
    simp only [beatBound]; omega
  rw [execSlgGen, settle, drive_finish h1 (raster_ne_nil ((dimsLegal_iff w h).mp hl).2.2.1 r g b) h2 _ hlen]
  exact atPause_idle rfl

theorem file_ne_nil (w h : Word) (r g b : Byte) : file w h r g b ≠ [] := by simp [file, Config.signature]

/-- A file's length (R244). -/
theorem file_length (w h : Word) (r g b : Byte) : (file w h r g b).length = fileLength w.toNat h.toNat := by
  simp only [file, List.length_append, chunk_length, zwrap_length, raster_length, headerPayload_length, fileLength]
  show 8 + _ + _ + _ = _
  simp only [List.length_nil]; omega

/-- `ENC.ENCODE` with legal dimensions. -/
theorem execEncEncode_whole (w h : Word) (r g b : Byte) (hl : dimsLegal w h = true) (s : State) :
    ∃ t, Draws frameByte (file w h r g b) (startEncEncode w h r g b s) t ∧ t.seq.frame = .atRest ∧
      t = { (startEncEncode w h r g b s) with
              crc := crcRun Config.crcStart (be32 Config.tagIEND)
              a := (adlerRun adlerStart (raster w.toNat h.toNat r g b)).1
              b := (adlerRun adlerStart (raster w.toNat h.toNat r g b)).2
              seq := t.seq } ∧
      execEncEncode w h r g b s = .next ((t.emit (file w h r g b)).complete .ok 0) := by
  obtain ⟨t, h1, h2, h3⟩ := draws_startEncEncode w h r g b hl s
  refine ⟨t, h1, h2, h3, ?_⟩
  have hlen : (file w h r g b).length ≤ beatBound := by
    rw [file_length]
    have h4 := rasterLength_lt hl
    have := streamLength_le (n := rasterLength w.toNat h.toNat) (by omega)
    simp only [fileLength, beatBound]; omega
  rw [execEncEncode, settle, drive_finish h1 (file_ne_nil w h r g b) h2 _ hlen]
  exact atPause_idle rfl

theorem startSlgGen_illegal {w h : Word} (r g b : Byte) (hl : dimsLegal w h = false) (s : State) :
    startSlgGen w h r g b s = (s.take (Instr.slgGen w h r g b).latch).raise .invalidDimensions := by
  simp [startSlgGen, hl]

theorem startEncEncode_illegal {w h : Word} (r g b : Byte) (hl : dimsLegal w h = false) (s : State) :
    startEncEncode w h r g b s = (s.take (Instr.encEncode w h r g b).latch).raise .invalidDimensions := by
  simp [startEncEncode, hl]

/-- Every command is answered with a next state: completed, or holding inside `SBW.WRAP` or `CHK.MAKE`. -/
theorem exec_next (i : Instr) (s : State) : ∃ t, exec i s = .next t ∧
    ((t.busy = false ∧ t.seq = Sequencer.zero) ∨
      (∃ n, i = .sbwWrap n ∧ Wrapping n t ∧ holding t = true) ∨
      (∃ tag len, i = .chkMake tag len ∧ Serializing tag len t ∧ holding t = true)) := by
  cases i with
  | crcInit => exact ⟨_, rfl, .inl ⟨rfl, rfl⟩⟩
  | crcUpd x => exact ⟨_, rfl, .inl ⟨rfl, rfl⟩⟩
  | crcFin => exact ⟨_, rfl, .inl ⟨rfl, rfl⟩⟩
  | adlInit => exact ⟨_, rfl, .inl ⟨rfl, rfl⟩⟩
  | adlUpd x => exact ⟨_, rfl, .inl ⟨rfl, rfl⟩⟩
  | adlFin => exact ⟨_, rfl, .inl ⟨rfl, rfl⟩⟩
  | sbwWrap n =>
    obtain ⟨t, h1, -, h2⟩ := (wrapping_startSbwWrap n s).settle
    refine ⟨t, h1, h2.elim (fun h => .inr (.inl ⟨n, rfl, h⟩)) .inl⟩
  | chkMake tag len =>
    obtain ⟨t, h1, -, h2⟩ := (serializing_startChkMake tag len s).settle
    refine ⟨t, h1, h2.elim (fun h => .inr (.inr ⟨tag, len, rfl, h⟩)) .inl⟩
  | slgGen w h r g b =>
    cases hl : dimsLegal w h with
    | true =>
      obtain ⟨t, -, -, -, h4⟩ := execSlgGen_whole w h r g b hl s
      exact ⟨_, h4, .inl ⟨rfl, rfl⟩⟩
    | false =>
      refine ⟨(s.take (Instr.slgGen w h r g b).latch).raise .invalidDimensions, ?_, .inl ⟨rfl, rfl⟩⟩
      show settle _ = _
      rw [startSlgGen_illegal r g b hl]; exact settle_raise _ _
  | encEncode w h r g b =>
    cases hl : dimsLegal w h with
    | true =>
      obtain ⟨t, -, -, -, h4⟩ := execEncEncode_whole w h r g b hl s
      exact ⟨_, h4, .inl ⟨rfl, rfl⟩⟩
    | false =>
      refine ⟨(s.take (Instr.encEncode w h r g b).latch).raise .invalidDimensions, ?_, .inl ⟨rfl, rfl⟩⟩
      show settle _ = _
      rw [startEncEncode_illegal r g b hl]; exact settle_raise _ _

end Sys2Proof.Machine
end

