-- ==== Sys2Proof/Tests/Slice0.lean ====
section
/-! SUPPORT. The model's own tests: packets written out from spec/30_encoding.md, single steps with the values of
spec/95_test_vectors.md, and a witness for the hypotheses of every statement. -/

namespace Sys2Proof.Tests

open Sys2Proof Sys2Proof.Machine

/-- One thing seen of the next state. -/
def view {α : Type} (f : State → α) : Host.Outcome State Fault Refusal → Option α
  | .next t => some (f t)
  | .fault _ => none
  | .refused _ => none

theorem view_some {α : Type} {f : State → α} {o : Host.Outcome State Fault Refusal} {x : α} (h : view f o = some x) :
    ∃ t, o = .next t ∧ f t = x := by
  cases o with
  | next t => exact ⟨t, rfl, by simpa [view] using h⟩
  | fault r => cases h
  | refused r => cases h

/-- The state after reset with bytes on `CMD` and `DIN`. -/
def loaded (cmd din : List Byte) : State := { State.reset with cmd := cmd, din := din }

/-- The state after reset with other register values. -/
def primed (crc : Word) (a b : Half) : State := { State.reset with crc := crc, a := a, b := b }

/-! ### Well-formedness: one ill-formed packet for each check -/

theorem test_wf_refuses_no_bytes : Packet.wf [] = false := by decide
theorem test_wf_refuses_illegal_opcode : Packet.wf [0x13] = false := by decide
theorem test_wf_refuses_missing_operand : Packet.wf [0x30, 0x00, 0x00, 0x00] = false := by decide
theorem test_wf_refuses_trailing_byte : Packet.wf [0x10, 0x00] = false := by decide
theorem test_wf_takes_whole_packet : Packet.wf [0x30, 0x00, 0x00, 0x00, 0x0E] = true := by decide

/-! ### What the host can issue (R290) -/

theorem test_issue_queues_a_whole_packet :
    ((State.reset.issue (.illegal ⟨0x7F, by decide⟩)).issue (.command (.crcUpd 0x10))).cmd = [0x7F, 0x11, 0x10] := by decide

/-! ### Decoding: every operation's packet written out from R108 and R110 -/

theorem test_decode_crcInit : decode [0x10, 0x55] = .command .crcInit [0x55] := by decide
theorem test_decode_crcUpd : decode [0x11, 0x10] = .command (.crcUpd 0x10) [] := by decide
theorem test_decode_crcFin : decode [0x12] = .command .crcFin [] := by decide
theorem test_decode_adlInit : decode [0x20] = .command .adlInit [] := by decide
theorem test_decode_adlUpd : decode [0x21, 0x57] = .command (.adlUpd 0x57) [] := by decide
theorem test_decode_adlFin : decode [0x22] = .command .adlFin [] := by decide
theorem test_decode_sbwWrap : decode [0x30, 0x01, 0x02, 0x03, 0x04] = .command (.sbwWrap 0x01020304) [] := by decide
theorem test_decode_slgGen :
    decode [0x40, 0x00, 0x00, 0x00, 0x02, 0x01, 0x00, 0x00, 0x03, 0xFF, 0x0A, 0x0B] =
      .command (.slgGen 2 0x01000003 0xFF 0x0A 0x0B) [] := by decide
theorem test_decode_chkMake :
    decode [0x50, 0x49, 0x48, 0x44, 0x52, 0x00, 0x00, 0x00, 0x0D] = .command (.chkMake 0x49484452 13) [] := by decide
theorem test_decode_encEncode :
    decode [0x60, 0x00, 0x00, 0x00, 0x64, 0x00, 0x00, 0x01, 0x2C, 0x11, 0x22, 0x33] =
      .command (.encEncode 100 300 0x11 0x22 0x33) [] := by decide
theorem test_decode_illegal : decode [0x61, 0x10] = .reject (.illegalOpcode 0x61) := by decide
theorem test_decode_incomplete : decode [0x50, 0x49, 0x48] = .reject (.incomplete .chkMake) := by decide
theorem test_decode_nothing : decode [] = .reject .noCommand := by decide

/-- V51: `10 11 12 12` is `CRC.INIT; CRC.UPD 0x12; CRC.FIN`. -/
theorem test_decode_sequence :
    decode [0x10, 0x11, 0x12, 0x12] = .command .crcInit [0x11, 0x12, 0x12] ∧
      decode [0x11, 0x12, 0x12] = .command (.crcUpd 0x12) [0x12] := by decide

/-- A table word holds packet byte `k` in bits `8k+7 .. 8k`. -/
theorem test_table_word_sbwWrap : decodeTableWord 40 0x0E00000030 = some (.sbwWrap 14) := by decide
theorem test_table_word_short : decodeTableWord 8 0xFF50 = some (.chkMake 0 0) := by decide
theorem test_table_word_encEncode :
    decodeTableWord 96 0x3322112C0100006400000060 = some (.encEncode 100 300 0x11 0x22 0x33) := by decide
theorem test_table_word_illegal : decodeTableWord 8 0x7F = none := by decide

/-! ### The CRC unit -/

/-- V3. -/
theorem test_crcUpd : view State.crc (exec (.crcUpd 0x61) (primed 0xFFFFFFFF 1 0)) = some 0x174841BC := by decide
/-- V7. -/
theorem test_crcUpd_mid : view State.crc (exec (.crcUpd 0x9A) (primed 0x12345678 1 0)) = some 0x4E16B702 := by decide
/-- V3. -/
theorem test_crcFin :
    view State.cpl (exec .crcFin (primed 0x174841BC 1 0)) = some [⟨0x12, .ok, 0xE8B7BE43⟩] := by decide
theorem test_crcInit : view State.crc (exec .crcInit (primed 0x12345678 1 0)) = some 0xFFFFFFFF := by decide
/-- V1. -/
theorem test_crcTable : crcTable[255]? = some 0x2D02EF8D := by decide +kernel
/-- V4. -/
theorem test_crc32_IDAT : crc32 [0x49, 0x44, 0x41, 0x54] = 0x35AF061E := by decide +kernel

/-! ### The Adler-32 unit -/

/-- V15: the sum is exactly 65521. -/
theorem test_adlUpd_wrap :
    view (fun t => (t.a, t.b)) (exec (.adlUpd 0xFF) (primed 0 65266 100)) = some (0, 100) := by decide
/-- V15. -/
theorem test_adlUpd_both :
    view (fun t => (t.a, t.b)) (exec (.adlUpd 0xFF) (primed 0 65520 65520)) = some (254, 253) := by decide
/-- V12. -/
theorem test_adlFin : view State.cpl (exec .adlFin (primed 0 920 4582)) = some [⟨0x22, .ok, 0x11E60398⟩] := by decide
/-- R151. -/
theorem test_adlInit :
    view (fun t => (t.a, t.b)) (exec .adlInit (primed 0 920 4582)) = some (1, 0) := by decide

/-! ### The composite operations -/

/-- V20. -/
theorem test_sbwWrap :
    view (fun t => (t.dout, t.cpl, t.a, t.b))
      (exec (.sbwWrap 14) (loaded [] [0, 0xFF, 0, 0, 0xFF, 0, 0, 0, 0xFF, 0, 0, 0xFF, 0, 0])) =
      some ([0x78, 0x01, 0x01, 0x0E, 0x00, 0xF1, 0xFF, 0, 0xFF, 0, 0, 0xFF, 0, 0, 0, 0xFF, 0, 0, 0xFF, 0, 0,
        0x1F, 0xEE, 0x03, 0xFD], [⟨0x30, .ok, 0⟩], 1021, 8174) := by decide +kernel

/-- One byte short of its two (R66): the header and the one byte are out, nothing is completed. -/
theorem test_sbwWrap_holds :
    view (fun t => (t.dout, t.cpl, t.busy, t.seq.inRem)) (exec (.sbwWrap 2) (loaded [] [0x07])) =
      some ([0x78, 0x01, 0x01, 0x02, 0x00, 0xFD, 0xFF, 0x07], [], true, 1) := by decide +kernel

/-- V26. -/
theorem test_slgGen :
    view State.dout (exec (.slgGen 1 3 1 2 3) State.reset) = some [0, 1, 2, 3, 0, 1, 2, 3, 0, 1, 2, 3] := by
  decide +kernel
/-- V29. -/
theorem test_slgGen_refused :
    view (fun t => (t.dout, t.cpl)) (exec (.slgGen 1 4097 0 0 0) State.reset) =
      some ([], [⟨0x40, .invalidDimensions, 0⟩]) := by decide

/-- V32. -/
theorem test_chkMake :
    view (fun t => (t.dout, t.crc)) (exec (.chkMake 0x61626364 3) (loaded [] [1, 2, 3])) =
      some ([0, 0, 0, 3, 0x61, 0x62, 0x63, 0x64, 1, 2, 3, 0x35, 0xBA, 0x02, 0xB8], 0xCA45FD47) := by decide +kernel
/-- V30. -/
theorem test_chkMake_empty :
    view State.dout (exec (.chkMake 0x49454E44 0) State.reset) =
      some [0, 0, 0, 0, 0x49, 0x45, 0x4E, 0x44, 0xAE, 0x42, 0x60, 0x82] := by decide +kernel

/-- V41: the smallest file. -/
theorem test_encEncode :
    view (fun t => (t.dout, t.crc, t.a, t.b)) (exec (.encEncode 1 1 0x12 0x34 0x56) State.reset) =
      some ([0x89, 0x50, 0x4E, 0x47, 0x0D, 0x0A, 0x1A, 0x0A, 0x00, 0x00, 0x00, 0x0D, 0x49, 0x48, 0x44, 0x52,
        0x00, 0x00, 0x00, 0x01, 0x00, 0x00, 0x00, 0x01, 0x08, 0x02, 0x00, 0x00, 0x00, 0x90, 0x77, 0x53, 0xDE,
        0x00, 0x00, 0x00, 0x0F, 0x49, 0x44, 0x41, 0x54, 0x78, 0x01, 0x01, 0x04, 0x00, 0xFB, 0xFF, 0x00, 0x12, 0x34, 0x56,
        0x00, 0xF8, 0x00, 0x9D, 0xF8, 0xD7, 0x64, 0x8C, 0x00, 0x00, 0x00, 0x00, 0x49, 0x45, 0x4E, 0x44,
        0xAE, 0x42, 0x60, 0x82], 0x51BD9F7D, 0x009D, 0x00F8) := by decide +kernel
/-- V44: the six bytes of the record. -/
theorem test_encEncode_refused :
    view (fun t => (t.dout, t.cpl.map Completion.bytes)) (exec (.encEncode 4097 1 0 0 0) State.reset) =
      some ([], [[0x60, 0x01, 0, 0, 0, 0]]) := by decide

/-! ### Steps from `CMD` -/

/-- V50: the byte after an illegal byte is a new opcode. -/
theorem test_step_illegal :
    view (fun t => (t.cmd, t.cpl.map Completion.bytes)) (step (loaded [0x7F, 0x10] [])) =
      some ([0x10], [[0x7F, 0x02, 0, 0, 0, 0]]) := by decide

/-- The table word of `SBW.WRAP 0` is fetched and run by the very next step (V21). -/
theorem test_withFetchWord :
    view State.dout (step (State.reset.withFetchWord 8 0x30)) =
      some [0x78, 0x01, 0x01, 0x00, 0x00, 0xFF, 0xFF, 0x00, 0x00, 0x00, 0x01] := by decide +kernel

/-- A byte step of `SBW.WRAP` is one `DOUT` byte: after the command is taken, two bytes. -/
theorem test_ticks :
    view (fun t => (t.dout, t.a, t.busy)) (ticks 3 (loaded [0x30, 0, 0, 0, 1] [])) = some ([0x78, 0x01], 1, true) := by
  decide +kernel

/-! ### The assembler: the examples of R114 -/

theorem test_assemble_upd : assembleLine "CRC.UPD 0x61 ; a".toList = some (.commands [.crcUpd 0x61]) := by
  decide +kernel
theorem test_assemble_tag : assembleLine "CHK.MAKE \"IEND\", 0".toList = some (.commands [.chkMake 0x49454E44 0]) := by
  decide +kernel
theorem test_assemble_encode :
    assembleLine "ENC.ENCODE 2, 2, 255, 0, 0".toList = some (.commands [.encEncode 2 2 255 0 0]) := by decide +kernel
theorem test_assemble_pseudo :
    assembleLine "CRC32 0x61, 0x62".toList = some (.commands [.crcInit, .crcUpd 0x61, .crcUpd 0x62, .crcFin]) := by
  decide +kernel

/-! ### Witnesses: a state and operands that meet the hypotheses of each statement, clause by clause

Statements with no hypothesis (the per-command statements of the primitive operations, `zwrap`'s and `file`'s shape, the
known values, the packet layouts) need none. -/

/-- `RaiseAppendsARecordOnly`: a sequencer at rest. -/
theorem witness_raise : State.reset.seq = Sequencer.zero := by decide

/-- `AdlUpdFoldsOneByte`, the clause on reduced sums, at its upper end. -/
theorem witness_adlUpd : (primed 0 65520 65520).a.toNat < 65521 ∧ (primed 0 65520 65520).b.toNat < 65521 := by decide

/-- `PartitionIsGreedy`: a raw sequence that is not empty and has a block before its last (65536 bytes). -/
theorem witness_partition :
    ∃ raw : List Byte, raw ≠ [] ∧ 0 + 1 < blockCount raw.length ∧ 1 < blockCount raw.length :=
  ⟨List.replicate 65536 0, by rw [List.replicate_succ]; exact List.cons_ne_nil _ _,
    by rw [List.length_replicate]; decide, by rw [List.length_replicate]; decide⟩

/-- `WrapEmitsTheStream`, first clause: no raw byte at all, and one with a byte left over. -/
theorem witness_wrap :
    ((loaded [] []).din = [] ++ [] ∧ ([] : List Byte).length = (0 : Word).toNat) ∧
    ((loaded [] [7, 8]).din = [7] ++ [8] ∧ ([7] : List Byte).length = (1 : Word).toNat) := by decide

/-- `WrapEmitsTheStream`, last clause, and `WrapHoldsOnEmptyInput`: one byte short of two, and none of the largest `n`. -/
theorem witness_wrap_holds :
    ((loaded [] [7]).din.length < (2 : Word).toNat ∧ (loaded [] [7]).din.length + [(8 : Byte)].length = (2 : Word).toNat) ∧
    (loaded [] []).din.length < (0xFFFFFFFF : Word).toNat := by decide

/-- `WrapCornerCases`: raw sequences of the four lengths. -/
theorem witness_wrap_lengths :
    (∃ raw : List Byte, raw.length = 65535) ∧ (∃ raw : List Byte, raw.length = 65536) ∧
    (∃ raw : List Byte, raw.length = 131070) ∧ (∃ raw : List Byte, raw.length = 50335744) ∧ 767 < 768 :=
  ⟨⟨_, List.length_replicate (a := (0 : Byte))⟩, ⟨_, List.length_replicate (a := (0 : Byte))⟩,
    ⟨_, List.length_replicate (a := (0 : Byte))⟩, ⟨_, List.length_replicate (a := (0 : Byte))⟩, by decide⟩

/-- `RasterByteByByte`: the last byte of a 1 × 1 raster, and the two ends of the legal range. -/
theorem witness_raster : 3 < 1 * (1 + 3 * 1) ∧ 1 ≤ 1 ∧ 1 ≤ 4096 ∧ 4096 ≤ 4096 := by decide

/-- The statements about legal dimensions (`GeneratorEmitsTheRaster`, `EncoderEmitsTheFile`, `FileLengthsFromTheOperands`,
`FileOffsetMap`, `ReaderTakesTheFileApart`, `EmittedChecksumsReadBack`, `ByteStepsPerFrame`): both ends. -/
theorem witness_legal :
    (1 ≤ (1 : Word).toNat ∧ (1 : Word).toNat ≤ 4096) ∧ (1 ≤ (4096 : Word).toNat ∧ (4096 : Word).toNat ≤ 4096) := by decide

/-- The clauses about illegal dimensions: each of the four ways, at its boundary. -/
theorem witness_illegal :
    (0 : Word).toNat < 1 ∧ 4096 < (4097 : Word).toNat ∧ ¬ (1 : Word).toNat < 1 ∧ ¬ 4096 < (4096 : Word).toNat := by decide

/-- `FileLengthsFromTheOperands`, `FileOffsetMap`: the named numbers of a 1 × 1 file, and its block 0. -/
theorem witness_file_lengths :
    ∃ n nblk zlen : Nat, n = (1 : Word).toNat * (1 + 3 * (1 : Word).toNat) ∧ nblk = max 1 ((n + 65534) / 65535) ∧
      zlen = 2 + 5 * nblk + n + 4 ∧ 0 < nblk :=
  ⟨4, 1, 15, rfl, rfl, rfl, by decide⟩

/-- `BroadcastIsTheRowForAnyLanes`: the smallest number of lanes. -/
theorem witness_lanes : 1 ≤ 1 := by decide

/-- `SerializerEmitsTheChunk`, first clause: an empty payload, and one byte with another left over. -/
theorem witness_chunk :
    ((loaded [] []).din = [] ++ [] ∧ ([] : List Byte).length = (0 : Word).toNat) ∧
    ((loaded [] [7, 8]).din = [7] ++ [8] ∧ ([7] : List Byte).length = (1 : Word).toNat) := by decide

/-- `SerializerEmitsTheChunk`, last clause, and `SerializerHoldsOnEmptyInput`. -/
theorem witness_chunk_holds :
    (loaded [] []).din.length < (1 : Word).toNat ∧ (loaded [] []).din.length + [(8 : Byte)].length = (1 : Word).toNat := by
  decide

/-- `ReaderTakesTheChunkApart`. -/
theorem witness_read_chunk : ([] : List Byte).length < 2 ^ 32 := by decide

/-- `IllegalOpcodeIsConsumedAlone`, and the last clause of `OneRecordPerCommand`: the byte after `CRC.FIN`'s opcode. -/
theorem witness_illegal_opcode :
    (loaded [0x13, 0x10] []).busy = false ∧ (loaded [0x13, 0x10] []).cmd = 0x13 :: [0x10] ∧
    (0x13 : Byte) ∉ ([0x10, 0x11, 0x12, 0x20, 0x21, 0x22, 0x30, 0x40, 0x50, 0x60] : List Byte) ∧
    Op.ofByte 0x13 = none ∧ ∃ t, step (loaded [0x13, 0x10] []) = .next t := by
  refine ⟨by decide, by decide, by decide, by decide, ?_⟩
  exact ⟨_, rfl⟩

/-- `StepRunsTheDecodedCommand`, both clauses, and `DecodedPacketIsTheEncoding`. -/
theorem witness_step :
    (loaded [0x11, 0x61, 0x12] []).busy = false ∧
    decode (loaded [0x11, 0x61, 0x12] []).cmd = .command (.crcUpd 0x61) [0x12] ∧
    (Instr.crcUpd 0x61).wf = true ∧ (loaded [0x11, 0x61, 0x12] []).cmd = encode (.crcUpd 0x61) ++ [0x12] := by decide

/-- `ResumingAfterAHoldLosesNothing`, and the holding clause of `OneRecordPerCommand`: each of the two operations holds. -/
theorem witness_hold :
    (∃ t, exec (.sbwWrap 1) State.reset = .next t ∧ t.busy = true) ∧
    (∃ t, exec (.chkMake 0x49444154 1) State.reset = .next t ∧ t.busy = true) :=
  ⟨view_some (by decide +kernel), view_some (by decide +kernel)⟩

/-- `IdleBlockWaitsForAWholePacket`: an empty `CMD`, and one byte short of the shortest packet with an operand. -/
theorem witness_idle :
    (State.reset.busy = false ∧ State.reset.cmd = []) ∧
    ((loaded [0x11] []).busy = false ∧ 1 ≤ 1 ∧ 1 < (encode (.crcUpd 0)).length ∧
      (loaded [0x11] []).cmd = (encode (.crcUpd 0)).take 1) := by decide

/-- `DecodeOfEncodeIsTheCommand`: the largest operands. -/
theorem witness_wf : (Instr.slgGen 0xFFFFFFFF 0xFFFFFFFF 0xFF 0xFF 0xFF).wf = true := by decide

/-- A state inside a stored block of `SBW.WRAP 1`, waiting for its byte. -/
def inBlock : State :=
  { State.reset with
    busy := true
    latch := ⟨0x30, .length 1⟩
    seq := { Sequencer.zero with frame := .stream, sbw := .bd, inRem := 1, blkRem := 1 } }

/-- A state inside the payload of `CHK.MAKE "IDAT", 1`, waiting for its byte. -/
def inPayload : State :=
  { State.reset with
    busy := true
    latch := ⟨0x50, .chunk 0x49444154 1⟩
    seq := { Sequencer.zero with frame := .chunk, chk := .cp, payRem := 1 } }

/-- `EveryStepKeepsTheInvariant`, `NoRunOfStepsAndHostMovesStops`: idle, and busy in both operations that can hold. -/
theorem witness_inv : (primed 7 65520 65520).Inv ∧ inBlock.Inv ∧ inPayload.Inv := by
  have idle : (primed 7 65520 65520).Inv :=
    ⟨⟨by decide, by decide⟩, fun _ => rfl, fun h => Bool.noConfusion h⟩
  have block : inBlock.insideBlock := ⟨rfl, rfl, rfl, rfl, 1, rfl, by decide, by decide, by decide⟩
  have payload : inPayload.insidePayload := ⟨rfl, rfl, rfl, rfl, 0x49444154, 1, rfl, by decide, by decide⟩
  exact ⟨idle, ⟨⟨by decide, by decide⟩, fun h => Bool.noConfusion h, fun _ => Or.inl block⟩,
    ⟨⟨by decide, by decide⟩, fun h => Bool.noConfusion h, fun _ => Or.inr payload⟩⟩

/-- `NoRunOfStepsAndHostMovesStops`: a run with a host move and a step. -/
theorem witness_run : ∀ e ∈ [Event.host (.issue (.command .crcInit)), .step, .host .reset], e ≠ .tick := by decide

/-- `CmdHoldsWholePackets`: an event of each kind, from a state whose `CMD` holds two packets, one of them an illegal opcode
byte, and a run that ends in the middle of a frame with a packet queued. -/
theorem witness_cmd_whole :
    (loaded [0x7F, 0x30, 0, 0, 0, 1] []).cmdWhole ∧
    (∃ t, occur .step (loaded [0x7F, 0x30, 0, 0, 0, 1] []) = .next t ∧ t.cmd = [0x30, 0, 0, 0, 1]) ∧
    (∃ t, occur .tick (loaded [0x7F, 0x30, 0, 0, 0, 1] []) = .next t ∧ t.cmd = [0x30, 0, 0, 0, 1]) ∧
    (∃ t, occurAll [.tick, .tick, .host (.issue (.command (.crcUpd 9))), .tick] (loaded [0x7F, 0x30, 0, 0, 0, 1] []) =
      .next t ∧ (t.busy, t.dout, t.cmd) = (true, [0x78], [0x11, 9])) :=
  ⟨⟨[.illegal ⟨0x7F, by decide⟩, .command (.sbwWrap 1)], by decide⟩, view_some (by decide +kernel),
    view_some (by decide +kernel), view_some (by decide +kernel)⟩

/-- `EveryByteStepKeepsSumsAndRest`, `OneByteStepMovesOneByte`, `StreamsOnlyMoveForward`: a byte step and a step that answer a
next state. -/
theorem witness_tick :
    (State.reset.a.toNat < 65521 ∧ State.reset.b.toNat < 65521) ∧ (State.reset.busy = false → State.reset.seq = Sequencer.zero) ∧
    (∃ t, tick (loaded [0x10] []) = .next t) ∧ (∃ t, step (loaded [0x10] []) = .next t) ∧
    (∃ t, tick { inBlock with din := [9] } = .next t ∧ t.dout = [9]) :=
  ⟨by decide, fun _ => rfl, ⟨_, rfl⟩, ⟨_, rfl⟩, view_some (by decide +kernel)⟩

/-- `OneRecordPerCommand`, `RegisterWriters`: a command that completes, one that writes neither register, one that writes
`crc` alone, one that writes the sums alone. -/
theorem witness_exec :
    (∃ t, exec .crcFin State.reset = .next t ∧ t.busy = false) ∧
    (∃ t, exec (.slgGen 1 1 1 2 3) State.reset = .next t ∧ t.busy = false) ∧
    (∃ t, exec (.crcUpd 1) State.reset = .next t ∧ t.busy = false) ∧
    (∃ t, exec (.adlUpd 1) State.reset = .next t ∧ t.busy = false) :=
  ⟨view_some (by decide), view_some (by decide +kernel), view_some (by decide), view_some (by decide)⟩

/-- `CompositesForgetTheRegisters`: each of the four operations answers a next state. -/
theorem witness_composites :
    (∃ t, exec (.sbwWrap 1) (loaded [] [7]) = .next t ∧ t.dout.length = 12) ∧
    (∃ t, exec (.slgGen 1 1 1 2 3) State.reset = .next t ∧ t.dout.length = 4) ∧
    (∃ t, exec (.chkMake 0 1) (loaded [] [7]) = .next t ∧ t.dout.length = 13) ∧
    (∃ t, exec (.encEncode 1 1 1 2 3) State.reset = .next t ∧ t.dout.length = 72) :=
  ⟨view_some (by decide +kernel), view_some (by decide +kernel), view_some (by decide +kernel),
    view_some (by decide +kernel)⟩

/-- `ByteStepsReachWhatAStepReaches`: a step that answers a next state, from a busy state too. -/
theorem witness_step_next : (∃ t, step inPayload = .next t ∧ t.busy = true) ∧ (∃ t, step State.reset = .next t) :=
  ⟨view_some (by decide +kernel), ⟨_, rfl⟩⟩

/-- `ByteStepsPerFrame`: an idle block with each of the packets at the head of `CMD`, and its `DIN` bytes. -/
theorem witness_frames :
    (loaded (encode (.encEncode 1 1 1 2 3)) []).cmd = encode (.encEncode 1 1 1 2 3) ++ [] ∧
    (loaded (encode (.slgGen 4096 4096 1 2 3)) []).cmd = encode (.slgGen 4096 4096 1 2 3) ++ [] ∧
    (loaded (encode (.sbwWrap 1)) [7]).cmd = encode (.sbwWrap 1) ++ [] ∧
    (loaded (encode (.sbwWrap 1)) [7]).din = [7] ++ [] ∧ ([7] : List Byte).length = (1 : Word).toNat ∧
    (loaded (encode (.chkMake 0 1)) [7]).cmd = encode (.chkMake 0 1) ++ [] ∧
    (loaded (encode (.chkMake 0 1)) [7]).din = [7] ++ [] ∧
    (loaded (encode .adlFin) []).cmd = encode .adlFin ++ [] ∧ (loaded (encode .adlFin) []).busy = false ∧
    Instr.adlFin.op ∈ [Op.crcInit, .crcUpd, .crcFin, .adlInit, .adlUpd, .adlFin] := by decide

/-- `FrameBytesPrecedeTheRecord`: `SLG.GEN` of one pixel, at its first and its last byte. -/
theorem witness_frame_bytes :
    (loaded (encode (.slgGen 1 1 9 8 7)) []).busy = false ∧
    (loaded (encode (.slgGen 1 1 9 8 7)) []).cmd = encode (.slgGen 1 1 9 8 7) ++ [] ∧
    needs (.slgGen 1 1 9 8 7) ≤ (loaded (encode (.slgGen 1 1 9 8 7)) []).din.length ∧
    frameFor (.slgGen 1 1 9 8 7) [] = [0, 9, 8, 7] ∧
    0 < (frameFor (.slgGen 1 1 9 8 7) []).length ∧ 4 = (frameFor (.slgGen 1 1 9 8 7) []).length := by decide

/-- `QueueRunsInOrder`: two commands that share `DIN`. -/
theorem witness_queue :
    (loaded ([Instr.sbwWrap 1, .chkMake 0 1].flatMap encode) [7, 8]).busy = false ∧
    (loaded ([Instr.sbwWrap 1, .chkMake 0 1].flatMap encode) [7, 8]).cmd =
      [Instr.sbwWrap 1, .chkMake 0 1].flatMap encode ++ [] ∧
    ([Instr.sbwWrap 1, .chkMake 0 1].map needs).sum ≤
      (loaded ([Instr.sbwWrap 1, .chkMake 0 1].flatMap encode) [7, 8]).din.length := by decide

/-- `InstancesShareNothing`: two instances, an event at the first, the second another one. -/
theorem witness_instances :
    (∃ bank, occurAt 0 .step [State.reset, State.reset] = .next bank) ∧ 1 ≠ 0 := ⟨⟨_, rfl⟩, by decide⟩

end Sys2Proof.Tests
end

section
/-! Reset and the completion record (spec/10_state.md R32, R33, R40). -/

namespace Sys2Proof.Machine

/-! ### Reset -/

/-- The constant table, entry by entry (spec/40_crc32.md R133). -/
theorem crcTable_getElem? (i : Byte) : crcTable[i.toNat]? = some (crcTableEntry i) := by
  rw [crcTable, List.getElem?_map, List.getElem?_range i.isLt, Option.map_some, BitVec.ofNat_toNat, BitVec.setWidth_eq]

/-- Settles O1: reset is a constant state, and the two checksums of the empty sequence are computed from it. -/
theorem resetLeavesTheStatedValues : Obligations.ResetLeavesTheStatedValues := by
  unfold Obligations.ResetLeavesTheStatedValues
  refine ⟨fun s => ?_, ?_, ?_, ?_, crcTable_getElem?⟩
  · exact ⟨State.reset, rfl, rfl, rfl, rfl, rfl, rfl, rfl, rfl, rfl, rfl, rfl, rfl, rfl, rfl, rfl, rfl⟩
  · exact ⟨crcFin State.reset, rfl, by decide⟩
  · exact ⟨adlFin State.reset, rfl, by decide⟩
  · rw [crcTable, List.length_map, List.length_range]

/-! ### What a command leaves: one record, or none while it holds -/

/-- The `result` a command completes with from `s` (R33, spec/40_crc32.md R134, spec/41_adler32.md R154). -/
def resultFor (i : Instr) (s : State) : Word :=
  match i with
  | .crcFin => crcChecksum s.crc
  | .adlFin => adlerPack s.a s.b
  | _ => 0

/-- From `s` the command `i` has completed in `t`: at rest, with its one record appended (R32, R33). -/
def Answered (i : Instr) (s t : State) : Prop :=
  t.busy = false ∧ t.seq = Sequencer.zero ∧ t.cpl = s.cpl ++ [⟨i.op.code, verdict i, resultFor i s⟩]

/-- A command that answers by completing a state which has taken it, with no record appended since `s`, is answered. -/
theorem answered_of_complete {i : Instr} {s u t : State}
    (h : (.next (u.complete (verdict i) (resultFor i s)) : Host.Outcome State Fault Refusal) = .next t)
    (hl : u.latch = i.latch) (hc : u.cpl = s.cpl) : Answered i s t := by
  obtain rfl := Host.Outcome.next.inj h
  exact ⟨rfl, rfl, by rw [State.complete_cpl, hl, hc]; rfl⟩

/-- An operation that `settle` runs completes with one record, or holds with none: only its last byte step appends. -/
theorem settle_record {P : State → Prop} {left : State → Nat}
    (hstep : ∀ s, P s → holding s = true ∨ ∃ t, beat s = some t ∧ (Completes s t ∨ (P t ∧ left t < left s)))
    (hbusy : ∀ s, P s → s.busy = true) {s t : State} (hs : P s) (hk : left s < beatBound) (h : settle s = .next t) :
    Completes s t ∨ (t.busy = true ∧ t.cpl = s.cpl) := by
  have hstep' : ∀ u, (P u ∧ u.latch = s.latch ∧ u.cpl = s.cpl) → holding u = true ∨
      ∃ v, beat u = some v ∧
        (Completes u v ∨ ((P v ∧ v.latch = s.latch ∧ v.cpl = s.cpl) ∧ left v < left u)) := by
    rintro u ⟨hu, hl, hc⟩
    obtain hh | ⟨v, hv, hdone | ⟨hP, hlt⟩⟩ := hstep u hu
    · exact .inl hh
    · exact .inr ⟨v, hv, .inl hdone⟩
    · obtain ⟨-, -, -, -, hidle | ⟨-, hl', hc'⟩⟩ := beat_frame hv
      · rw [hbusy v hP] at hidle; cases hidle
      · exact .inr ⟨v, hv, .inr ⟨⟨hP, hl'.trans hl, hc'.trans hc⟩, hlt⟩⟩
  obtain ⟨⟨hP, -, hc⟩, hhold, -⟩ | ⟨u, -, ⟨-, hl, hc⟩, -, -, hidle, hseq, hcpl⟩ :=
    drive_pauses hstep' beatBound s ⟨hs, rfl, rfl⟩ hk
  · obtain rfl := Host.Outcome.next.inj ((atPause_holding hhold).symm.trans h)
    exact .inr ⟨hbusy _ hP, hc⟩
  · obtain rfl := Host.Outcome.next.inj ((atPause_idle hidle).symm.trans h)
    exact .inl ⟨hidle, hseq, by rw [hcpl, hl, hc]⟩

theorem execSbwWrap_record {n : Word} {s t : State} (h : execSbwWrap n s = .next t) :
    Answered (.sbwWrap n) s t ∨ (t.busy = true ∧ t.cpl = s.cpl) :=
  settle_record (fun _ hs => hs.beat) (fun _ hs => hs.1) (wrapping_startSbwWrap n s) (sbwLeft_lt n _) h

theorem execChkMake_record {tag len : Word} {s t : State} (h : execChkMake tag len s = .next t) :
    Answered (.chkMake tag len) s t ∨ (t.busy = true ∧ t.cpl = s.cpl) :=
  settle_record (fun _ hs => hs.beat) (fun _ hs => hs.1) (serializing_startChkMake tag len s) (chkLeft_lt len _) h

theorem startSlgGen_legal {w h : Word} (r g b : Byte) (hl : dimsLegal w h = true) (s : State) :
    startSlgGen w h r g b s = (s.take (Instr.slgGen w h r g b).latch).openFrame
      { Sequencer.zero with frame := .raster, row := h.setWidth 13 } := by
  simp only [startSlgGen, hl, if_true]

theorem startEncEncode_legal {w h : Word} (r g b : Byte) (hl : dimsLegal w h = true) (s : State) :
    startEncEncode w h r g b s =
      (s.take (Instr.encEncode w h r g b).latch).openFrame { Sequencer.zero with frame := .signature } := by
  simp only [startEncEncode, hl, if_true]

theorem execSlgGen_illegal {w h : Word} (r g b : Byte) (hl : dimsLegal w h = false) (s : State) :
    execSlgGen w h r g b s = .next ((s.take (Instr.slgGen w h r g b).latch).raise .invalidDimensions) := by
  rw [execSlgGen, startSlgGen_illegal r g b hl, settle_raise]

theorem execEncEncode_illegal {w h : Word} (r g b : Byte) (hl : dimsLegal w h = false) (s : State) :
    execEncEncode w h r g b s = .next ((s.take (Instr.encEncode w h r g b).latch).raise .invalidDimensions) := by
  rw [execEncEncode, startEncEncode_illegal r g b hl, settle_raise]

theorem execSlgGen_answers {w h : Word} {r g b : Byte} {s t : State} (ht : execSlgGen w h r g b s = .next t) :
    Answered (.slgGen w h r g b) s t := by
  cases hl : dimsLegal w h with
  | true =>
    obtain ⟨u, -, -, hu, hx⟩ := execSlgGen_whole w h r g b hl s
    have hverdict : verdict (.slgGen w h r g b) = .ok := if_pos hl
    rw [startSlgGen_legal r g b hl] at hu
    rw [hx, ← hverdict] at ht
    have hlatch : u.latch = (Instr.slgGen w h r g b).latch := by
      rw [hu]; simp only [State.openFrame_latch, State.take_latch]
    have hcpl : u.cpl = s.cpl := by rw [hu]; simp only [State.openFrame_cpl, State.take_cpl]
    exact answered_of_complete ht hlatch hcpl
  | false =>
    have hverdict : verdict (.slgGen w h r g b) = .invalidDimensions := if_neg (Bool.eq_false_iff.mp hl)
    rw [execSlgGen_illegal r g b hl, State.raise_eq, ExceptionCause.status, ← hverdict] at ht
    exact answered_of_complete ht rfl rfl

theorem execEncEncode_answers {w h : Word} {r g b : Byte} {s t : State} (ht : execEncEncode w h r g b s = .next t) :
    Answered (.encEncode w h r g b) s t := by
  cases hl : dimsLegal w h with
  | true =>
    obtain ⟨u, -, -, hu, hx⟩ := execEncEncode_whole w h r g b hl s
    have hverdict : verdict (.encEncode w h r g b) = .ok := if_pos hl
    rw [startEncEncode_legal r g b hl] at hu
    rw [hx, ← hverdict] at ht
    have hlatch : u.latch = (Instr.encEncode w h r g b).latch := by
      rw [hu]; simp only [State.openFrame_latch, State.take_latch]
    have hcpl : u.cpl = s.cpl := by rw [hu]; simp only [State.openFrame_cpl, State.take_cpl]
    exact answered_of_complete ht hlatch hcpl
  | false =>
    have hverdict : verdict (.encEncode w h r g b) = .invalidDimensions := if_neg (Bool.eq_false_iff.mp hl)
    rw [execEncEncode_illegal r g b hl, State.raise_eq, ExceptionCause.status, ← hverdict] at ht
    exact answered_of_complete ht rfl rfl

/-- Every command that answers a next state has completed with its one record, or holds with none. -/
theorem exec_record {i : Instr} {s t : State} (h : exec i s = .next t) :
    Answered i s t ∨ (t.busy = true ∧ t.cpl = s.cpl) := by
  cases i with
  | crcInit => exact .inl (answered_of_complete h rfl rfl)
  | crcUpd x => exact .inl (answered_of_complete h rfl rfl)
  | crcFin => exact .inl (answered_of_complete h rfl rfl)
  | adlInit => exact .inl (answered_of_complete h rfl rfl)
  | adlUpd x => exact .inl (answered_of_complete h rfl rfl)
  | adlFin => exact .inl (answered_of_complete h rfl rfl)
  | sbwWrap n => exact execSbwWrap_record h
  | slgGen w ht r g b => exact .inl (execSlgGen_answers h)
  | chkMake tag len => exact execChkMake_record h
  | encEncode w ht r g b => exact .inl (execEncEncode_answers h)

/-! ### An illegal opcode byte -/

theorem decode_illegal {c : Byte} (hc : Op.ofByte c = none) (rest : List Byte) :
    decode (c :: rest) = .reject (.illegalOpcode c) := by
  simp only [decode, hc]

/-- An idle block with an illegal opcode byte at the head of `CMD` takes the exception (spec/60_exceptions.md R272). -/
theorem step_illegal {s : State} {c : Byte} {rest : List Byte} (hb : s.busy = false) (hcmd : s.cmd = c :: rest)
    (hc : Op.ofByte c = none) : step s = .next (illegalCommand c s) := by
  simp only [step, hb, Bool.false_eq_true, if_false, fetch, hcmd, decode_illegal hc]

@[simp] theorem illegalCommand_cpl (c : Byte) (s : State) :
    (illegalCommand c s).cpl = s.cpl ++ [⟨c, .illegalCommand, 0⟩] := rfl

/-- Settles O48: by `exec_record` every command either completes with its record or holds with none, and `busy` tells
which. -/
theorem oneRecordPerCommand : Obligations.OneRecordPerCommand := by
  unfold Obligations.OneRecordPerCommand
  refine ⟨fun i s t h => ?_, fun c rest s t hb hcmd hc h => ?_⟩
  · obtain ⟨hidle, hseq, hcpl⟩ | ⟨hbusy, hcpl⟩ := exec_record h
    · refine ⟨fun _ => ⟨hseq, verdict i, resultFor i s, hcpl, rfl, ?_⟩, fun hbusy => ?_⟩
      · cases i <;> rfl
      · rw [hidle] at hbusy; cases hbusy
    · refine ⟨fun hidle => ?_, fun _ => hcpl⟩
      rw [hbusy] at hidle; cases hidle
  · obtain rfl := Host.Outcome.next.inj ((step_illegal hb hcmd hc).symm.trans h)
    exact ⟨.illegalCommand, 0, illegalCommand_cpl c s⟩

end Sys2Proof.Machine
end

section
/-! The queues move forward, the offset map of the file, and separate instances (spec/20_memory.md R65, R68, R76). -/

namespace Sys2Proof.Machine

/-! ### What a step and a byte step can do -/

/-- The two ways a command is run: a primitive one is its beginning, a composite one is settled after it. -/
theorem exec_start (i : Instr) (s : State) : exec i s = .next (start i s) ∨ exec i s = settle (start i s) := by
  cases i with
  | crcInit | crcUpd x | crcFin | adlInit | adlUpd x | adlFin => exact .inl rfl
  | sbwWrap n | slgGen w h r g b | chkMake tag len | encEncode w h r g b => exact .inr rfl

/-- A pause with a next state is the state itself, idle or waiting for `DIN`. -/
theorem atPause_next {s t : State} (h : atPause s = .next t) : t = s ∧ (s.busy = false ∨ holding s = true) := by
  simp only [atPause] at h
  split at h
  · cases h
  · next hp =>
    refine ⟨(Host.Outcome.next.inj h).symm, ?_⟩
    simpa [or_iff_not_imp_left] using hp

/-- `settle` answers the state where the byte steps end. -/
theorem settle_next {s t : State} (h : settle s = .next t) : t = drive beatBound s := (atPause_next h).1

/-- Everything a step can do: the operation in progress goes on; an idle block runs the command at the head of `CMD`, takes
an illegal opcode byte, or finds no whole packet there. -/
theorem step_cases {s t : State} (h : step s = .next t) :
    (s.busy = true ∧ settle s = .next t) ∨
    (s.busy = false ∧ ∃ i rest, decode s.cmd = .command i rest ∧ exec i (s.setCmd rest) = .next t) ∨
    (s.busy = false ∧ ∃ c, decode s.cmd = .reject (.illegalOpcode c) ∧ t = illegalCommand c s) ∨
    (s.busy = false ∧ (decode s.cmd = .reject .noCommand ∨ ∃ o, decode s.cmd = .reject (.incomplete o)) ∧ t = s) := by
  cases hb : s.busy with
  | true =>
    simp only [step, hb, if_true, resume] at h
    exact .inl ⟨rfl, h⟩
  | false =>
    simp only [step, hb, Bool.false_eq_true, if_false, fetch] at h
    split at h
    · next i rest hd => exact .inr (.inl ⟨rfl, i, rest, hd, h⟩)
    · next c hd => exact .inr (.inr (.inl ⟨rfl, c, hd, (Host.Outcome.next.inj h).symm⟩))
    · next hd => exact .inr (.inr (.inr ⟨rfl, .inl hd, (Host.Outcome.next.inj h).symm⟩))
    · next o hd => exact .inr (.inr (.inr ⟨rfl, .inr ⟨o, hd⟩, (Host.Outcome.next.inj h).symm⟩))

/-- Everything a byte step can do: the operation in progress emits one byte or waits; an idle block begins the command at the
head of `CMD`, takes an illegal opcode byte, or finds no whole packet there. -/
theorem tick_cases {s t : State} (h : tick s = .next t) :
    (s.busy = true ∧ beat s = some t) ∨
    (s.busy = true ∧ holding s = true ∧ t = s) ∨
    (s.busy = false ∧ ∃ i rest, decode s.cmd = .command i rest ∧ t = start i (s.setCmd rest)) ∨
    (s.busy = false ∧ ∃ c, decode s.cmd = .reject (.illegalOpcode c) ∧ t = illegalCommand c s) ∨
    (s.busy = false ∧ (decode s.cmd = .reject .noCommand ∨ ∃ o, decode s.cmd = .reject (.incomplete o)) ∧ t = s) := by
  cases hb : s.busy with
  | true =>
    simp only [tick, hb, if_true] at h
    split at h
    · next u hu => exact .inl ⟨rfl, hu.trans (congrArg some (Host.Outcome.next.inj h))⟩
    · obtain ⟨hts, hidle | hhold⟩ := atPause_next h
      · rw [hb] at hidle; cases hidle
      · exact .inr (.inl ⟨rfl, hhold, hts⟩)
  | false =>
    simp only [tick, hb, Bool.false_eq_true, if_false] at h
    split at h
    · next i rest hd => exact .inr (.inr (.inl ⟨rfl, i, rest, hd, (Host.Outcome.next.inj h).symm⟩))
    · next c hd => exact .inr (.inr (.inr (.inl ⟨rfl, c, hd, (Host.Outcome.next.inj h).symm⟩)))
    · next hd => exact .inr (.inr (.inr (.inr ⟨rfl, .inl hd, (Host.Outcome.next.inj h).symm⟩)))
    · next o hd => exact .inr (.inr (.inr (.inr ⟨rfl, .inr ⟨o, hd⟩, (Host.Outcome.next.inj h).symm⟩)))

/-! ### The queues move forward -/

/-- From `s` to `t` the block has only appended to `DOUT` and `CPL` and only removed bytes from the head of `DIN` (R65). -/
def Forward (s t : State) : Prop := s.dout <+: t.dout ∧ t.din <:+ s.din ∧ s.cpl <+: t.cpl

theorem Forward.refl (s : State) : Forward s s := ⟨List.prefix_rfl, List.suffix_rfl, List.prefix_rfl⟩

theorem Forward.trans {s t u : State} (hst : Forward s t) (htu : Forward t u) : Forward s u := by
  obtain ⟨ho, hi, hc⟩ := hst
  obtain ⟨ho', hi', hc'⟩ := htu
  exact ⟨ho.trans ho', hi'.trans hi, hc.trans hc'⟩

theorem Forward.of_queues_eq {s t : State} (ho : t.dout = s.dout) (hi : t.din = s.din) (hc : t.cpl = s.cpl) :
    Forward s t := by
  rw [Forward, ho, hi, hc]
  exact Forward.refl s

theorem Forward.of_record {s t : State} {c : Completion} (ho : t.dout = s.dout) (hi : t.din = s.din)
    (hc : t.cpl = s.cpl ++ [c]) : Forward s t := by
  rw [Forward, ho, hi, hc]
  exact ⟨List.prefix_rfl, List.suffix_rfl, List.prefix_append _ _⟩

theorem forward_setCmd (c : List Byte) (s : State) : Forward s (s.setCmd c) := .of_queues_eq rfl rfl rfl

theorem forward_illegalCommand (c : Byte) (s : State) : Forward s (illegalCommand c s) :=
  .of_record rfl rfl (illegalCommand_cpl c s)

/-- A command's beginning leaves `DOUT` and `DIN` alone and appends at most one record: a primitive command's, or that of
illegal dimensions. -/
theorem forward_start (i : Instr) (s : State) : Forward s (start i s) := by
  cases i with
  | crcInit | crcUpd x | crcFin | adlInit | adlUpd x | adlFin => exact .of_record rfl rfl rfl
  | sbwWrap n | chkMake tag len => exact .of_queues_eq rfl rfl rfl
  | slgGen w h r g b =>
    show Forward s (startSlgGen w h r g b s)
    cases hl : dimsLegal w h with
    | true => rw [startSlgGen_legal r g b hl]; exact .of_queues_eq rfl rfl rfl
    | false => rw [startSlgGen_illegal r g b hl]; exact .of_record rfl rfl rfl
  | encEncode w h r g b =>
    show Forward s (startEncEncode w h r g b s)
    cases hl : dimsLegal w h with
    | true => rw [startEncEncode_legal r g b hl]; exact .of_queues_eq rfl rfl rfl
    | false => rw [startEncEncode_illegal r g b hl]; exact .of_record rfl rfl rfl

theorem beat_forward {s t : State} (h : beat s = some t) : Forward s t := by
  obtain ⟨-, ⟨x, hout⟩, hin, hcpl, -⟩ := beat_frame h
  exact ⟨hout ▸ List.prefix_append _ _, hin, hcpl⟩

theorem settle_forward {s t : State} (h : settle s = .next t) : Forward s t := by
  rw [settle_next h]
  exact drive_keeps (fun _ _ hu hv => hu.trans (beat_forward hv)) beatBound (Forward.refl s)

theorem exec_forward {i : Instr} {s t : State} (h : exec i s = .next t) : Forward s t := by
  obtain he | he := exec_start i s
  · obtain rfl := Host.Outcome.next.inj (he.symm.trans h)
    exact forward_start i s
  · exact (forward_start i s).trans (settle_forward (he.symm.trans h))

theorem step_forward {s t : State} (h : step s = .next t) : Forward s t := by
  obtain ⟨-, h⟩ | ⟨-, i, rest, -, h⟩ | ⟨-, c, -, rfl⟩ | ⟨-, -, rfl⟩ := step_cases h
  · exact settle_forward h
  · exact (forward_setCmd rest s).trans (exec_forward h)
  · exact forward_illegalCommand c s
  · exact Forward.refl _

theorem tick_forward {s t : State} (h : tick s = .next t) : Forward s t := by
  obtain ⟨-, h⟩ | ⟨-, -, rfl⟩ | ⟨-, i, rest, -, rfl⟩ | ⟨-, c, -, rfl⟩ | ⟨-, -, rfl⟩ := tick_cases h
  · exact beat_forward h
  · exact Forward.refl _
  · exact (forward_setCmd rest s).trans (forward_start i _)
  · exact forward_illegalCommand c s
  · exact Forward.refl _

/-- Settles O46: each byte step moves the queues forward, and so does a command's beginning; steps and byte steps are made of
these. -/
theorem streamsOnlyMoveForward : Obligations.StreamsOnlyMoveForward := by
  unfold Obligations.StreamsOnlyMoveForward
  intro s t h
  obtain h | h := h
  · exact step_forward h
  · exact tick_forward h

/-! ### Separate instances -/

/-- Everything an event at index `k` can do to the bank: nothing where no block stands there, or its outcome takes the place of
that one block. -/
theorem occurAt_cases {k : Nat} {e : Event} {bank bank' : List State} (h : occurAt k e bank = .next bank') :
    (bank[k]? = none ∧ bank' = bank) ∨
    ∃ s t, bank[k]? = some s ∧ occur e s = .next t ∧ bank' = bank.set k t := by
  simp only [occurAt] at h
  split at h
  · next hk => exact .inl ⟨hk, (Host.Outcome.next.inj h).symm⟩
  · next s hk =>
    split at h
    · next t ht => exact .inr ⟨s, t, hk, ht, (Host.Outcome.next.inj h).symm⟩
    · cases h
    · cases h

/-- Settles O57: an event writes the bank at its own index only. -/
theorem instancesShareNothing : Obligations.InstancesShareNothing := by
  unfold Obligations.InstancesShareNothing
  intro k e bank bank' h
  obtain ⟨-, rfl⟩ | ⟨s, t, -, -, rfl⟩ := occurAt_cases h
  · exact ⟨rfl, fun _ _ => rfl⟩
  · exact ⟨List.length_set, fun j hj => List.getElem?_set_ne hj.symm⟩

/-! ### Reading at an offset -/

/-- A field of length `l` that stands at offset `o` is read there, and what follows it stands at `o + l`. -/
theorem field_at {α : Type} {f x rest : List α} {o l o' : Nat} (h : f.drop o = x ++ rest) (hl : x.length = l)
    (ho : o + l = o') : (f.drop o).take l = x ∧ f.drop o' = rest := by
  subst hl ho
  rw [← List.drop_drop, h]
  exact ⟨List.take_left, List.drop_left⟩

/-- The fields of a chunk that stands at offset `o`: its length, its tag, its payload, and the checksum of the bytes from the
tag to the end of the payload (R222). -/
theorem chunk_at {f rest p : List Byte} {tag : Word} {o : Nat} (h : f.drop o = chunk tag p ++ rest) :
    (f.drop o).take 4 = be32 (BitVec.ofNat 32 p.length) ∧
    (f.drop (o + 4)).take 4 = be32 tag ∧
    (∃ after, f.drop (o + 8) = p ++ after) ∧
    (f.drop (o + 8 + p.length)).take 4 = be32 (crc32 ((f.drop (o + 4)).take (4 + p.length))) ∧
    f.drop (o + 12 + p.length) = rest := by
  simp only [chunk, List.append_assoc] at h
  obtain ⟨hlen, h4⟩ := field_at h (be32_length _) rfl
  obtain ⟨htag, h8⟩ := field_at h4 (be32_length _) rfl
  obtain ⟨-, hsum⟩ := field_at h8 rfl rfl
  obtain ⟨hcrc, hrest⟩ := field_at hsum (be32_length _) (show _ = o + 12 + p.length by omega)
  have hcovered : (f.drop (o + 4)).take (4 + p.length) = be32 tag ++ p :=
    (field_at (h4.trans (List.append_assoc _ _ _).symm) (by rw [List.length_append, be32_length]) rfl).1
  exact ⟨hlen, htag, ⟨_, h8⟩, by rw [hcovered]; exact hcrc, hrest⟩

/-! ### Where the stored blocks stand -/

theorem piece_length (raw : List Byte) (k : Nat) : (piece raw k).length = min 65535 (raw.length - 65535 * k) := by
  rw [piece, List.length_take, List.length_drop]
  rfl

/-- Every piece before the last one is full (R174). -/
theorem piece_full {raw : List Byte} {k : Nat} (h : k + 1 < blockCount raw.length) : (piece raw k).length = 65535 := by
  rw [piece_length]
  simp only [blockCount, Config.blockMax] at h
  omega

/-- `k` full blocks stand before stored block `k`. -/
theorem storedBlocks_split {raw : List Byte} {k : Nat} (hk : k < blockCount raw.length) :
    ∃ before after, before.length = k * (5 + 65535) ∧ storedBlocks raw =
      before ++ (storedBlock (piece raw k) (decide (k + 1 = blockCount raw.length)) ++ after) := by
  obtain ⟨m, hm⟩ := Nat.exists_eq_add_of_lt hk
  have hrange : List.range (blockCount raw.length) =
      List.range k ++ k :: (List.range m).map (k + 1 + ·) := by
    rw [hm, Nat.add_right_comm, List.range_add, List.range_succ, List.append_assoc, List.singleton_append]
  rw [storedBlocks, hrange, List.flatMap_append, List.flatMap_cons]
  refine ⟨_, _, ?_, rfl⟩
  have hfull : ∀ j ∈ List.range k,
      (storedBlock (piece raw j) (decide (j + 1 = blockCount raw.length))).length = 5 + 65535 := by
    intro j hj
    have hjk := List.mem_range.mp hj
    rw [storedBlock_length, piece_full (by omega)]
  rw [List.length_flatMap, List.map_congr_left hfull, List.map_const', List.sum_replicate, List.length_range, smul_eq_mul]

/-- Stored block `k` of blocks that stand at offset `o` (R68). -/
theorem storedBlock_at {f raw rest : List Byte} {o k : Nat} (h : f.drop o = storedBlocks raw ++ rest)
    (hk : k < blockCount raw.length) :
    (f.drop (o + k * (5 + 65535))).take (5 + min 65535 (raw.length - 65535 * k)) =
      storedBlock (piece raw k) (decide (k + 1 = blockCount raw.length)) := by
  obtain ⟨before, after, hbefore, hsplit⟩ := storedBlocks_split hk
  rw [hsplit, List.append_assoc, List.append_assoc] at h
  obtain ⟨-, hstart⟩ := field_at h hbefore rfl
  exact (field_at hstart (by rw [storedBlock_length, piece_length]) rfl).1

/-! ### The offset map -/

/-- The end chunk, byte for byte: its checksum is that of its tag alone. -/
theorem endChunk_bytes : chunk Config.tagIEND [] =
    [0x00, 0x00, 0x00, 0x00, 0x49, 0x45, 0x4E, 0x44, 0xAE, 0x42, 0x60, 0x82] := by decide +kernel

/-- Settles O31: the file is walked from its front, field by field; each field read gives the place of the next. -/
theorem fileOffsetMap : Obligations.FileOffsetMap := by
  unfold Obligations.FileOffsetMap
  rintro w h r g b - - - - n nblk raw f hraw hf hn hblk
  have hrawLen : raw.length = n := by rw [hraw, raster_length, hn]; rfl
  have hcount : blockCount raw.length = nblk := by rw [hrawLen, hblk]; rfl
  have hzlen : (zwrap raw).length = 2 + 5 * nblk + n + 4 := by rw [zwrap_length, streamLength, hcount, hrawLen]
  have hfile : f.drop 0 = Config.signature ++ (chunk Config.tagIHDR (headerPayload w h) ++
      (chunk Config.tagIDAT (zwrap raw) ++ chunk Config.tagIEND [])) := by
    rw [List.drop_zero, hf, file, hraw, List.append_assoc, List.append_assoc]
  obtain ⟨hsignature, h8⟩ := field_at hfile rfl (show _ = 8 from rfl)
  obtain ⟨hlen, htag, ⟨_, h16⟩, hcrc, h33⟩ := chunk_at h8
  simp only [headerPayload, List.append_assoc] at h16
  obtain ⟨hwidth, h20⟩ := field_at h16 rfl (show _ = 20 from rfl)
  obtain ⟨hheight, h24⟩ := field_at h20 rfl (show _ = 24 from rfl)
  obtain ⟨hconstants, -⟩ := field_at h24 rfl rfl
  obtain ⟨hdataLen, hdataTag, ⟨_, h41⟩, hdataCrc, hend⟩ := chunk_at h33
  simp only [zwrap, List.append_assoc] at h41
  obtain ⟨hstream, h43⟩ := field_at h41 rfl (show _ = 43 from rfl)
  have hblocks : (storedBlocks raw).length = 5 * nblk + n := by rw [storedBlocks_length, hcount, hrawLen]
  obtain ⟨-, htrailer⟩ := field_at h43 hblocks (Nat.add_assoc _ _ _).symm
  obtain ⟨hadler, -⟩ := field_at htrailer (be32_length _) rfl
  have hblock := fun k (hk : k < nblk) => storedBlock_at h43 (hk.trans_eq hcount.symm)
  rw [hcount, hrawLen] at hblock
  have hcrcOffset : 47 + 5 * nblk + n = 33 + 8 + (zwrap raw).length := by omega
  have hcovered : 10 + 5 * nblk + n = 4 + (zwrap raw).length := by omega
  have hendOffset : 51 + 5 * nblk + n = 33 + 12 + (zwrap raw).length := by omega
  refine ⟨hsignature, ?_, htag, hwidth, hheight, hconstants, hcrc, ?_, hdataTag, hstream, hblock, hadler, ?_, ?_, ?_⟩
  · rw [hlen, headerPayload_length]; rfl
  · rw [← hzlen]; exact hdataLen
  · rw [hcrcOffset, hcovered]; exact hdataCrc
  · rw [hendOffset]; exact hend.trans endChunk_bytes
  · have hlength : f.length = 57 + (zwrap raw).length := by
      rw [hf, file_length, fileLength, zwrap_length, hraw, raster_length]
    omega

end Sys2Proof.Machine
end

section
/-! The encoding: the bytes that name an operation, the packet of every command, and the length its first byte fixes
(spec/30_encoding.md R108, R110, R111). -/

namespace Sys2Proof.Machine

/-! ### Legal and illegal opcode bytes -/

/-- A byte is illegal exactly when no operation has it as its opcode (R111). -/
theorem ofByte_eq_none_iff (c : Byte) : Op.ofByte c = none ↔ c ∉ Op.all.map Op.code := by
  simp only [Op.ofByte, List.find?_eq_none, beq_iff_eq, List.mem_map, not_exists, not_and]

/-- The ten opcode bytes of R110. -/
theorem all_codes :
    Op.all.map Op.code = [0x10, 0x11, 0x12, 0x20, 0x21, 0x22, 0x30, 0x40, 0x50, 0x60] := rfl

/-- Settles O34: a byte outside the ten opcodes decodes to no operation, so the step is the exception of that byte; the count
is taken over all 256 bytes. -/
theorem illegalOpcodeIsConsumedAlone : Obligations.IllegalOpcodeIsConsumedAlone := by
  unfold Obligations.IllegalOpcodeIsConsumedAlone
  refine ⟨fun c rest s hb hcmd hc => ?_, by decide +kernel⟩
  have hillegal : Op.ofByte c = none := by rwa [ofByte_eq_none_iff, all_codes]
  have hrest : (illegalCommand c s).cmd = rest := congrArg List.tail hcmd
  exact ⟨illegalCommand c s, step_illegal hb hcmd hillegal, illegalCommand_cpl c s, hrest,
    rfl, rfl, rfl, rfl, rfl, rfl, rfl⟩

/-! ### Packets -/

/-- Every command's encoding is one whole packet of its operation. -/
theorem encode_wholePacket (i : Instr) : Laws.WholePacket.Statement i := by
  cases i with
  | crcInit => exact Laws.WholePacket.crcInit
  | crcUpd x => exact Laws.WholePacket.crcUpd x
  | crcFin => exact Laws.WholePacket.crcFin
  | adlInit => exact Laws.WholePacket.adlInit
  | adlUpd x => exact Laws.WholePacket.adlUpd x
  | adlFin => exact Laws.WholePacket.adlFin
  | sbwWrap n => exact Laws.WholePacket.sbwWrap n
  | slgGen w h r g b => exact Laws.WholePacket.slgGen w h r g b
  | chkMake tag len => exact Laws.WholePacket.chkMake tag len
  | encEncode w h r g b => exact Laws.WholePacket.encEncode w h r g b

/-- The first byte of a whole packet fixes its length (R108). -/
theorem length_of_packet_wf {c : Byte} {rest : List Byte} (h : Packet.wf (c :: rest) = true) :
    (c :: rest).length = packetLength c := by
  cases ho : Op.ofByte c with
  | none => simp only [Packet.wf, ho, Bool.false_eq_true] at h
  | some o =>
    simp only [Packet.wf, ho, beq_iff_eq] at h
    rw [List.length_cons, h, packetLength, ho]

theorem encode_length (i : Instr) : (encode i).length = packetLength i.op.code := by
  obtain ⟨hwf, -, -⟩ := encode_wholePacket i
  exact length_of_packet_wf hwf

/-- Settles O41: the layout of each format is the encoder's own equation with `be32` written out, and the length is that of a
whole packet. -/
theorem packetLayoutByOpcode : Obligations.PacketLayoutByOpcode := by
  unfold Obligations.PacketLayoutByOpcode
  exact ⟨rfl, rfl, rfl, rfl, fun _ => ⟨rfl, rfl⟩, fun _ => rfl, fun _ _ => rfl, fun _ _ _ _ _ => ⟨rfl, rfl⟩,
    encode_length⟩

end Sys2Proof.Machine
end

section
/-! The CRC unit: its three commands, the table form of the update, and the checksum of a message by commands
(spec/40_crc32.md R131 to R137). -/

namespace Sys2Proof.Machine

/-! ### The update as iterated shift steps -/

theorem crcShifts_eq_iterate (k : Nat) (c : Word) : crcShifts k c = crcShift^[k] c := by
  induction k generalizing c with
  | zero => rfl
  | succ k ih => rw [crcShifts, ih, Function.iterate_succ_apply]

/-- The byte update of R132 with its loop as an iteration. -/
theorem crcByte_eq_iterate (c : Word) (x : Byte) : crcByte c x = crcShift^[8] (c ^^^ x.setWidth 32) :=
  crcShifts_eq_iterate 8 _

/-- The register over a message as a fold of the iterated shift steps. -/
theorem crcRun_eq_foldl_iterate (c : Word) (m : List Byte) :
    crcRun c m = m.foldl (fun c x => crcShift^[8] (c ^^^ x.setWidth 32)) c := by
  rw [crcRun, funext₂ crcByte_eq_iterate]

/-! ### The table form -/

theorem crcTable_getD (i : Byte) : crcTable.getD i.toNat 0 = crcTableEntry i := by
  rw [List.getD_eq_getElem?_getD, crcTable_getElem?, Option.getD_some]

/-- With the byte XORed on, the low 8 bits stand apart from the upper 24, and those are the upper 24 of the register. -/
theorem xor_byte_split (c : Word) (x : Byte) :
    c ^^^ x.setWidth 32 = ((c ^^^ x.setWidth 32).extractLsb' 0 8).setWidth 32 ^^^ (c >>> 8) <<< 8 := by
  apply BitVec.eq_of_getLsbD_eq
  intro i hi
  by_cases h : i < 8
  · simp [h, hi]
  · have hadd : 8 + (i - 8) = i := by omega
    have hx : x.getLsbD i = false := x.getLsbD_of_ge i (by omega)
    simp [h, hi, hadd, hx]

/-- Eight shift steps only move the upper 24 bits down: nothing of them is shifted out. -/
theorem crcShifts_upper (c : Word) : crcShifts 8 ((c >>> 8) <<< 8) = c >>> 8 := by
  rw [crcShifts_of_low_clear 8 _ (fun i hi => by simp [hi])]
  apply BitVec.eq_of_getLsbD_eq
  intro i hi
  by_cases h : i < 24
  · have hin : 8 + i < 32 := by omega
    simp [hin]
  · have hout : 32 ≤ 8 + i := by omega
    simp [hout]

/-- The table form is the update (R133): the shift steps are linear, so they act on the low byte, which gives the table
entry, and on the upper 24 bits apart. -/
theorem crcByte_eq_crcByteByTable (c : Word) (x : Byte) : crcByte c x = crcByteByTable c x := by
  rw [crcByteByTable, crcTable_getD, crcTableEntry, crcByte]
  conv_lhs => rw [xor_byte_split c x, crcShifts_xor, crcShifts_upper]

/-- The entries of the table that R133 lists. -/
theorem crcTable_selected :
    crcTable[0]? = some 0x00000000 ∧ crcTable[1]? = some 0x77073096 ∧ crcTable[2]? = some 0xEE0E612C ∧
    crcTable[3]? = some 0x990951BA ∧ crcTable[4]? = some 0x076DC419 ∧ crcTable[5]? = some 0x706AF48F ∧
    crcTable[6]? = some 0xE963A535 ∧ crcTable[7]? = some 0x9E6495A3 ∧ crcTable[8]? = some 0x0EDB8832 ∧
    crcTable[16]? = some 0x1DB71064 ∧ crcTable[128]? = some 0xEDB88320 ∧ crcTable[255]? = some 0x2D02EF8D := by
  decide +kernel

/-- Settles O7: the table form is the update by `crcByte_eq_crcByteByTable`, and every entry is eight shift steps of its
index. -/
theorem crcTableFormIsTheUpdate : Obligations.CrcTableFormIsTheUpdate := by
  unfold Obligations.CrcTableFormIsTheUpdate
  refine ⟨fun c x => ?_, fun i => ?_, crcTable_selected⟩
  · exact (crcByte_eq_iterate c x).symm.trans (crcByte_eq_crcByteByTable c x)
  · exact (crcTable_getElem? i).trans (congrArg some (crcShifts_eq_iterate 8 _))

/-! ### The three commands -/

/-- From `s` to `t` only `crc`, the completion records and what goes with a completion may have changed. -/
def KeepsOutsideCrc (s t : State) : Prop :=
  t.a = s.a ∧ t.b = s.b ∧ t.din = s.din ∧ t.dout = s.dout ∧ t.cmd = s.cmd

theorem KeepsOutsideCrc.refl (s : State) : KeepsOutsideCrc s s := ⟨rfl, rfl, rfl, rfl, rfl⟩

theorem KeepsOutsideCrc.trans {s t u : State} (hst : KeepsOutsideCrc s t) (htu : KeepsOutsideCrc t u) :
    KeepsOutsideCrc s u := by
  obtain ⟨ha, hb, hi, ho, hc⟩ := hst
  obtain ⟨ha', hb', hi', ho', hc'⟩ := htu
  exact ⟨ha'.trans ha, hb'.trans hb, hi'.trans hi, ho'.trans ho, hc'.trans hc⟩

/-- Everything a command of the CRC unit does: it answers the next state `t` with `crc` at `v` and its one record, and
keeps the rest. -/
structure CrcStep (i : Instr) (v : Word) (s t : State) : Prop where
  runs : exec i s = .next t
  crc : t.crc = v
  answered : Answered i s t
  kept : KeepsOutsideCrc s t

theorem crcStep_crcInit (s : State) : CrcStep .crcInit Config.crcStart s (crcInit s) :=
  ⟨rfl, rfl, answered_of_complete rfl rfl rfl, rfl, rfl, rfl, rfl, rfl⟩

theorem crcStep_crcUpd (x : Byte) (s : State) : CrcStep (.crcUpd x) (crcByte s.crc x) s (crcUpd x s) :=
  ⟨rfl, rfl, answered_of_complete rfl rfl rfl, rfl, rfl, rfl, rfl, rfl⟩

theorem crcStep_crcFin (s : State) : CrcStep .crcFin s.crc s (crcFin s) :=
  ⟨rfl, rfl, answered_of_complete rfl rfl rfl, rfl, rfl, rfl, rfl, rfl⟩

/-- Settles O4: `crcStep_crcInit` says what the command does. -/
theorem crcInitSetsAllOnes : Obligations.CrcInitSetsAllOnes := by
  unfold Obligations.CrcInitSetsAllOnes
  refine ⟨rfl, fun s => ?_⟩
  obtain ⟨hruns, hcrc, ⟨hbusy, hseq, hcpl⟩, ha, hb, hdin, hdout, hcmd⟩ := crcStep_crcInit s
  exact ⟨_, hruns, hcrc, ha, hb, hbusy, hseq, hcmd, hdin, hdout, hcpl⟩

/-- Settles O5: `crcStep_crcUpd` says what the command does, its update being eight iterated shift steps. -/
theorem crcUpdFoldsOneByte : Obligations.CrcUpdFoldsOneByte := by
  unfold Obligations.CrcUpdFoldsOneByte
  refine ⟨fun _ => rfl, fun s x => ?_⟩
  obtain ⟨hruns, hcrc, ⟨hbusy, hseq, hcpl⟩, ha, hb, hdin, hdout, hcmd⟩ := crcStep_crcUpd x s
  exact ⟨_, hruns, hcrc.trans (crcByte_eq_iterate _ x), ha, hb, hbusy, hseq, hcmd, hdin, hdout, hcpl⟩

/-- Settles O6: `crcStep_crcFin` says what the command does. -/
theorem crcFinReturnsTheInverted : Obligations.CrcFinReturnsTheInverted := by
  unfold Obligations.CrcFinReturnsTheInverted
  refine ⟨rfl, fun s => ?_⟩
  obtain ⟨hruns, hcrc, ⟨hbusy, hseq, hcpl⟩, ha, hb, hdin, hdout, hcmd⟩ := crcStep_crcFin s
  exact ⟨_, hruns, hcpl, hcrc, ha, hb, hbusy, hseq, hcmd, hdin, hdout⟩

/-! ### Commands in sequence -/

theorem execAll_cons_next {i : Instr} {s t : State} (h : exec i s = .next t) (is : List Instr) :
    execAll (i :: is) s = execAll is t := by
  rw [execAll, h]

/-- Commands that all answer next states leave the state the commands after them run on (spec/20_memory.md R70). -/
theorem execAll_append_next {is : List Instr} {s t : State} (h : execAll is s = .next t) (js : List Instr) :
    execAll (is ++ js) s = execAll js t := by
  induction is generalizing s with
  | nil => obtain rfl := Host.Outcome.next.inj h; rfl
  | cons i is ih =>
    obtain ⟨u, hu, -⟩ := exec_next i s
    rw [execAll_cons_next hu] at h
    rw [List.cons_append, execAll_cons_next hu, ih h]

/-- One `CRC.UPD` per byte runs the register over the bytes, with one record each. -/
theorem execAll_crcUpds (m : List Byte) (s : State) : ∃ t, execAll (m.map .crcUpd) s = .next t ∧
    t.crc = crcRun s.crc m ∧ t.cpl = s.cpl ++ m.map (fun _ => ⟨0x11, .ok, 0⟩) ∧ KeepsOutsideCrc s t := by
  induction m generalizing s with
  | nil => exact ⟨s, rfl, rfl, (List.append_nil _).symm, .refl s⟩
  | cons x m ih =>
    obtain ⟨hruns, hcrc, ⟨-, -, hcpl⟩, hkept⟩ := crcStep_crcUpd x s
    obtain ⟨t, ht, hcrc', hcpl', hkept'⟩ := ih (crcUpd x s)
    refine ⟨t, ?_, ?_, ?_, hkept.trans hkept'⟩
    · rw [List.map_cons, execAll_cons_next hruns, ht]
    · rw [hcrc', hcrc, crcRun_cons]
    · rw [hcpl', hcpl, List.append_assoc]; rfl

/-- The command sequence of R136 answers one record per command, the last with `crc32 m`. -/
theorem execAll_pseudoCrc32 (m : List Byte) (s : State) : ∃ t, execAll (pseudoCrc32 m) s = .next t ∧
    t.cpl = s.cpl ++ [⟨0x10, .ok, 0⟩] ++ m.map (fun _ => ⟨0x11, .ok, 0⟩) ++ [⟨0x12, .ok, crc32 m⟩] ∧
    KeepsOutsideCrc s t := by
  obtain ⟨hinit, hstart, ⟨-, -, hcplInit⟩, hkeptInit⟩ := crcStep_crcInit s
  obtain ⟨u, hupds, hrun, hcplUpds, hkeptUpds⟩ := execAll_crcUpds m (crcInit s)
  obtain ⟨hfin, -, ⟨-, -, hcplFin⟩, hkeptFin⟩ := crcStep_crcFin u
  have hsum : resultFor .crcFin u = crc32 m := by rw [resultFor, hrun, hstart, crc32]
  refine ⟨crcFin u, ?_, ?_, (hkeptInit.trans hkeptUpds).trans hkeptFin⟩
  · rw [pseudoCrc32, List.append_assoc, List.singleton_append, execAll_cons_next hinit, execAll_append_next hupds,
      execAll_cons_next hfin, execAll]
  · rw [hcplFin, hcplUpds, hcplInit, hsum]; rfl

/-- `crc32` with its fold and its inversion written out. -/
theorem crc32_eq_foldl_iterate (m : List Byte) :
    crc32 m = m.foldl (fun c x => crcShift^[8] (c ^^^ x.setWidth 32)) 0xFFFFFFFF ^^^ 0xFFFFFFFF := by
  rw [crc32, crcRun_eq_foldl_iterate]; rfl

/-- Settles O8: `execAll_pseudoCrc32` runs the sequence, and its last result is the fold written out. -/
theorem crcOfAMessageByCommands : Obligations.CrcOfAMessageByCommands := by
  unfold Obligations.CrcOfAMessageByCommands
  intro m s
  obtain ⟨t, hruns, hcpl, hkept⟩ := execAll_pseudoCrc32 m s
  refine ⟨t, hruns, ?_, ?_, hkept⟩
  · rw [hcpl, crc32_eq_foldl_iterate]; rfl
  · rw [hcpl, List.getLast?_concat]

/-! ### Known values -/

/-- Settles O9: runs compose by `crcRun_append`, the table form agrees byte by byte, and the known values are computed. -/
theorem crcKnownValuesAndComposition : Obligations.CrcKnownValuesAndComposition := by
  unfold Obligations.CrcKnownValuesAndComposition
  refine ⟨by decide, crcRun_append, by decide +kernel, by decide +kernel, endChunk_bytes, fun m => ?_⟩
  rw [crc32, crcRun, funext₂ crcByte_eq_crcByteByTable]; rfl

end Sys2Proof.Machine
end

section
/-! The Adler-32 unit: its three commands, the packed sums, and the checksum of a message by commands in closed form
(spec/41_adler32.md R151 to R157). -/

namespace Sys2Proof.Machine

/-! ### The sums in closed form -/

theorem adlerByte_fst_toNat (ab : Half × Half) (x : Byte) :
    (adlerByte ab x).1.toNat = (ab.1.toNat + x.toNat) % 65521 := adlerAdd_toNat _ _

theorem adlerByte_snd_toNat (ab : Half × Half) (x : Byte) :
    (adlerByte ab x).2.toNat = (ab.2.toNat + (adlerByte ab x).1.toNat) % 65521 := adlerAdd_toNat _ _

/-- The low sum over a message is its start plus the bytes, modulo 65521. -/
theorem adlerRun_fst_mod (ab : Half × Half) (m : List Byte) :
    (adlerRun ab m).1.toNat % 65521 = (ab.1.toNat + (m.map BitVec.toNat).sum) % 65521 := by
  induction m generalizing ab with
  | nil => rfl
  | cons x m ih =>
    rw [adlerRun_cons, ih, adlerByte_fst_toNat, Nat.mod_add_mod, Nat.add_assoc, List.map_cons, List.sum_cons]

/-- The bytes of a message, each times the number of updates from its own to the last (R156). -/
def adlerWeighted (m : List Byte) : Nat := (m.zipIdx.map (fun p => (m.length - p.2) * p.1.toNat)).sum

/-- The first byte counts in every update; the weights of the later bytes are those they have without it. -/
theorem adlerWeighted_cons (x : Byte) (m : List Byte) :
    adlerWeighted (x :: m) = (m.length + 1) * x.toNat + adlerWeighted m := by
  rw [adlerWeighted, adlerWeighted, List.zipIdx_cons']
  simp only [List.map_cons, List.map_map, List.sum_cons, List.length_cons, Nat.sub_zero, Function.comp_def,
    Prod.map_fst, Prod.map_snd, Nat.add_sub_add_right, id_eq]

/-- The high sum over a message: the start of the low sum counts once per byte, and every byte by its weight. -/
theorem adlerRun_snd_mod (ab : Half × Half) (m : List Byte) :
    (adlerRun ab m).2.toNat % 65521 = (ab.2.toNat + m.length * ab.1.toNat + adlerWeighted m) % 65521 := by
  induction m generalizing ab with
  | nil => simp [adlerRun, adlerWeighted]
  | cons x m ih =>
    have hfst : (adlerByte ab x).1.toNat ≡ ab.1.toNat + x.toNat [MOD 65521] := by
      rw [adlerByte_fst_toNat]; exact Nat.mod_modEq _ _
    have hsnd : (adlerByte ab x).2.toNat ≡ ab.2.toNat + (adlerByte ab x).1.toNat [MOD 65521] := by
      rw [adlerByte_snd_toNat]; exact Nat.mod_modEq _ _
    rw [adlerRun_cons, ih]
    calc (adlerByte ab x).2.toNat + m.length * (adlerByte ab x).1.toNat + adlerWeighted m
      _ ≡ ab.2.toNat + (ab.1.toNat + x.toNat) + m.length * (ab.1.toNat + x.toNat) + adlerWeighted m [MOD 65521] :=
          ((hsnd.trans (hfst.add_left _)).add (hfst.mul_left _)).add_right _
      _ = ab.2.toNat + (x :: m).length * ab.1.toNat + adlerWeighted (x :: m) := by
          rw [adlerWeighted_cons, List.length_cons]; ring

/-- Both sums over a message from their starting values, which are reduced, so that the sums are the remainders. -/
theorem adlerRun_start_closed (m : List Byte) :
    (adlerRun adlerStart m).1.toNat = (1 + (m.map BitVec.toNat).sum) % 65521 ∧
    (adlerRun adlerStart m).2.toNat = (m.length + adlerWeighted m) % 65521 := by
  obtain ⟨hfst, hsnd⟩ := adlerRun_lt (ab := adlerStart) (by decide) (by decide) m
  constructor
  · exact (Nat.mod_eq_of_lt hfst).symm.trans (adlerRun_fst_mod adlerStart m)
  · rw [← Nat.mod_eq_of_lt hsnd, adlerRun_snd_mod]
    simp [adlerStart, Config.adlerAStart, Config.adlerBStart]

/-- The remainder of two parts below the modulus and below twice it is one conditional subtraction (R152). -/
theorem mod_eq_subtract_once {n k : Nat} (h : n < 2 * k) : n % k = if n < k then n else n - k := by
  split
  case isTrue hlt => exact Nat.mod_eq_of_lt hlt
  case isFalse hge => rw [Nat.mod_eq_sub_mod (by omega), Nat.mod_eq_of_lt (by omega)]

/-! ### The packed sums -/

theorem adlerPack_upper (a b : Half) : (adlerPack a b).extractLsb' 16 16 = b := by
  apply BitVec.eq_of_getLsbD_eq
  intro i hi
  have hin : 16 + i < 32 := by omega
  simp [adlerPack, hi, hin]

theorem adlerPack_lower (a b : Half) : (adlerPack a b).extractLsb' 0 16 = a := by
  apply BitVec.eq_of_getLsbD_eq
  intro i hi
  have hin : i < 32 := by omega
  simp [adlerPack, hi, hin]

/-! ### The three commands -/

/-- From `s` to `t` only `a`, `b`, the completion records and what goes with a completion may have changed. -/
def KeepsOutsideSums (s t : State) : Prop :=
  t.crc = s.crc ∧ t.din = s.din ∧ t.dout = s.dout ∧ t.cmd = s.cmd

theorem KeepsOutsideSums.refl (s : State) : KeepsOutsideSums s s := ⟨rfl, rfl, rfl, rfl⟩

theorem KeepsOutsideSums.trans {s t u : State} (hst : KeepsOutsideSums s t) (htu : KeepsOutsideSums t u) :
    KeepsOutsideSums s u := by
  obtain ⟨hcrc, hi, ho, hc⟩ := hst
  obtain ⟨hcrc', hi', ho', hc'⟩ := htu
  exact ⟨hcrc'.trans hcrc, hi'.trans hi, ho'.trans ho, hc'.trans hc⟩

/-- Everything a command of the Adler-32 unit does: it answers the next state `t` with the sums at `ab` and its one
record, and keeps the rest. -/
structure AdlStep (i : Instr) (ab : Half × Half) (s t : State) : Prop where
  runs : exec i s = .next t
  sums : (t.a, t.b) = ab
  answered : Answered i s t
  kept : KeepsOutsideSums s t

theorem adlStep_adlInit (s : State) : AdlStep .adlInit adlerStart s (adlInit s) :=
  ⟨rfl, rfl, answered_of_complete rfl rfl rfl, rfl, rfl, rfl, rfl⟩

theorem adlStep_adlUpd (x : Byte) (s : State) : AdlStep (.adlUpd x) (adlerByte (s.a, s.b) x) s (adlUpd x s) :=
  ⟨rfl, rfl, answered_of_complete rfl rfl rfl, rfl, rfl, rfl, rfl⟩

theorem adlStep_adlFin (s : State) : AdlStep .adlFin (s.a, s.b) s (adlFin s) :=
  ⟨rfl, rfl, answered_of_complete rfl rfl rfl, rfl, rfl, rfl, rfl⟩

/-! ### A message by commands -/

/-- One `ADL.UPD` per byte runs the sums over the bytes, with one record each. -/
theorem execAll_adlUpds (m : List Byte) (s : State) : ∃ t, execAll (m.map .adlUpd) s = .next t ∧
    (t.a, t.b) = adlerRun (s.a, s.b) m ∧ t.cpl = s.cpl ++ m.map (fun _ => ⟨0x21, .ok, 0⟩) ∧
    KeepsOutsideSums s t := by
  induction m generalizing s with
  | nil => exact ⟨s, rfl, rfl, (List.append_nil _).symm, .refl s⟩
  | cons x m ih =>
    obtain ⟨hruns, hsums, ⟨-, -, hcpl⟩, hkept⟩ := adlStep_adlUpd x s
    obtain ⟨t, ht, hsums', hcpl', hkept'⟩ := ih (adlUpd x s)
    refine ⟨t, ?_, ?_, ?_, hkept.trans hkept'⟩
    · rw [List.map_cons, execAll_cons_next hruns, ht]
    · rw [hsums', hsums, adlerRun_cons]
    · rw [hcpl', hcpl, List.append_assoc]; rfl

/-- The command sequence of R156 leaves the sums over the message and one record per command, the last with
`adler32 m`. -/
theorem execAll_pseudoAdler32 (m : List Byte) (s : State) : ∃ t, execAll (pseudoAdler32 m) s = .next t ∧
    (t.a, t.b) = adlerRun adlerStart m ∧
    t.cpl = s.cpl ++ [⟨0x20, .ok, 0⟩] ++ m.map (fun _ => ⟨0x21, .ok, 0⟩) ++ [⟨0x22, .ok, adler32 m⟩] ∧
    KeepsOutsideSums s t := by
  obtain ⟨hinit, hstart, ⟨-, -, hcplInit⟩, hkeptInit⟩ := adlStep_adlInit s
  obtain ⟨u, hupds, hrun, hcplUpds, hkeptUpds⟩ := execAll_adlUpds m (adlInit s)
  obtain ⟨hfin, hsums, ⟨-, -, hcplFin⟩, hkeptFin⟩ := adlStep_adlFin u
  rw [hstart] at hrun
  have hresult : resultFor .adlFin u = adler32 m := by rw [adler32, ← hrun]; rfl
  refine ⟨adlFin u, ?_, hsums.trans hrun, ?_, (hkeptInit.trans hkeptUpds).trans hkeptFin⟩
  · rw [pseudoAdler32, List.append_assoc, List.singleton_append, execAll_cons_next hinit,
      execAll_append_next hupds, execAll_cons_next hfin, execAll]
  · rw [hcplFin, hcplUpds, hcplInit, hresult]; rfl

/-- Settles O13: `execAll_pseudoAdler32` runs the sequence, and `adlerRun_start_closed` gives its sums. -/
theorem adlerOfAMessageByCommands : Obligations.AdlerOfAMessageByCommands := by
  unfold Obligations.AdlerOfAMessageByCommands
  intro m s
  obtain ⟨t, hruns, hsums, hcpl, hkept⟩ := execAll_pseudoAdler32 m s
  obtain ⟨ha, hb⟩ := adlerRun_start_closed m
  have hpack : adler32 m = adlerPack t.a t.b := by rw [adler32, ← hsums]
  rw [← hsums] at ha hb
  exact ⟨t, hruns, hcpl, ha, hb, hpack, hkept⟩

/-! ### The commands one by one -/

/-- Settles O10: `adlStep_adlInit` says what the command does. -/
theorem adlInitSetsTheSums : Obligations.AdlInitSetsTheSums := by
  unfold Obligations.AdlInitSetsTheSums
  refine ⟨rfl, fun s => ?_⟩
  obtain ⟨hruns, hsums, ⟨hbusy, hseq, hcpl⟩, hcrc, hdin, hdout, hcmd⟩ := adlStep_adlInit s
  obtain ⟨ha, hb⟩ := Prod.mk.inj hsums
  exact ⟨_, hruns, ha, hb, hcrc, hbusy, hseq, hcmd, hdin, hdout, hcpl⟩

/-- Settles O11: `adlStep_adlUpd` says what the command does; reduced sums add up to less than twice the modulus. -/
theorem adlUpdFoldsOneByte : Obligations.AdlUpdFoldsOneByte := by
  unfold Obligations.AdlUpdFoldsOneByte
  refine ⟨fun _ => rfl, fun s x => ?_⟩
  obtain ⟨hruns, hsums, ⟨hbusy, hseq, hcpl⟩, hcrc, hdin, hdout, hcmd⟩ := adlStep_adlUpd x s
  have ha : (adlUpd x s).a.toNat = (s.a.toNat + x.toNat) % 65521 :=
    (congrArg (·.1.toNat) hsums).trans (adlerByte_fst_toNat _ x)
  have hb : (adlUpd x s).b.toNat = (s.b.toNat + (adlUpd x s).a.toNat) % 65521 :=
    (congrArg (·.2.toNat) hsums).trans (adlerByte_snd_toNat _ x)
  refine ⟨_, hruns, ha, hb, fun hs hs' => ⟨?_, ?_⟩, hcrc, hbusy, hseq, hcmd, hdin, hdout, hcpl⟩
  · exact ha.trans (mod_eq_subtract_once (by omega))
  · exact hb.trans (mod_eq_subtract_once (by omega))

/-- Settles O12: `adlStep_adlFin` says what the command does, and the two halves of its result are the sums. -/
theorem adlFinReturnsThePackedSums : Obligations.AdlFinReturnsThePackedSums := by
  unfold Obligations.AdlFinReturnsThePackedSums
  refine ⟨rfl, fun s => ?_⟩
  obtain ⟨hruns, hsums, ⟨hbusy, hseq, hcpl⟩, hcrc, hdin, hdout, hcmd⟩ := adlStep_adlFin s
  obtain ⟨ha, hb⟩ := Prod.mk.inj hsums
  exact ⟨_, adlerPack s.a s.b, hruns, hcpl, rfl, adlerPack_upper _ _, adlerPack_lower _ _, hcrc, ha, hb, hbusy, hseq,
    hcmd, hdin, hdout⟩

/-! ### Known values -/

/-- Settles O14: runs compose by `adlerRun_append`, and the known values are computed. -/
theorem adlerKnownValuesAndComposition : Obligations.AdlerKnownValuesAndComposition := by
  unfold Obligations.AdlerKnownValuesAndComposition
  exact ⟨by decide, adlerRun_append, by decide, by decide⟩

end Sys2Proof.Machine
end

section
/-! The stored-block wrapper: the greedy partition, the stream written out, where its block headers stand, and what
`SBW.WRAP` does with enough bytes on `DIN` and with too few (spec/42_stored_block_wrapper.md R172 to R180,
spec/20_memory.md R66). -/

namespace Sys2Proof.Machine

/-! ### The partition -/

/-- Pieces `0 .. k - 1` in order are the first `65535 × k` bytes. -/
theorem flatMap_piece (raw : List Byte) (k : Nat) : (List.range k).flatMap (piece raw) = raw.take (65535 * k) := by
  induction k with
  | zero => rfl
  | succ k ih =>
    rw [List.range_succ, List.flatMap_append, ih, List.flatMap_singleton, Nat.mul_succ, List.take_add]
    rfl

/-- The blocks have room for all bytes. -/
theorem le_blockCount_mul (n : Nat) : n ≤ 65535 * blockCount n := by
  simp only [blockCount, Config.blockMax]; omega

/-- The blocks before the last do not hold all bytes, if there is any. -/
theorem blockCount_pred_mul_lt {n : Nat} (h : 0 < n) : 65535 * (blockCount n - 1) < n := by
  simp only [blockCount, Config.blockMax]; omega

theorem lastPiece_length (raw : List Byte) :
    (piece raw (blockCount raw.length - 1)).length = raw.length - 65535 * (blockCount raw.length - 1) := by
  have hroom := le_blockCount_mul raw.length
  rw [piece_length]; omega

/-- Settles O15: a piece's length is `piece_length`, and the pieces joined are a `take` that leaves nothing out. -/
theorem partitionIsGreedy : Obligations.PartitionIsGreedy := by
  unfold Obligations.PartitionIsGreedy
  intro raw
  refine ⟨rfl, fun _ hk => piece_full hk, lastPiece_length raw, fun hne => ?_, ?_, ?_, fun _ _ => rfl⟩
  · have hlt := blockCount_pred_mul_lt (List.length_pos_iff.mpr hne)
    rw [lastPiece_length]; omega
  · rw [piece_length]; exact Nat.min_le_left _ _
  · rw [flatMap_piece]; exact List.take_of_length_le (le_blockCount_mul _)

/-! ### The stream written out -/

/-- A stored block whose final flag says whether `p`, its five header bytes written out (R172). -/
theorem storedBlock_decide (d : List Byte) (p : Prop) [Decidable p] :
    storedBlock d (decide p) = [if p then 0x01 else 0x00] ++ le16 (BitVec.ofNat 16 d.length)
      ++ le16 (BitVec.ofNat 16 d.length ^^^ 0xFFFF) ++ d := by
  simp only [storedBlock, blockHeader, blockHeaderByte, decide_eq_true_eq]

/-- Settles O16: every block is written out by `storedBlock_decide`; the length is `zwrap_length`. -/
theorem wrapIsHeaderBlocksTrailer : Obligations.WrapIsHeaderBlocksTrailer := by
  unfold Obligations.WrapIsHeaderBlocksTrailer
  intro raw
  refine ⟨?_, zwrap_length raw⟩
  simp only [zwrap, storedBlocks, storedBlock_decide, Config.streamHeader]

/-! ### Where the block headers stand -/

/-- The five bytes before the data of block `k`: every block before it is full (R180). -/
theorem zwrap_blockHeader_at {raw : List Byte} {k : Nat} (hk : k < blockCount raw.length) :
    ((zwrap raw).drop (2 + k * 65540)).take 5 =
      blockHeader (decide (k + 1 = blockCount raw.length))
        (BitVec.ofNat 16 (min 65535 (raw.length - 65535 * k))) := by
  have hblocks : (zwrap raw).drop 2 = storedBlocks raw ++ be32 (adler32 raw) := rfl
  have hblock := congrArg (List.take 5) (storedBlock_at hblocks hk)
  rw [List.take_take, Nat.min_eq_left (Nat.le_add_right _ _)] at hblock
  rw [hblock, ← piece_length]
  rfl

/-- The first seven bytes of a stream: its header and that of block 0. -/
theorem zwrap_take_seven (raw : List Byte) : (zwrap raw).take 7 =
    [0x78, 0x01] ++ blockHeader (decide (1 = blockCount raw.length)) (BitVec.ofNat 16 (min 65535 raw.length)) := by
  have hfirst : 0 < blockCount raw.length := by simp only [blockCount]; omega
  rw [show 7 = 2 + 5 from rfl, List.take_add]
  exact congrArg _ (zwrap_blockHeader_at hfirst)

/-- More than 65535 bytes and at most twice as many are a full block and a final one. -/
theorem zwrap_two_blocks {raw : List Byte} (hlong : 65535 < raw.length) (hshort : raw.length ≤ 131070) :
    blockCount raw.length = 2 ∧ (zwrap raw).length = 16 + raw.length ∧
    (zwrap raw).take 7 = [0x78, 0x01, 0x00, 0xFF, 0xFF, 0x00, 0x00] ∧
    ((zwrap raw).drop (7 + 65535)).take 5 = blockHeader true (BitVec.ofNat 16 (raw.length - 65535)) := by
  have hcount : blockCount raw.length = 2 := by
    rw [blockCount_long hlong, blockCount_short (by omega)]
  refine ⟨hcount, ?_, ?_, ?_⟩
  · rw [zwrap_length, streamLength, hcount]; omega
  · rw [zwrap_take_seven, hcount, Nat.min_eq_left (by omega)]; rfl
  · have hlast := zwrap_blockHeader_at (raw := raw) (k := 1) (by omega)
    rw [hcount, Nat.min_eq_right (by omega)] at hlast
    exact hlast

/-- Both sums after one byte: `1 + x`, which no reduction touches. -/
theorem adlerByte_start (x : Byte) : adlerByte adlerStart x = (1 + x.setWidth 16, 1 + x.setWidth 16) := by
  have hx := x.isLt
  have ha : (adlerByte adlerStart x).1 = 1 + x.setWidth 16 := by
    apply BitVec.eq_of_toNat_eq
    rw [adlerByte_fst_toNat]
    simp [adlerStart, Config.adlerAStart]; omega
  have hb : (adlerByte adlerStart x).2 = 1 + x.setWidth 16 := by
    apply BitVec.eq_of_toNat_eq
    rw [adlerByte_snd_toNat, ha]
    simp [adlerStart, Config.adlerBStart]; omega
  exact Prod.ext ha hb

theorem adler32_singleton (x : Byte) :
    adler32 [x] = ((1 + x.setWidth 32) <<< 16) ||| (1 + x.setWidth 32) := by
  have hx := x.isLt
  have hwide : (1 + x.setWidth 16 : Half).setWidth 32 = 1 + x.setWidth 32 := by
    apply BitVec.eq_of_toNat_eq
    simp; omega
  simp only [adler32, adlerRun, List.foldl, adlerByte_start, adlerPack, hwide]

theorem zwrap_singleton (x : Byte) : zwrap [x] =
    [0x78, 0x01, 0x01, 0x01, 0x00, 0xFE, 0xFF, x] ++
      be32 (((1 + x.setWidth 32) <<< 16) ||| (1 + x.setWidth 32)) := by
  have hone : [x].length ≤ 65535 := Nat.succ_le_succ (Nat.zero_le _)
  rw [zwrap, storedBlocks_short hone, storedBlock, List.length_singleton, adler32_singleton]
  rfl

/-- Settles O20: the block headers by `zwrap_take_seven`, `zwrap_two_blocks` and `zwrap_blockHeader_at`, the lengths by
`zwrap_length`; the two shortest streams whole. -/
theorem wrapCornerCases : Obligations.WrapCornerCases := by
  unfold Obligations.WrapCornerCases
  refine ⟨by decide, zwrap_singleton, fun raw h => ?_, fun raw h => ?_, fun raw h => ?_, fun raw h => ?_⟩
  · have hcount : blockCount raw.length = 1 := by rw [h]; rfl
    refine ⟨hcount, ?_, ?_⟩
    · rw [zwrap_length, h]; rfl
    · rw [zwrap_take_seven, hcount, h]; rfl
  · obtain ⟨hcount, hlength, hfirst, hlast⟩ := zwrap_two_blocks (raw := raw) (by omega) (by omega)
    exact ⟨hcount, by rw [hlength, h], hfirst, by rw [hlast, h]; rfl⟩
  · obtain ⟨hcount, hlength, hfirst, hlast⟩ := zwrap_two_blocks (raw := raw) (by omega) (by omega)
    exact ⟨hcount, by rw [hlength, h], hfirst, by rw [hlast, h]; rfl⟩
  · have hcount : blockCount raw.length = 769 := by rw [h]; rfl
    have hlast := zwrap_blockHeader_at (raw := raw) (k := 768) (by omega)
    refine ⟨hcount, ?_, fun k hk => ?_, ?_⟩
    · rw [zwrap_length, h]; rfl
    · have hnotLast : k + 1 ≠ 769 := by omega
      have hfull : min 65535 (50335744 - 65535 * k) = 65535 := by omega
      rw [zwrap_blockHeader_at (by omega), hcount, h, hfull, decide_eq_false hnotLast]; rfl
    · rw [hlast, hcount, h]; rfl

/-! ### `SBW.WRAP` with too few bytes -/

/-- An operation that completes without the bytes the host supplies later completes with them as well, and leaves them. -/
theorem settle_supply_of_atRest {s t : State} (h : settle s = .next t) (hseq : t.seq = Sequencer.zero)
    (hidle : t.busy = false) (ys : List Byte) : settle (s.supply ys) = .next (t.supply ys) := by
  obtain ⟨j, hj, hbeats, -⟩ := drive_beats beatBound s
  rw [← settle_next h] at hbeats
  obtain ⟨k, hk⟩ := Nat.exists_eq_add_of_le hj
  have hpaused : beat (t.supply ys) = none := beat_idle hseq
  rw [settle, hk, (hbeats.supply ys).drive, drive_paused hpaused]
  exact atPause_idle hidle

/-- With fewer than `n` bytes `SBW.WRAP n` does not complete: with the missing bytes supplied it would leave them on `DIN`,
and it consumes them. -/
theorem execSbwWrap_not_atRest {n : Word} {s t : State} (hshort : s.din.length < n.toNat)
    (h : execSbwWrap n s = .next t) : ¬ (t.busy = false ∧ t.seq = Sequencer.zero) := by
  rintro ⟨hidle, hseq⟩
  obtain ⟨missing, hmissing⟩ : ∃ ys : List Byte, ys.length = n.toNat - s.din.length :=
    ⟨List.replicate _ 0, List.length_replicate⟩
  have hleft : execSbwWrap n (s.supply missing) = .next (t.supply missing) :=
    settle_supply_of_atRest h hseq hidle missing
  obtain ⟨u, -, -, hu, hx⟩ := execSbwWrap_whole n (s.din ++ missing) [] (s.supply missing)
    (List.append_nil _).symm (by rw [List.length_append]; omega)
  have hdin : (t.supply missing).din = [] := by
    rw [Host.Outcome.next.inj (hleft.symm.trans hx)]
    exact congrArg State.din hu
  obtain ⟨-, hnil⟩ := List.append_eq_nil_iff.mp hdin
  rw [hnil, List.length_nil] at hmissing
  omega

/-- A byte step of `SBW.WRAP` leaves `crc` alone (R178). -/
theorem Wrapping.beat_crc {n : Word} {s t : State} (h : Wrapping n s) (hb : Machine.beat s = some t) :
    t.crc = s.crc := by
  obtain ⟨-, hl, hf, -⟩ := h
  obtain ⟨x, u, hu, hcase⟩ := beat_cases hb
  have hframe : frameByte s = (sbwByte n State.inPop s).map (afterByte streamDone (State.setFrame .atRest)) := by
    simp only [frameByte, hf, hl]
  obtain ⟨⟨y, v⟩, hv, hafter⟩ := Option.map_eq_some_iff.mp (hframe.symm.trans hu)
  obtain ⟨hcrc, -, -⟩ := (sbwByte_payloadSource n inPop_payloadSource).keeps hv
  obtain ⟨-, rfl⟩ := Prod.mk.inj hafter
  have hend : (if streamDone v then v.setFrame .atRest else v).crc = v.crc := by split <;> rfl
  obtain ⟨-, rfl⟩ | ⟨-, rfl⟩ := hcase <;> exact hend.trans hcrc

theorem Wrapping.din_nil_of_holding {n : Word} {s : State} (h : Wrapping n s) (hh : holding s = true) : s.din = [] := by
  obtain ⟨-, hl, hf, -⟩ := h
  simp only [holding, hf, hl, Bool.and_eq_true, List.isEmpty_iff] at hh
  exact hh.2

/-- With fewer than `n` bytes `SBW.WRAP n` holds, still inside its stream, with `crc` and `CMD` as they were. -/
theorem execSbwWrap_holds {n : Word} {s : State} (hshort : s.din.length < n.toNat) :
    ∃ t, execSbwWrap n s = .next t ∧ Wrapping n t ∧ holding t = true ∧ t.crc = s.crc ∧ t.cmd = s.cmd := by
  have hstep : ∀ u, (Wrapping n u ∧ u.crc = s.crc ∧ u.cmd = s.cmd) → holding u = true ∨ ∃ v, beat u = some v ∧
      (Completes u v ∨ ((Wrapping n v ∧ v.crc = s.crc ∧ v.cmd = s.cmd) ∧ sbwLeft n v.seq < sbwLeft n u.seq)) := by
    rintro u ⟨hu, hcrc, hcmd⟩
    obtain hh | ⟨v, hv, hdone | ⟨hw, hlt⟩⟩ := hu.beat
    · exact .inl hh
    · exact .inr ⟨v, hv, .inl hdone⟩
    · obtain ⟨hcmd', -⟩ := beat_frame hv
      exact .inr ⟨v, hv, .inr ⟨⟨hw, (hu.beat_crc hv).trans hcrc, hcmd'.trans hcmd⟩, hlt⟩⟩
  obtain ⟨t, ht, -, ⟨⟨hw, hcrc, hcmd⟩, hh⟩ | hrest⟩ :=
    settle_cases (left := fun u => sbwLeft n u.seq) hstep ⟨wrapping_startSbwWrap n s, rfl, rfl⟩ (sbwLeft_lt n _)
  · exact ⟨t, ht, hw, hh, hcrc, hcmd⟩
  · exact absurd hrest (execSbwWrap_not_atRest hshort ht)

/-- Settles O17: `execSbwWrap_whole` with the bytes on `DIN`, `execSbwWrap_holds` without. -/
theorem wrapEmitsTheStream : Obligations.WrapEmitsTheStream := by
  unfold Obligations.WrapEmitsTheStream
  refine ⟨fun _ => rfl, fun n raw rest s hdin hlen => ?_, fun n s hshort => ?_⟩
  · obtain ⟨u, -, -, hu, hx⟩ := execSbwWrap_whole n raw rest s hdin hlen.symm
    have hdout : u.dout = s.dout := (congrArg State.dout hu :)
    have hsums : (u.a, u.b) = raw.foldl adlerByte (1, 0) := congrArg (fun v => (v.a, v.b)) hu
    obtain ⟨hidle, hseq, hcpl⟩ : Answered (.sbwWrap n) s ((u.emit (zwrap raw)).complete .ok 0) :=
      answered_of_complete rfl (congrArg State.latch hu :) (congrArg State.cpl hu :)
    refine ⟨_, hx, congrArg (· ++ zwrap raw) hdout, ?_, (congrArg State.din hu :), hsums, (congrArg State.crc hu :),
      (congrArg State.cmd hu :), hcpl, hidle, hseq⟩
    rw [← hlen]; exact zwrap_length raw
  · obtain ⟨t, ht, hw, hh, hcrc, hcmd⟩ := execSbwWrap_holds hshort
    have hdin := hw.din_nil_of_holding hh
    obtain ⟨hbusy, -⟩ := hw
    refine ⟨t, ht, hbusy, hdin, ?_, hcrc, hcmd⟩
    obtain ⟨hidle, -⟩ | ⟨-, hcpl⟩ := execSbwWrap_record ht
    · rw [hbusy] at hidle; cases hidle
    · exact hcpl

end Sys2Proof.Machine
end

section
/-! The scanline generator: the raster byte by byte, what `SLG.GEN` does with legal and illegal dimensions, and the
broadcast of a row for any number of lanes (spec/43_scanline_generator.md R202 to R206). -/

namespace Sys2Proof.Machine

/-! ### The raster byte by byte -/

/-- A repeated sequence is periodic: byte `i` is byte `i mod |s|` of one repetition. -/
theorem rep_getElem? {s : List Byte} {k i : Nat} (hi : i < k * s.length) : (rep k s)[i]? = s[i % s.length]? := by
  induction k generalizing i with
  | zero => omega
  | succ k ih =>
    rw [rep_succ]
    obtain hfirst | hlater := Nat.lt_or_ge i s.length
    · rw [List.getElem?_append_left hfirst, Nat.mod_eq_of_lt hfirst]
    · rw [List.getElem?_append_right hlater, ih (by rw [Nat.succ_mul] at hi; omega), ← Nat.mod_eq_sub_mod hlater]

/-- The byte of channel 0, 1 or 2 of a pixel. -/
theorem pixel_getElem? (r g b : Byte) {c : Nat} (hc : c < 3) :
    [r, g, b][c]? = some (if c = 0 then r else if c = 1 then g else b) := by
  match c, hc with
  | 0, _ | 1, _ | 2, _ => rfl

/-- Byte `j` of a scanline: the filter byte, then the channels in turn. -/
theorem rowBytes_getElem? {w j : Nat} (r g b : Byte) (hj : j < 1 + 3 * w) :
    (rowBytes w r g b)[j]? = some (
      if j = 0 then 0x00 else if (j - 1) % 3 = 0 then r else if (j - 1) % 3 = 1 then g else b) := by
  cases j with
  | zero => rfl
  | succ j =>
    have hpixels : j < w * [r, g, b].length := by simp only [List.length_cons, List.length_nil]; omega
    rw [rowBytes, List.getElem?_cons_succ, rep_getElem? hpixels, if_neg (Nat.succ_ne_zero j), Nat.add_sub_cancel]
    exact pixel_getElem? r g b (Nat.mod_lt j (Nat.succ_pos 2))

/-- Byte `i` of the raster is byte `i mod (1 + 3w)` of its row. -/
theorem raster_getElem? {w h i : Nat} (r g b : Byte) (hi : i < h * (1 + 3 * w)) :
    (raster w h r g b)[i]? = (rowBytes w r g b)[i % (1 + 3 * w)]? := by
  rw [← rowBytes_length w r g b] at hi ⊢
  exact rep_getElem? hi

/-- Within the legal range a raster has at least the 4 bytes of one pixel and at most those of 4096 rows of 4096. -/
theorem rasterLength_bounds {w h : Nat} (hw1 : 1 ≤ w) (hw2 : w ≤ 4096) (hh1 : 1 ≤ h) (hh2 : h ≤ 4096) :
    4 ≤ rasterLength w h ∧ rasterLength w h ≤ 50335744 := by
  have hmin : 1 * (1 + 3 * 1) ≤ h * (1 + 3 * w) := Nat.mul_le_mul hh1 (by omega)
  have hmax : h * (1 + 3 * w) ≤ 4096 * (1 + 3 * 4096) := Nat.mul_le_mul hh2 (by omega)
  exact ⟨hmin, hmax⟩

/-- Settles O21: the raster repeats its row, and the row repeats its pixel. -/
theorem rasterByteByByte : Obligations.RasterByteByByte := by
  unfold Obligations.RasterByteByByte
  intro w h r g b
  refine ⟨raster_length w h r g b, rfl, fun i hi => ?_, fun hw1 hw2 hh1 hh2 => ?_⟩
  · have hj : i % (1 + 3 * w) < 1 + 3 * w := Nat.mod_lt i (by omega)
    rw [raster_getElem? r g b hi, rowBytes_getElem? r g b hj]
  · obtain ⟨hmin, hmax⟩ := rasterLength_bounds hw1 hw2 hh1 hh2
    rw [raster_length]
    exact ⟨hmin, hmax, by rintro rfl rfl; rfl, by rintro rfl rfl; rfl⟩

/-! ### `SLG.GEN` -/

theorem dimsLegal_eq_false_iff (w h : Word) :
    dimsLegal w h = false ↔ w.toNat < 1 ∨ 4096 < w.toNat ∨ h.toNat < 1 ∨ 4096 < h.toNat := by
  rw [← Bool.not_eq_true, dimsLegal_iff]; omega

/-- Settles O22: the legal dimensions by `execSlgGen_whole`, the others by `execSlgGen_illegal`. -/
theorem generatorEmitsTheRaster : Obligations.GeneratorEmitsTheRaster := by
  unfold Obligations.GeneratorEmitsTheRaster
  refine ⟨fun _ _ _ _ _ => rfl, fun w h r g b s hw1 hw2 hh1 hh2 => ?_, fun w h r g b s hout => ?_⟩
  · have hl := (dimsLegal_iff w h).mpr ⟨hw1, hw2, hh1, hh2⟩
    obtain ⟨u, -, -, hu, hx⟩ := execSlgGen_whole w h r g b hl s
    rw [startSlgGen_legal r g b hl] at hu
    have hdout : u.dout = s.dout := (congrArg State.dout hu :)
    obtain ⟨hidle, hseq, hcpl⟩ :
        Answered (.slgGen w h r g b) s ((u.emit (raster w.toNat h.toNat r g b)).complete .ok 0) := execSlgGen_answers hx
    have hverdict : verdict (.slgGen w h r g b) = .ok := if_pos hl
    rw [hverdict] at hcpl
    exact ⟨_, hx, congrArg (· ++ raster w.toNat h.toNat r g b) hdout, raster_length _ _ r g b,
      (congrArg State.din hu :), (congrArg State.crc hu :), (congrArg State.a hu :), (congrArg State.b hu :),
      (congrArg State.cmd hu :), hcpl, hidle, hseq⟩
  · have hl := (dimsLegal_eq_false_iff w h).mpr hout
    exact ⟨_, execSlgGen_illegal r g b hl s, rfl, rfl, rfl, rfl, rfl, rfl, rfl, rfl, rfl⟩

/-! ### The broadcast -/

/-- After `k` beats lanes `0 .. k × lanes - 1` hold the colour, and the others what they held before. -/
theorem broadcastBeats_getElem? (lanes : Nat) (colour : Pixel) (k : Nat) (image : List Pixel) (i : Nat) :
    (broadcastBeats lanes colour k image)[i]? = image[i]?.map (fun old => if i < k * lanes then colour else old) := by
  induction k with
  | zero => simp [broadcastBeats]
  | succ k ih =>
    rw [broadcastBeats, broadcastBeat, List.getElem?_mapIdx, ih, Option.map_map, Nat.succ_mul]
    congr 1
    funext old
    rw [Function.comp_apply]
    obtain hearlier | hlater := Nat.lt_or_ge i (k * lanes)
    · rw [if_pos hearlier, ite_self, if_pos (Nat.lt_add_right lanes hearlier)]
    · simp only [Nat.not_lt.mpr hlater, hlater, if_false, true_and]

/-- The beats of a row reach its last lane. -/
theorem length_le_beats_mul {lanes : Nat} (hlanes : 1 ≤ lanes) (n : Nat) : n ≤ (n + (lanes - 1)) / lanes * lanes := by
  have hdiv := Nat.div_add_mod (n + (lanes - 1)) lanes
  have hmod := Nat.mod_lt (n + (lanes - 1)) hlanes
  rw [Nat.mul_comm] at hdiv
  omega

/-- Whatever the number of lanes, a broadcast row holds the colour in every lane. -/
theorem broadcastRow_eq_replicate {lanes : Nat} (hlanes : 1 ≤ lanes) (colour : Pixel) (image : List Pixel) :
    broadcastRow lanes colour image = List.replicate image.length colour := by
  apply List.ext_getElem?
  intro i
  rw [broadcastRow, broadcastBeats_getElem?, List.getElem?_replicate]
  obtain hin | hout := Nat.lt_or_ge i image.length
  · rw [List.getElem?_eq_getElem hin, Option.map_some, if_pos hin,
      if_pos (Nat.lt_of_lt_of_le hin (length_le_beats_mul hlanes image.length))]
  · rw [List.getElem?_eq_none hout, Option.map_none, if_neg (Nat.not_lt.mpr hout)]

theorem serialiseRow_replicate (w : Nat) (r g b : Byte) :
    serialiseRow (List.replicate w ⟨r, g, b⟩) = rowBytes w r g b := by
  rw [serialiseRow, List.map_replicate, rowBytes, rep]

/-- Settles O23: by `broadcastRow_eq_replicate` the row image is the colour in every lane, and it serialises to the row. -/
theorem broadcastIsTheRowForAnyLanes : Obligations.BroadcastIsTheRowForAnyLanes := by
  unfold Obligations.BroadcastIsTheRowForAnyLanes
  intro lanes h r g b image hlanes
  rw [broadcastRow_eq_replicate hlanes, serialiseRow_replicate]
  exact ⟨rfl, rfl⟩

end Sys2Proof.Machine
end

section
/-! The chunk serializer: what `CHK.MAKE` does with enough bytes on `DIN` and with too few
(spec/44_chunk_serializer.md R222 to R226, spec/20_memory.md R66). -/

namespace Sys2Proof.Machine

/-! ### What `CHK.MAKE` leaves alone -/

/-- A byte of `CHK.MAKE`'s frame leaves the sums alone, and the frame goes on or is the last (R226). -/
theorem frameByte_chunk {s t : State} {x : Byte} (hf : s.seq.frame = .chunk) (h : frameByte s = some (x, t)) :
    (t.seq.frame = .chunk ∨ t.seq.frame = .atRest) ∧ t.a = s.a ∧ t.b = s.b := by
  cases ho : s.latch.operands with
  | chunk tag len =>
    simp only [frameByte, hf, ho] at h
    obtain ⟨⟨y, u⟩, hu, hafter⟩ := Option.map_eq_some_iff.mp h
    obtain ⟨hframe, -⟩ := keeps_frame (fun _ hout => hout.chkByte tag len hout.inPop) hu
    have hsums : u.a = s.a ∧ u.b = s.b := by
      obtain ⟨-, v, hv, hcp⟩ | hown := chkByte_cases hu
      · obtain ⟨-, hpop⟩ := inPop_cases hv
        rw [hcp, hpop]; exact ⟨rfl, rfl⟩
      · rw [hown]; exact ⟨rfl, rfl⟩
    obtain ⟨-, rfl⟩ := Prod.mk.inj hafter
    split
    · exact ⟨.inr rfl, hsums⟩
    · exact ⟨.inl (hframe.trans hf), hsums⟩
  | bare | byte _ | length _ | image _ _ _ _ _ => simp [frameByte, hf, ho] at h

/-- A byte step of `CHK.MAKE` leaves the sums alone, and the frame goes on or is over. -/
theorem beat_chunk {s t : State} (hf : s.seq.frame = .chunk) (h : beat s = some t) :
    (t.seq.frame = .chunk ∨ t.seq.frame = .atRest) ∧ t.a = s.a ∧ t.b = s.b := by
  obtain ⟨x, u, hu, hcase⟩ := beat_cases h
  obtain ⟨hframe, hsums⟩ := frameByte_chunk hf hu
  obtain ⟨-, rfl⟩ | ⟨-, rfl⟩ := hcase
  · exact ⟨hframe, hsums⟩
  · exact ⟨.inr rfl, hsums⟩

/-- Completing or holding, `CHK.MAKE` leaves the sums and `CMD` as they were (R226). -/
theorem execChkMake_frame {tag len : Word} {s t : State} (h : execChkMake tag len s = .next t) :
    t.a = s.a ∧ t.b = s.b ∧ t.cmd = s.cmd := by
  have hkeep : ∀ u v : State,
      ((u.seq.frame = .chunk ∨ u.seq.frame = .atRest) ∧ u.a = s.a ∧ u.b = s.b ∧ u.cmd = s.cmd) → beat u = some v →
      ((v.seq.frame = .chunk ∨ v.seq.frame = .atRest) ∧ v.a = s.a ∧ v.b = s.b ∧ v.cmd = s.cmd) := by
    rintro u v ⟨hrun | hrest, ha, hb, hcmd⟩ hv
    · obtain ⟨hframe, ha', hb'⟩ := beat_chunk hrun hv
      obtain ⟨hcmd', -⟩ := beat_frame hv
      exact ⟨hframe, ha'.trans ha, hb'.trans hb, hcmd'.trans hcmd⟩
    · rw [beat_atRest hrest] at hv; cases hv
  obtain ⟨-, hkept⟩ := drive_keeps hkeep beatBound (s := startChkMake tag len s) ⟨.inl rfl, rfl, rfl, rfl⟩
  rw [settle_next h]
  exact hkept

/-! ### `CHK.MAKE` with too few bytes -/

/-- An operation that would consume bytes still missing from `DIN` does not complete without them: having completed, it would
leave them there. -/
theorem not_atRest_of_missing {s t : State} {missing : List Byte} (hmissing : missing ≠ [])
    (hwhole : ∃ u, settle (s.supply missing) = .next u ∧ u.din = []) (h : settle s = .next t) :
    ¬ (t.busy = false ∧ t.seq = Sequencer.zero) := by
  rintro ⟨hidle, hseq⟩
  obtain ⟨u, hu, hdin⟩ := hwhole
  have hleft : settle (s.supply missing) = .next (t.supply missing) := settle_supply_of_atRest h hseq hidle missing
  rw [← Host.Outcome.next.inj (hleft.symm.trans hu)] at hdin
  exact hmissing (List.append_eq_nil_iff.mp hdin).2

/-- With fewer than `len` bytes `CHK.MAKE tag, len` does not complete. -/
theorem execChkMake_not_atRest {tag len : Word} {s t : State} (hshort : s.din.length < len.toNat)
    (h : execChkMake tag len s = .next t) : ¬ (t.busy = false ∧ t.seq = Sequencer.zero) := by
  obtain ⟨missing, hmissing⟩ : ∃ ys : List Byte, ys.length = len.toNat - s.din.length :=
    ⟨List.replicate _ 0, List.length_replicate⟩
  obtain ⟨u, -, -, hu, hx⟩ := execChkMake_whole tag len (s.din ++ missing) [] (s.supply missing)
    (List.append_nil _).symm (by rw [List.length_append]; omega)
  have hne : missing ≠ [] := List.ne_nil_of_length_pos (by omega)
  have hdin : ((u.emit (chunk tag (s.din ++ missing))).complete .ok 0).din = [] := (congrArg State.din hu :)
  exact not_atRest_of_missing (s := startChkMake tag len s) hne ⟨_, hx, hdin⟩ h

theorem din_nil_of_holding {s : State} (h : holding s = true) : s.din = [] := by
  simp only [holding] at h
  split at h
  · exact List.isEmpty_iff.mp (Bool.and_eq_true_iff.mp h).2
  · exact List.isEmpty_iff.mp (Bool.and_eq_true_iff.mp h).2
  · cases h

/-- With fewer than `len` bytes `CHK.MAKE tag, len` holds, having consumed them all and recorded nothing. -/
theorem execChkMake_holds {tag len : Word} {s : State} (hshort : s.din.length < len.toNat) :
    ∃ t, execChkMake tag len s = .next t ∧ Serializing tag len t ∧ holding t = true ∧ t.din = [] ∧ t.cpl = s.cpl := by
  obtain ⟨t, ht, -, ⟨hin, hhold⟩ | hrest⟩ := (serializing_startChkMake tag len s).settle
  · refine ⟨t, ht, hin, hhold, din_nil_of_holding hhold, ?_⟩
    obtain ⟨hbusy, -⟩ := hin
    obtain ⟨hidle, -⟩ | ⟨-, hcpl⟩ := execChkMake_record ht
    · rw [hbusy] at hidle; cases hidle
    · exact hcpl
  · exact absurd hrest (execChkMake_not_atRest hshort ht)

/-- Settles O24: `execChkMake_whole` with the bytes on `DIN`, `execChkMake_holds` without. -/
theorem serializerEmitsTheChunk : Obligations.SerializerEmitsTheChunk := by
  unfold Obligations.SerializerEmitsTheChunk
  refine ⟨fun _ _ => rfl, fun tag len p rest s hdin hlen => ?_, fun tag len s hshort => ?_⟩
  · obtain ⟨u, -, -, hu, hx⟩ := execChkMake_whole tag len p rest s hdin hlen.symm
    have hdout : ((u.emit (chunk tag p)).complete .ok 0).dout = s.dout ++ chunk tag p :=
      congrArg (· ++ chunk tag p) (congrArg State.dout hu :)
    have hbytes : chunk tag p = be32 len ++ be32 tag ++ p ++ be32 (crc32 (be32 tag ++ p)) := by
      rw [chunk, hlen, BitVec.ofNat_toNat, BitVec.setWidth_eq]
    obtain ⟨hidle, hseq, hcpl⟩ : Answered (.chkMake tag len) s ((u.emit (chunk tag p)).complete .ok 0) :=
      answered_of_complete rfl (congrArg State.latch hu :) (congrArg State.cpl hu :)
    obtain ⟨ha, hb, hcmd⟩ := execChkMake_frame hx
    refine ⟨_, hx, hbytes ▸ hdout, ?_, (congrArg State.din hu :), (congrArg State.crc hu :), ha, hb, hcmd, hcpl,
      hidle, hseq⟩
    rw [hdout, List.length_append, chunk_length, hlen]
  · obtain ⟨t, ht, ⟨hbusy, -⟩, -, hdin, hcpl⟩ := execChkMake_holds (tag := tag) hshort
    exact ⟨t, ht, hbusy, hdin, hcpl, execChkMake_frame ht⟩

end Sys2Proof.Machine
end

section
/-! The file encoder: the file written out, its lengths from the operands, and what `ENC.ENCODE` does with legal and illegal
dimensions (spec/45_file_encoder.md R242 to R248). -/

namespace Sys2Proof.Machine

/-! ### The file and its lengths -/

/-- Settles O27: the named constants of R242 put at their places in `file`. -/
theorem fileIsSignatureAndThreeChunks : Obligations.FileIsSignatureAndThreeChunks := by
  unfold Obligations.FileIsSignatureAndThreeChunks
  intro w h r g b
  simp only [file, headerPayload, Config.signature, Config.headerConstants, Config.tagIHDR, Config.tagIDAT,
    Config.tagIEND]

/-- A stream with a raw byte has a block anyway, so the `max 1` of R174 changes nothing (R244). -/
theorem blockCount_of_pos {n : Nat} (h : 0 < n) : blockCount n = (n + 65534) / 65535 := by
  simp only [blockCount, Config.blockMax]; omega

theorem streamLength_mono {m n : Nat} (h : m ≤ n) : streamLength m ≤ streamLength n := by
  simp only [streamLength, blockCount, Config.blockMax]; omega

/-- `zlen` between its extremes, the streams of the smallest and the largest legal raster (R244). -/
theorem streamLength_bounds {n : Nat} (hmin : 4 ≤ n) (hmax : n ≤ 50335744) :
    15 ≤ streamLength n ∧ streamLength n ≤ 50339595 :=
  ⟨streamLength_mono hmin, streamLength_mono hmax⟩

/-- Settles O28: every length is a function of `n`, which `rasterLength_bounds` bounds; the ends are computed. -/
theorem fileLengthsFromTheOperands : Obligations.FileLengthsFromTheOperands := by
  unfold Obligations.FileLengthsFromTheOperands
  intro w h r g b hw1 hw2 hh1 hh2 n nblk zlen hn hblk hz
  obtain ⟨hmin, hmax⟩ : 4 ≤ n ∧ n ≤ 50335744 := hn ▸ rasterLength_bounds hw1 hw2 hh1 hh2
  have hzlen : streamLength n = zlen := by rw [hz, hblk]; rfl
  have hstream : (zwrap (raster w.toNat h.toNat r g b)).length = zlen := by
    rw [zwrap_length, raster_length, ← hzlen, hn]; rfl
  have hfile : (file w h r g b).length = 57 + zlen := by
    rw [file_length, fileLength, ← hzlen, hn]; rfl
  have hcount : nblk = (n + 65534) / 65535 := hblk.trans (blockCount_of_pos (Nat.lt_of_lt_of_le (Nat.succ_pos 3) hmin))
  obtain ⟨hzmin, hzmax⟩ : 15 ≤ zlen ∧ zlen ≤ 50339595 := hzlen ▸ streamLength_bounds hmin hmax
  refine ⟨hstream, hfile, by omega, hmin, hcount, hzmin, hzmax, by omega, by omega, fun hw hh => ?_, fun hw hh => ?_⟩
  · rw [hw, hh] at hn; omega
  · rw [hw, hh] at hn; omega

/-! ### `ENC.ENCODE` -/

/-- The running remainder of the end chunk, whose payload is empty: that of its tag alone (R248). -/
theorem crcRun_tagIEND : crcRun Config.crcStart (be32 Config.tagIEND) = 0x51BD9F7D := by decide +kernel

/-- Settles O29: the legal dimensions by `execEncEncode_whole`, the others by `execEncEncode_illegal`. -/
theorem encoderEmitsTheFile : Obligations.EncoderEmitsTheFile := by
  unfold Obligations.EncoderEmitsTheFile
  refine ⟨fun _ _ _ _ _ => rfl, fun w h r g b s hw1 hw2 hh1 hh2 => ?_, fun w h r g b s hout => ?_⟩
  · have hl := (dimsLegal_iff w h).mpr ⟨hw1, hw2, hh1, hh2⟩
    obtain ⟨u, -, -, hu, hx⟩ := execEncEncode_whole w h r g b hl s
    rw [startEncEncode_legal r g b hl, crcRun_tagIEND] at hu
    have hdout : u.dout = s.dout := (congrArg State.dout hu :)
    have hsums : (u.a, u.b) = (raster w.toNat h.toNat r g b).foldl adlerByte (1, 0) :=
      congrArg (fun v => (v.a, v.b)) hu
    obtain ⟨hidle, hseq, hcpl⟩ :
        Answered (.encEncode w h r g b) s ((u.emit (file w h r g b)).complete .ok 0) := execEncEncode_answers hx
    have hverdict : verdict (.encEncode w h r g b) = .ok := if_pos hl
    rw [hverdict] at hcpl
    exact ⟨_, hx, congrArg (· ++ file w h r g b) hdout, file_length w h r g b, (congrArg State.din hu :),
      (congrArg State.crc hu :), hsums, (congrArg State.cmd hu :), hcpl, hidle, hseq⟩
  · have hl := (dimsLegal_eq_false_iff w h).mpr hout
    exact ⟨_, execEncEncode_illegal r g b hl s, rfl, rfl, rfl, rfl, rfl, rfl, rfl, rfl, rfl⟩

end Sys2Proof.Machine
end

section
/-! The exceptions: what taking one does to the state, and which dimensions take `InvalidDimensions`
(spec/60_exceptions.md R271, R274). -/

namespace Sys2Proof.Machine

/-! ### Taking an exception -/

/-- Settles O3: `raise` is a completion, which clears the counters; they are 0 already. -/
theorem raiseAppendsARecordOnly : Obligations.RaiseAppendsARecordOnly := by
  unfold Obligations.RaiseAppendsARecordOnly
  intro e s hrest
  rw [State.raise_eq]
  refine ⟨State.complete_cpl .., ?_, rfl, rfl, rfl, rfl, rfl, rfl, rfl, hrest.symm⟩
  cases e with
  | invalidDimensions => rfl
  | illegalCommand => rfl

/-! ### `InvalidDimensions` -/

/-- An answered command whose result is 0 has the record of `status` exactly when its verdict is `status`. -/
theorem Answered.cpl_eq_iff {i : Instr} {s t : State} (h : Answered i s t) (hresult : resultFor i s = 0)
    (status : Status) : t.cpl = s.cpl ++ [⟨i.op.code, status, 0⟩] ↔ verdict i = status := by
  obtain ⟨-, -, hcpl⟩ := h
  rw [hcpl, hresult, List.append_cancel_left_eq]
  simp

/-- A verdict that the range check decides is `InvalidDimensions` exactly when the check fails (R271). -/
theorem verdict_eq_invalidDimensions_iff {i : Instr} {w h : Word}
    (hverdict : verdict i = if dimsLegal w h then .ok else .invalidDimensions) :
    verdict i = .invalidDimensions ↔ dimsLegal w h = false := by
  rw [hverdict]
  cases dimsLegal w h with
  | true => simp
  | false => simp

/-- One bad dimension fails the range check in either place, whatever the other is (R271). -/
theorem dimsLegal_eq_false_of_out {d : Word} (hout : d.toNat < 1 ∨ 4096 < d.toNat) (e : Word) :
    dimsLegal d e = false ∧ dimsLegal e d = false := by
  rw [dimsLegal_eq_false_iff, dimsLegal_eq_false_iff]
  omega

/-- The boundary values that fail (R271), compared one by one. -/
theorem badBoundaryValues_out : ∀ d ∈ ([0, 4097, 65536, 0x80000000, 0xFFFFFFFF] : List Word),
    d.toNat < 1 ∨ 4096 < d.toNat := by
  simp only [List.forall_mem_cons]
  simp

/-- Settles O33: both operations are answered with their verdict, which the range check decides. -/
theorem badDimensionsAreRefused : Obligations.BadDimensionsAreRefused := by
  unfold Obligations.BadDimensionsAreRefused
  refine ⟨fun w h r g b s => ?_, by decide, by decide,
    fun d hd => dimsLegal_eq_false_of_out (badBoundaryValues_out d hd)⟩
  obtain ⟨t, ht, -⟩ := exec_next (.slgGen w h r g b) s
  obtain ⟨u, hu, -⟩ := exec_next (.encEncode w h r g b) s
  have hslg : t.cpl = s.cpl ++ [⟨0x40, .invalidDimensions, 0⟩] ↔ dimsLegal w h = false :=
    ((execSlgGen_answers ht).cpl_eq_iff rfl _).trans (verdict_eq_invalidDimensions_iff rfl)
  have henc : u.cpl = s.cpl ++ [⟨0x60, .invalidDimensions, 0⟩] ↔ dimsLegal w h = false :=
    ((execEncEncode_answers hu).cpl_eq_iff rfl _).trans (verdict_eq_invalidDimensions_iff rfl)
  exact ⟨t, u, ht, hu, hslg.trans (dimsLegal_eq_false_iff w h), henc.trans (dimsLegal_eq_false_iff w h)⟩

end Sys2Proof.Machine
end

section
/-! The decoder against the encoder, and what a step and a byte step of an idle block take from the head of `CMD`
(spec/30_encoding.md R108 to R111, spec/10_state.md R25). -/

namespace Sys2Proof.Machine

/-! ### Decoding what was encoded -/

/-- The operand bytes of a command are read back as its operands, whatever follows them. -/
theorem decodeOperands_encodeOperands (i : Instr) (rest : List Byte) :
    decodeOperands i.op (encodeOperands i ++ rest) = some (i, rest) := by
  cases i with
  | crcInit | crcUpd x | crcFin | adlInit | adlUpd x | adlFin => rfl
  | sbwWrap n =>
    simp only [Instr.op, encodeOperands, be32_cons, decodeOperands, ofBe32_be32]
  | slgGen w h r g b | chkMake tag len | encEncode w h r g b =>
    simp only [Instr.op, encodeOperands, be32_cons, List.cons_append, List.nil_append, decodeOperands, ofBe32_be32]

theorem decode_encode (i : Instr) (rest : List Byte) : decode (encode i ++ rest) = .command i rest := by
  obtain ⟨-, -, hop⟩ := encode_wholePacket i
  simp only [encode, List.cons_append, decode, hop, decodeOperands_encodeOperands]

/-- Settles O38: every command's opcode byte names its operation, and its operand bytes are read back by
`decodeOperands_encodeOperands`. -/
theorem decodeOfEncodeIsTheCommand : Obligations.DecodeOfEncodeIsTheCommand := by
  unfold Obligations.DecodeOfEncodeIsTheCommand
  exact fun i rest _ => decode_encode i rest

/-- Settles O40: each packet is the encoding of its command, and 0x7F is no opcode. -/
theorem packetsWrittenOut : Obligations.PacketsWrittenOut := by
  unfold Obligations.PacketsWrittenOut
  exact ⟨decode_encode .crcInit [], decode_encode (.crcUpd 0x10) [], decode_encode .adlFin [],
    decode_encode (.sbwWrap 14) [], decode_encode (.chkMake 0x49484452 13) [],
    decode_encode (.encEncode 100 300 0x11 0x22 0x33) [], decode_illegal (by decide) [0x10]⟩

/-! ### Encoding what was decoded -/

/-- The value of four bytes has those bytes as its big-endian form. -/
theorem be32_ofBe32 (b1 b2 b3 b4 : Byte) : be32 (ofBe32 b1 b2 b3 b4) = [b1, b2, b3, b4] := by
  simp only [be32, List.cons.injEq, and_true]
  refine ⟨?_, ?_, ?_, ?_⟩
  all_goals
    apply BitVec.eq_of_getLsbD_eq
    intro i hi
    simp only [ofBe32, BitVec.getLsbD_extractLsb', BitVec.getLsbD_append]
    interval_cases i <;> rfl

/-- The operand bytes the decoder accepts are the encoded operands of the command it reads. -/
theorem eq_encodeOperands_of_decodeOperands {o : Op} {t rest : List Byte} {i : Instr} :
    decodeOperands o t = some (i, rest) → i.op = o ∧ t = encodeOperands i ++ rest := by
  fun_cases decodeOperands o t with
  -- operand bytes missing
  | case3 | case7 | case10 | case12 | case14 | case16 => intro h; cases h
  -- no operand, or one byte
  | case1 | case2 | case4 | case5 | case6 | case8 => rintro ⟨⟩; exact ⟨rfl, rfl⟩
  -- 32-bit operands
  | case9 | case11 | case13 | case15 =>
    rintro ⟨⟩
    simp only [Instr.op, encodeOperands, be32_ofBe32, List.cons_append, List.nil_append, and_self]

theorem eq_code_of_ofByte {c : Byte} {o : Op} (h : Op.ofByte c = some o) : c = o.code := by
  have hcode := List.find?_some h
  exact (beq_iff_eq.mp hcode).symm

theorem eq_encode_of_decode {p rest : List Byte} {i : Instr} (h : decode p = .command i rest) :
    p = encode i ++ rest := by
  cases p with
  | nil => cases h
  | cons c t =>
    simp only [decode] at h
    split at h
    · cases h
    · next o ho =>
      split at h
      · next i' rest' hd =>
        obtain ⟨rfl, rfl⟩ := Decoded.command.inj h
        obtain ⟨rfl, ht⟩ := eq_encodeOperands_of_decodeOperands hd
        rw [eq_code_of_ofByte ho, ht]; rfl
      · cases h

/-- Settles O39: the first byte is the opcode of the operation it names, and the operand bytes are those of
`eq_encodeOperands_of_decodeOperands`. -/
theorem decodedPacketIsTheEncoding : Obligations.DecodedPacketIsTheEncoding := by
  unfold Obligations.DecodedPacketIsTheEncoding
  exact fun _ _ _ h => eq_encode_of_decode h

/-- The decoder rejects a byte as an opcode only where that byte stands at the front and names no operation. -/
theorem illegal_of_decode {p : List Byte} {c : Byte} (h : decode p = .reject (.illegalOpcode c)) :
    Op.ofByte c = none ∧ p = c :: p.tail := by
  cases p with
  | nil => cases h
  | cons d t =>
    simp only [decode] at h
    split at h
    · next hd => cases h; exact ⟨hd, rfl⟩
    · split at h <;> cases h

/-! ### What a step and a byte step take -/

theorem step_command {s : State} {i : Instr} {rest : List Byte} (hb : s.busy = false)
    (hd : decode s.cmd = .command i rest) : step s = exec i (s.setCmd rest) := by
  simp only [step, hb, Bool.false_eq_true, if_false, fetch, hd]

theorem tick_command {s : State} {i : Instr} {rest : List Byte} (hb : s.busy = false)
    (hd : decode s.cmd = .command i rest) : tick s = .next (start i (s.setCmd rest)) := by
  simp only [tick, hb, Bool.false_eq_true, if_false, hd]

theorem step_packet {s : State} {i : Instr} {rest : List Byte} (hb : s.busy = false)
    (hcmd : s.cmd = encode i ++ rest) : step s = exec i (s.setCmd rest) :=
  step_command hb (by rw [hcmd, decode_encode])

theorem tick_packet {s : State} {i : Instr} {rest : List Byte} (hb : s.busy = false)
    (hcmd : s.cmd = encode i ++ rest) : tick s = .next (start i (s.setCmd rest)) :=
  tick_command hb (by rw [hcmd, decode_encode])

/-- Settles O35: the decoder's answer decides what an idle block runs, and `decode_encode` gives it for a packet. -/
theorem stepRunsTheDecodedCommand : Obligations.StepRunsTheDecodedCommand := by
  unfold Obligations.StepRunsTheDecodedCommand
  exact ⟨fun _ _ _ hb hd => step_command hb hd, fun _ _ _ _ hb hcmd => step_packet hb hcmd⟩

theorem step_noCommand {s : State} (hb : s.busy = false) (hcmd : s.cmd = []) : step s = .next s := by
  simp only [step, hb, Bool.false_eq_true, if_false, fetch, hcmd, decode]

theorem step_incomplete {s : State} {o : Op} (hb : s.busy = false) (hd : decode s.cmd = .reject (.incomplete o)) :
    step s = .next s := by
  simp only [step, hb, Bool.false_eq_true, if_false, fetch, hd]

/-- Every command of an operation has the same number of operand bytes. -/
theorem encodeOperands_length_of_op {i j : Instr} (h : i.op = j.op) :
    (encodeOperands i).length = (encodeOperands j).length := by
  have hlen := encode_length i
  rw [h, ← encode_length j] at hlen
  exact Nat.succ.inj hlen

/-- The first bytes of a packet are an unfinished packet: a command read from them would have fewer operand bytes than its
operation takes. -/
theorem decode_take_encode {i : Instr} {k : Nat} (hpos : 1 ≤ k) (hk : k < (encode i).length) :
    decode ((encode i).take k) = .reject (.incomplete i.op) := by
  obtain ⟨j, rfl⟩ := Nat.exists_eq_add_of_le' hpos
  obtain ⟨-, -, hop⟩ := encode_wholePacket i
  have hj : j < (encodeOperands i).length := Nat.lt_of_succ_lt_succ hk
  have hnone : decodeOperands i.op ((encodeOperands i).take j) = none := by
    refine Option.eq_none_iff_forall_ne_some.mpr fun p hp => ?_
    obtain ⟨hopEq, ht⟩ := eq_encodeOperands_of_decodeOperands (i := p.1) (rest := p.2) hp
    have hlen := congrArg List.length ht
    rw [List.length_take, List.length_append, encodeOperands_length_of_op hopEq] at hlen
    omega
  simp only [encode, List.take_succ_cons, decode, hop, hnone]

/-- Settles O37: nothing to decode, or an unfinished packet by `decode_take_encode`. -/
theorem idleBlockWaitsForAWholePacket : Obligations.IdleBlockWaitsForAWholePacket := by
  unfold Obligations.IdleBlockWaitsForAWholePacket
  refine ⟨fun s hb hcmd => step_noCommand hb hcmd, fun i k s hb hpos hk hcmd => ?_⟩
  exact step_incomplete hb (hcmd ▸ decode_take_encode hpos hk)

end Sys2Proof.Machine
end

section
/-! What every step keeps: commands as a beginning that is settled, the invariant of the states between steps, and what byte
steps keep and reach (spec/10_state.md R22 to R27, spec/20_memory.md R64, spec/92_eei_decisions.md D15). -/

namespace Sys2Proof.Machine

/-! ### Every command is its beginning, settled -/

theorem settle_idle {s : State} (hidle : s.busy = false) (hseq : s.seq = Sequencer.zero) : settle s = .next s := by
  rw [settle, drive_paused (beat_idle hseq), atPause_idle hidle]

theorem settle_holding {s : State} (h : holding s = true) : settle s = .next s := by
  rw [settle, drive_paused (beat_holding h), atPause_holding h]

theorem exec_eq_settle (i : Instr) (s : State) : exec i s = settle (start i s) := by
  cases i with
  | crcInit | crcUpd x | crcFin | adlInit | adlUpd x | adlFin => exact (settle_idle rfl rfl).symm
  | sbwWrap n | slgGen w h r g b | chkMake tag len | encEncode w h r g b => rfl

/-- Everything the beginning of a command can be: the frame of a composite operation is open, or the command has completed. -/
theorem start_cases (i : Instr) (s : State) :
    (∃ q, start i s = (s.take i.latch).openFrame q) ∨
    (∃ c ab st v, start i s = (((s.take i.latch).setCrc c).setAdler ab).complete st v ∧
      (s.sumsReduced → ab.1.toNat < 65521 ∧ ab.2.toNat < 65521)) := by
  cases i with
  | crcInit | crcUpd x | crcFin => exact .inr ⟨_, (s.a, s.b), _, _, rfl, id⟩
  | adlInit => exact .inr ⟨_, _, _, _, rfl, fun _ => by decide⟩
  | adlUpd x => exact .inr ⟨_, _, _, _, rfl, fun _ => ⟨adlerByte_fst_lt _ _, adlerByte_snd_lt _ _⟩⟩
  | adlFin => exact .inr ⟨_, (s.a, s.b), _, _, rfl, id⟩
  | sbwWrap n => exact .inl ⟨_, rfl⟩
  | chkMake tag len => exact .inl ⟨_, rfl⟩
  | slgGen w h r g b =>
    cases hl : dimsLegal w h with
    | true => exact .inl ⟨_, startSlgGen_legal r g b hl s⟩
    | false => exact .inr ⟨s.crc, (s.a, s.b), _, _, startSlgGen_illegal r g b hl s, id⟩
  | encEncode w h r g b =>
    cases hl : dimsLegal w h with
    | true => exact .inl ⟨_, startEncEncode_legal r g b hl s⟩
    | false => exact .inr ⟨s.crc, (s.a, s.b), _, _, startEncEncode_illegal r g b hl s, id⟩

/-- The beginning of a command leaves the streams and `CMD` alone. -/
theorem start_queues (i : Instr) (s : State) :
    (start i s).dout = s.dout ∧ (start i s).din = s.din ∧ (start i s).cmd = s.cmd := by
  obtain ⟨q, h⟩ | ⟨c, ab, st, v, h, -⟩ := start_cases i s
  · rw [h]; exact ⟨rfl, rfl, rfl⟩
  · rw [h]; exact ⟨rfl, rfl, rfl⟩

/-! ### Reduced sums -/

theorem start_sumsReduced (i : Instr) {s : State} (hs : s.sumsReduced) : (start i s).sumsReduced := by
  obtain ⟨q, h⟩ | ⟨c, ab, st, v, h, hsums⟩ := start_cases i s
  · rw [h]; exact hs
  · rw [h]; exact hsums hs

theorem beat_sumsReduced {s t : State} (hs : s.sumsReduced) (h : beat s = some t) : t.sumsReduced := by
  obtain ⟨x, u, hu, hcase⟩ := beat_cases h
  obtain ⟨-, hsums, -⟩ := frameByte_cases hu
  obtain ⟨-, rfl⟩ | ⟨-, rfl⟩ := hcase
  · exact hsums hs
  · exact hsums hs

theorem settle_sumsReduced {s t : State} (hs : s.sumsReduced) (h : settle s = .next t) : t.sumsReduced := by
  rw [settle_next h]
  exact drive_keeps (fun _ _ => beat_sumsReduced) beatBound hs

theorem exec_sumsReduced {i : Instr} {s t : State} (hs : s.sumsReduced) (h : exec i s = .next t) : t.sumsReduced := by
  rw [exec_eq_settle] at h
  exact settle_sumsReduced (start_sumsReduced i hs) h

/-! ### The invariant -/

/-- A block inside a stored block or a payload is in the midst of its operation. -/
theorem insideBlock_wrapping {s : State} (hb : s.busy = true) (h : s.insideBlock) : ∃ n, Wrapping n s := by
  obtain ⟨hframe, hsbw, hidx, hop, n, hoperands, hpos, hle, hn⟩ := h
  refine ⟨n, hb, ?_, hframe, ?_⟩
  · cases hl : s.latch; simp_all
  · simp only [SbwAt, hsbw]; exact ⟨hidx, hpos, hle, hn⟩

theorem insidePayload_serializing {s : State} (hb : s.busy = true) (h : s.insidePayload) :
    ∃ tag len, Serializing tag len s := by
  obtain ⟨hframe, hchk, hidx, hop, tag, len, hoperands, hpos, hle⟩ := h
  refine ⟨tag, len, hb, ?_, hframe, ?_⟩
  · cases hl : s.latch; simp_all
  · simp only [ChkAt, hchk]; exact ⟨hidx, hpos, hle⟩

/-- An operation holds only where its counters say that a raw byte or a payload byte is still to come. -/
theorem Wrapping.insideBlock {n : Word} {s : State} (h : Wrapping n s) (hh : holding s = true) : s.insideBlock := by
  obtain ⟨-, hl, hframe, hat⟩ := h
  simp only [holding, hframe, hl, Bool.and_eq_true, decide_eq_true_eq] at hh
  obtain ⟨hsbw, -⟩ := hh
  simp only [SbwAt, hsbw] at hat
  obtain ⟨hidx, hpos, hle, hn⟩ := hat
  exact ⟨hframe, hsbw, hidx, congrArg Latch.op hl, n, congrArg Latch.operands hl, hpos, hle, hn⟩

theorem Serializing.insidePayload {tag len : Word} {s : State} (h : Serializing tag len s) (hh : holding s = true) :
    s.insidePayload := by
  obtain ⟨-, hl, hframe, hat⟩ := h
  simp only [holding, hframe, hl, Bool.and_eq_true, decide_eq_true_eq] at hh
  obtain ⟨hchk, -⟩ := hh
  simp only [ChkAt, hchk] at hat
  obtain ⟨hidx, hpos, hle⟩ := hat
  exact ⟨hframe, hchk, hidx, congrArg Latch.op hl, tag, len, congrArg Latch.operands hl, hpos, hle⟩

theorem inv_of_idle {s : State} (hsums : s.sumsReduced) (hidle : s.busy = false) (hseq : s.seq = Sequencer.zero) :
    s.Inv :=
  ⟨hsums, fun _ => hseq, fun hb => by rw [hidle] at hb; cases hb⟩

theorem quietWhenIdle_of_busy {s : State} (hb : s.busy = true) : s.quietWhenIdle := by
  intro hidle
  rw [hb] at hidle; cases hidle

theorem Wrapping.inv {n : Word} {s : State} (h : Wrapping n s) (hh : holding s = true) (hsums : s.sumsReduced) :
    s.Inv := by
  have hinside := h.insideBlock hh
  obtain ⟨hb, -⟩ := h
  exact ⟨hsums, quietWhenIdle_of_busy hb, fun _ => .inl hinside⟩

theorem Serializing.inv {tag len : Word} {s : State} (h : Serializing tag len s) (hh : holding s = true)
    (hsums : s.sumsReduced) : s.Inv := by
  have hinside := h.insidePayload hh
  obtain ⟨hb, -⟩ := h
  exact ⟨hsums, quietWhenIdle_of_busy hb, fun _ => .inr hinside⟩

/-- Settles O42: reset is idle, with its sums at 1 and 0. -/
theorem resetMeetsTheInvariant : Obligations.ResetMeetsTheInvariant := by
  unfold Obligations.ResetMeetsTheInvariant
  exact inv_of_idle ⟨by decide, by decide⟩ rfl rfl

/-- The operation in progress goes on to a state that meets the invariant. -/
theorem settle_inv {s : State} (hb : s.busy = true) (hs : s.Inv) : ∃ t, settle s = .next t ∧ t.Inv := by
  obtain ⟨hsums, -, hinside⟩ := hs
  obtain hblock | hpayload := hinside hb
  · obtain ⟨n, hin⟩ := insideBlock_wrapping hb hblock
    obtain ⟨t, ht, -, ⟨hin', hh⟩ | ⟨hidle, hseq⟩⟩ := hin.settle
    · exact ⟨t, ht, hin'.inv hh (settle_sumsReduced hsums ht)⟩
    · exact ⟨t, ht, inv_of_idle (settle_sumsReduced hsums ht) hidle hseq⟩
  · obtain ⟨tag, len, hin⟩ := insidePayload_serializing hb hpayload
    obtain ⟨t, ht, -, ⟨hin', hh⟩ | ⟨hidle, hseq⟩⟩ := hin.settle
    · exact ⟨t, ht, hin'.inv hh (settle_sumsReduced hsums ht)⟩
    · exact ⟨t, ht, inv_of_idle (settle_sumsReduced hsums ht) hidle hseq⟩

/-- Every command, from reduced sums, answers a state that meets the invariant. -/
theorem exec_inv (i : Instr) {s : State} (hsums : s.sumsReduced) : ∃ t, exec i s = .next t ∧ t.Inv := by
  obtain ⟨t, ht, hcase⟩ := exec_next i s
  have htsums := exec_sumsReduced hsums ht
  obtain ⟨hidle, hseq⟩ | ⟨n, -, hin, hh⟩ | ⟨tag, len, -, hin, hh⟩ := hcase
  · exact ⟨t, ht, inv_of_idle htsums hidle hseq⟩
  · exact ⟨t, ht, hin.inv hh htsums⟩
  · exact ⟨t, ht, hin.inv hh htsums⟩

/-- From a state of the invariant a step answers a next state of the invariant. -/
theorem step_inv {s : State} (hs : s.Inv) : ∃ t, step s = .next t ∧ t.Inv := by
  cases hb : s.busy with
  | true =>
    rw [step, hb, if_pos rfl, resume]
    exact settle_inv hb hs
  | false =>
    rw [step, hb, if_neg Bool.false_ne_true, fetch]
    have ⟨hsums, _⟩ := hs
    split
    · next i rest _ => exact exec_inv i (s := s.setCmd rest) hsums
    · next c _ => exact ⟨_, rfl, inv_of_idle hsums rfl rfl⟩
    · exact ⟨s, rfl, hs⟩
    · exact ⟨s, rfl, hs⟩

/-- Settles O43: by `step_inv`; a busy block settles the operation in progress (`settle_inv`), an idle one runs a command
(`exec_inv`), takes an illegal opcode byte or waits. -/
theorem everyStepKeepsTheInvariant : Obligations.EveryStepKeepsTheInvariant := by
  unfold Obligations.EveryStepKeepsTheInvariant
  exact fun _ hs => step_inv hs

theorem host_inv (m : HostMove) {s : State} (hs : s.Inv) : (s.host m).Inv := by
  cases m with
  | issue packet | supply bytes | takeOut k | takeCpl k => exact hs
  | reset => exact resetMeetsTheInvariant

/-- Settles O44: by induction on the run; a host move touches nothing the invariant speaks of, or resets. -/
theorem noRunOfStepsAndHostMovesStops : Obligations.NoRunOfStepsAndHostMovesStops := by
  unfold Obligations.NoRunOfStepsAndHostMovesStops
  intro s es hs hes
  induction es generalizing s with
  | nil => exact ⟨s, rfl, hs⟩
  | cons e es ih =>
    obtain ⟨he, hes⟩ := List.forall_mem_cons.mp hes
    obtain ⟨u, hu, huInv⟩ : ∃ u, occur e s = .next u ∧ u.Inv := by
      cases e with
      | host m => exact ⟨_, rfl, host_inv m hs⟩
      | step => exact step_inv hs
      | tick => exact absurd rfl he
    rw [occurAll, hu]
    exact ih u huInv hes

/-! ### Byte steps -/

/-- A busy block's byte step leaves it busy, or at rest. -/
theorem beat_quiet {s t : State} (hs : s.quietWhenIdle) (h : beat s = some t) : t.quietWhenIdle := by
  have hb : s.busy = true := by
    by_contra hidle
    rw [beat_idle (hs (Bool.not_eq_true _ ▸ hidle))] at h
    cases h
  obtain ⟨x, u, hu, ⟨-, rfl⟩ | ⟨-, rfl⟩⟩ := beat_cases h
  · obtain ⟨hbusy, -, -⟩ := frameByte_busy hu
    exact quietWhenIdle_of_busy (hbusy.trans hb)
  · exact fun _ => rfl

theorem start_quiet (i : Instr) (s : State) : (start i s).quietWhenIdle := by
  obtain ⟨q, h⟩ | ⟨c, ab, st, v, h, -⟩ := start_cases i s
  · rw [h]; exact quietWhenIdle_of_busy rfl
  · rw [h]; exact fun _ => rfl

/-- Settles O45: by the cases of a byte step; `beat` and `start` keep both properties. -/
theorem everyByteStepKeepsSumsAndRest : Obligations.EveryByteStepKeepsSumsAndRest := by
  unfold Obligations.EveryByteStepKeepsSumsAndRest
  intro s t hsums hquiet h
  obtain ⟨-, h⟩ | ⟨-, -, rfl⟩ | ⟨-, i, rest, -, rfl⟩ | ⟨-, c, -, rfl⟩ | ⟨-, -, rfl⟩ := tick_cases h
  · exact ⟨beat_sumsReduced hsums h, beat_quiet hquiet h⟩
  · exact ⟨hsums, hquiet⟩
  · exact ⟨start_sumsReduced i (s := s.setCmd rest) hsums, start_quiet i _⟩
  · exact ⟨hsums, fun _ => rfl⟩
  · exact ⟨hsums, hquiet⟩

/-- A byte step of the operation in progress takes at most the head of `DIN`. -/
theorem beat_din {s t : State} (h : beat s = some t) : t.din = s.din ∨ ∃ x, s.din = x :: t.din := by
  obtain ⟨x, u, hu, hcase⟩ := beat_cases h
  obtain ⟨-, -, hdin⟩ := frameByte_cases hu
  have hhead : u.din = s.din ∨ ∃ x, s.din = x :: u.din := hdin.imp_right fun ⟨hx, _⟩ => ⟨x, hx⟩
  obtain ⟨-, rfl⟩ | ⟨-, rfl⟩ := hcase
  · exact hhead
  · exact hhead

/-- Settles O47: a byte of the operation in progress by `beat_frame` and `beat_din`; no other byte step moves a data byte. -/
theorem oneByteStepMovesOneByte : Obligations.OneByteStepMovesOneByte := by
  unfold Obligations.OneByteStepMovesOneByte
  intro s t h
  obtain ⟨-, h⟩ | ⟨-, -, rfl⟩ | ⟨-, i, rest, -, rfl⟩ | ⟨-, c, -, rfl⟩ | ⟨-, -, rfl⟩ := tick_cases h
  · obtain ⟨-, hdout, -⟩ := beat_frame h
    exact ⟨.inr hdout, beat_din h⟩
  · exact ⟨.inl rfl, .inl rfl⟩
  · obtain ⟨hdout, hdin, -⟩ := start_queues i (s.setCmd rest)
    exact ⟨.inl hdout, .inl hdin⟩
  · exact ⟨.inl rfl, .inl rfl⟩
  · exact ⟨.inl rfl, .inl rfl⟩

theorem tick_beat {s t : State} (hb : s.busy = true) (h : beat s = some t) : tick s = .next t := by
  simp only [tick, hb, if_true, h]

theorem ticks_succ {s t : State} (h : tick s = .next t) (k : Nat) : ticks (k + 1) s = ticks k t := by
  simp only [ticks, h]

/-- Byte steps of the sequencer in a row are byte steps of the machine: it is busy before each of them. -/
theorem Beats.ticks {k : Nat} {s t : State} (hs : s.quietWhenIdle) (h : Beats k s t) : Machine.ticks k s = .next t := by
  induction k generalizing s with
  | zero => cases h; rfl
  | succ k ih =>
    obtain ⟨u, hu, h⟩ := h
    cases hb : s.busy with
    | true =>
      rw [ticks_succ (tick_beat hb hu)]
      exact ih (beat_quiet hs hu) h
    | false =>
      rw [beat_idle (hs hb)] at hu
      cases hu

/-- What `settle` reaches, byte steps reach. -/
theorem settle_ticks {s t : State} (hs : s.quietWhenIdle) (h : settle s = .next t) : ∃ k, ticks k s = .next t := by
  obtain ⟨j, -, hbeats, -⟩ := drive_beats beatBound s
  rw [← settle_next h] at hbeats
  exact ⟨j, hbeats.ticks hs⟩

/-- Settles O53: by the cases of a step; a command is one byte step to begin and those of `settle_ticks`. -/
theorem byteStepsReachWhatAStepReaches : Obligations.ByteStepsReachWhatAStepReaches := by
  unfold Obligations.ByteStepsReachWhatAStepReaches
  intro s t h
  obtain ⟨hb, h⟩ | ⟨hb, i, rest, hd, h⟩ | ⟨hb, c, hd, rfl⟩ | ⟨-, -, rfl⟩ := step_cases h
  · exact settle_ticks (quietWhenIdle_of_busy hb) h
  · rw [exec_eq_settle] at h
    obtain ⟨k, hk⟩ := settle_ticks (start_quiet i _) h
    exact ⟨k + 1, (ticks_succ (tick_command hb hd) k).trans hk⟩
  · refine ⟨1, ?_⟩
    have htick : tick s = .next (illegalCommand c s) := by
      simp only [tick, hb, Bool.false_eq_true, if_false, hd]
    rw [ticks_succ htick, ticks]
  · exact ⟨0, rfl⟩

end Sys2Proof.Machine
end

section
/-! `CMD` holds whole packets: the host appends whole ones and the block takes whole ones (spec/60_exceptions.md R290,
spec/20_memory.md R64). -/

namespace Sys2Proof.Machine

/-! ### Packets from the front of `CMD` -/

/-- The decoder's answer where a whole packet of the host stands at the front. -/
def CommandPacket.read (p : CommandPacket) (rest : List Byte) : Decoded :=
  match p with
  | .command i => .command i rest
  | .illegal c => .reject (.illegalOpcode c.val)

theorem decode_packet (p : CommandPacket) (rest : List Byte) : decode (p.bytes ++ rest) = p.read rest := by
  cases p with
  | command i => exact decode_encode i rest
  | illegal c => exact decode_illegal c.property rest

/-- The packets on `CMD` are told apart from their front: two rows of bytes that start with a packet start with the same one. -/
theorem packet_cancel {p q : CommandPacket} {xs ys : List Byte} (h : p.bytes ++ xs = q.bytes ++ ys) : xs = ys := by
  have hread : p.read xs = q.read ys := by rw [← decode_packet, h, decode_packet]
  cases p with
  | command i =>
    cases q with
    | command j => exact (Decoded.command.inj hread).2
    | illegal d => cases hread
  | illegal c =>
    cases q with
    | command j => cases hread
    | illegal d => exact (List.cons.inj h).2

theorem packet_ne_nil (p : CommandPacket) : p.bytes ≠ [] := by
  cases p with
  | command i => exact List.cons_ne_nil _ _
  | illegal c => exact List.cons_ne_nil _ _

/-- `CMD` holds whole packets still when a packet has been taken from its head. -/
theorem whole_of_taken {p : CommandPacket} {rest : List Byte}
    (h : ∃ ps : List CommandPacket, p.bytes ++ rest = ps.flatMap CommandPacket.bytes) :
    ∃ ps : List CommandPacket, rest = ps.flatMap CommandPacket.bytes := by
  obtain ⟨ps, hps⟩ := h
  cases ps with
  | nil => exact absurd (List.append_eq_nil_iff.mp hps).1 (packet_ne_nil p)
  | cons q qs => exact ⟨qs, packet_cancel hps⟩

/-- From `s` to `t` the block has taken nothing from `CMD`, or one whole packet (R64). -/
def TakesWhole (s t : State) : Prop := t.cmd = s.cmd ∨ ∃ p : CommandPacket, s.cmd = p.bytes ++ t.cmd

theorem TakesWhole.cmdWhole {s t : State} (h : TakesWhole s t) (hs : s.cmdWhole) : t.cmdWhole := by
  obtain h | ⟨p, h⟩ := h
  · rw [State.cmdWhole, h]; exact hs
  · rw [State.cmdWhole, h] at hs
    exact whole_of_taken hs

theorem takesWhole_of_command {s t : State} {i : Instr} {rest : List Byte} (hd : decode s.cmd = .command i rest)
    (ht : t.cmd = rest) : TakesWhole s t :=
  .inr ⟨.command i, by rw [ht]; exact eq_encode_of_decode hd⟩

theorem takesWhole_illegal {s : State} {c : Byte} (hd : decode s.cmd = .reject (.illegalOpcode c)) :
    TakesWhole s (illegalCommand c s) := by
  obtain ⟨hc, hcmd⟩ := illegal_of_decode hd
  exact .inr ⟨.illegal ⟨c, hc⟩, hcmd⟩

/-! ### What events do to `CMD` -/

theorem beat_cmd {s t : State} (h : beat s = some t) : t.cmd = s.cmd := by
  obtain ⟨hcmd, -⟩ := beat_frame h
  exact hcmd

theorem settle_cmd {s t : State} (h : settle s = .next t) : t.cmd = s.cmd := by
  rw [settle_next h]
  exact drive_keeps (P := fun u => u.cmd = s.cmd) (fun _ _ hu hv => (beat_cmd hv).trans hu) beatBound rfl

theorem exec_cmd {i : Instr} {s t : State} (h : exec i s = .next t) : t.cmd = s.cmd := by
  obtain ⟨-, -, hcmd⟩ := start_queues i s
  rw [exec_eq_settle] at h
  exact (settle_cmd h).trans hcmd

theorem step_takesWhole {s t : State} (h : step s = .next t) : TakesWhole s t := by
  obtain ⟨-, h⟩ | ⟨-, i, rest, hd, h⟩ | ⟨-, c, hd, rfl⟩ | ⟨-, -, rfl⟩ := step_cases h
  · exact .inl (settle_cmd h)
  · exact takesWhole_of_command hd (exec_cmd h)
  · exact takesWhole_illegal hd
  · exact .inl rfl

theorem tick_takesWhole {s t : State} (h : tick s = .next t) : TakesWhole s t := by
  obtain ⟨-, h⟩ | ⟨-, -, rfl⟩ | ⟨-, i, rest, hd, rfl⟩ | ⟨-, c, hd, rfl⟩ | ⟨-, -, rfl⟩ := tick_cases h
  · exact .inl (beat_cmd h)
  · exact .inl rfl
  · obtain ⟨-, -, hcmd⟩ := start_queues i (s.setCmd rest)
    exact takesWhole_of_command hd hcmd
  · exact takesWhole_illegal hd
  · exact .inl rfl

theorem reset_cmdWhole : State.reset.cmdWhole := ⟨[], rfl⟩

theorem host_cmdWhole (m : HostMove) {s : State} (hs : s.cmdWhole) : (s.host m).cmdWhole := by
  cases m with
  | issue packet =>
    obtain ⟨ps, hps⟩ := hs
    refine ⟨ps ++ [packet], ?_⟩
    rw [List.flatMap_append, ← hps, List.flatMap_singleton]; rfl
  | supply bytes | takeOut k | takeCpl k => exact hs
  | reset => exact reset_cmdWhole

theorem occur_cmdWhole {e : Event} {s t : State} (hs : s.cmdWhole) (h : occur e s = .next t) : t.cmdWhole := by
  cases e with
  | host m =>
    obtain rfl := Host.Outcome.next.inj h
    exact host_cmdWhole m hs
  | step => exact (step_takesWhole h).cmdWhole hs
  | tick => exact (tick_takesWhole h).cmdWhole hs

/-- What every event keeps, every run keeps. -/
theorem occurAll_keeps {P : State → Prop} (hevent : ∀ e s t, P s → occur e s = .next t → P t) {es : List Event}
    {s t : State} (hs : P s) (h : occurAll es s = .next t) : P t := by
  induction es generalizing s with
  | nil => obtain rfl := Host.Outcome.next.inj h; exact hs
  | cons e es ih =>
    rw [occurAll] at h
    split at h
    · next u hu => exact ih (hevent e s u hs hu) h
    · cases h
    · cases h

theorem decode_ne_incomplete {s : State} (hs : s.cmdWhole) (o : Op) : decode s.cmd ≠ .reject (.incomplete o) := by
  obtain ⟨ps, hps⟩ := hs
  rw [hps]
  cases ps with
  | nil => exact nofun
  | cons p ps =>
    rw [List.flatMap_cons, decode_packet]
    cases p with
    | command i => exact nofun
    | illegal c => exact nofun

/-- Settles O58: host moves append whole packets, steps and byte steps take whole packets, and a row of whole packets decodes. -/
theorem cmdHoldsWholePackets : Obligations.CmdHoldsWholePackets := by
  unfold Obligations.CmdHoldsWholePackets
  refine ⟨reset_cmdWhole, fun _ _ _ => occur_cmdWhole, fun es s t o hs h => ?_⟩
  exact decode_ne_incomplete (occurAll_keeps (fun _ _ _ => occur_cmdWhole) hs h) o

end Sys2Proof.Machine
end

section
/-! Commands whose bytes are all on `DIN`: the frame as the bytes drawn from the beginning, the outcome of one command and of a
queue of them, and their byte steps (spec/20_memory.md R70, R71, spec/45_file_encoder.md R252,
spec/70_reset_and_hazards.md R312). -/

namespace Sys2Proof.Machine

/-! ### The frame of a command -/

/-- Begun in `s`, the command `i` draws its frame `frameFor` to its end in `t`, and completes with the frame's last byte. -/
structure DrawsFrame (i : Instr) (s t : State) : Prop where
  draws : Draws frameByte (frameFor i s.din) (start i s) t
  ended : t.seq.frame = .atRest
  latch : t.latch = i.latch
  din : t.din = s.din.drop (needs i)
  runs : exec i s = .next ((t.emit (frameFor i s.din)).complete .ok 0)

/-- A command with a frame and its bytes on `DIN` draws the frame to its end. -/
theorem drawsFrame {i : Instr} {s : State} (hneeds : needs i ≤ s.din.length) (hframe : frameFor i s.din ≠ []) :
    ∃ t, DrawsFrame i s t := by
  cases i with
  | crcInit | crcUpd x | crcFin | adlInit | adlUpd x | adlFin => exact absurd rfl hframe
  | sbwWrap n =>
    obtain ⟨t, hdraws, hend, ht, hx⟩ := execSbwWrap_whole n (s.din.take n.toNat) (s.din.drop n.toNat) s
      (List.take_append_drop _ _).symm (List.length_take_of_le hneeds).symm
    exact ⟨t, hdraws, hend, (congrArg State.latch ht :), (congrArg State.din ht :), hx⟩
  | chkMake tag len =>
    obtain ⟨t, hdraws, hend, ht, hx⟩ := execChkMake_whole tag len (s.din.take len.toNat) (s.din.drop len.toNat) s
      (List.take_append_drop _ _).symm (List.length_take_of_le hneeds).symm
    exact ⟨t, hdraws, hend, (congrArg State.latch ht :), (congrArg State.din ht :), hx⟩
  | slgGen w h r g b =>
    have hl : dimsLegal w h = true := by
      by_contra hbad
      exact hframe (if_neg hbad)
    have hraster : frameFor (.slgGen w h r g b) s.din = raster w.toNat h.toNat r g b := if_pos hl
    obtain ⟨t, hdraws, hend, ht, hx⟩ := execSlgGen_whole w h r g b hl s
    rw [← hraster] at hdraws hx
    rw [startSlgGen_legal r g b hl] at ht
    exact ⟨t, hdraws, hend, (congrArg State.latch ht :), (congrArg State.din ht :), hx⟩
  | encEncode w h r g b =>
    have hl : dimsLegal w h = true := by
      by_contra hbad
      exact hframe (if_neg hbad)
    have hfile : frameFor (.encEncode w h r g b) s.din = file w h r g b := if_pos hl
    obtain ⟨t, hdraws, hend, ht, hx⟩ := execEncEncode_whole w h r g b hl s
    rw [← hfile] at hdraws hx
    rw [startEncEncode_legal r g b hl] at ht
    exact ⟨t, hdraws, hend, (congrArg State.latch ht :), (congrArg State.din ht :), hx⟩

/-- A command without a frame has completed when it begins, and takes nothing from `DIN`. -/
theorem exec_of_noFrame {i : Instr} {s : State} (hframe : frameFor i s.din = []) :
    exec i s = .next (start i s) ∧ (start i s).busy = false ∧ needs i = 0 := by
  cases i with
  | crcInit | crcUpd x | crcFin | adlInit | adlUpd x | adlFin => exact ⟨rfl, rfl, rfl⟩
  | sbwWrap n => exact absurd hframe (zwrap_ne_nil _)
  | chkMake tag len => exact absurd hframe (chunk_ne_nil _ _)
  | slgGen w h r g b =>
    cases hl : dimsLegal w h with
    | true =>
      obtain ⟨-, -, hh, -⟩ := (dimsLegal_iff w h).mp hl
      exact absurd ((if_pos hl).symm.trans hframe) (raster_ne_nil hh r g b)
    | false =>
      rw [start, startSlgGen_illegal r g b hl]
      exact ⟨execSlgGen_illegal r g b hl s, rfl, rfl⟩
  | encEncode w h r g b =>
    cases hl : dimsLegal w h with
    | true => exact absurd ((if_pos hl).symm.trans hframe) (file_ne_nil w h r g b)
    | false =>
      rw [start, startEncEncode_illegal r g b hl]
      exact ⟨execEncEncode_illegal r g b hl s, rfl, rfl⟩

/-- Drawing a frame leaves `busy` and the queues the host reads as they were. -/
theorem draws_frameByte_keeps {xs : List Byte} {s t : State} (h : Draws frameByte xs s t) :
    t.busy = s.busy ∧ t.dout = s.dout ∧ t.cpl = s.cpl := by
  induction xs generalizing s with
  | nil => cases h; exact ⟨rfl, rfl, rfl⟩
  | cons x xs ih =>
    obtain ⟨u, hu, h⟩ := h
    obtain ⟨hbusy, hdout, hcpl⟩ := ih h
    obtain ⟨hkeep, -⟩ := frameByte_cases hu
    exact ⟨hbusy.trans (congrArg State.busy hkeep :), hdout.trans (congrArg State.dout hkeep :),
      hcpl.trans (congrArg State.cpl hkeep :)⟩

/-! ### The outcome of a command -/

/-- From `s` to `t` the command `i` has run whole: its frame is on `DOUT`, its bytes are gone from `DIN`, its one record is on
`CPL` and the block is at rest. -/
structure RunsWhole (i : Instr) (s t : State) : Prop where
  dout : t.dout = s.dout ++ frameFor i s.din
  din : t.din = s.din.drop (needs i)
  cmd : t.cmd = s.cmd
  answered : Answered i s t

/-- A command that has answered with the block idle has completed. -/
theorem answered_of_idle {i : Instr} {s t : State} (h : exec i s = .next t) (hidle : t.busy = false) :
    Answered i s t := by
  obtain hanswered | ⟨hbusy, -⟩ := exec_record h
  · exact hanswered
  · rw [hidle] at hbusy; cases hbusy

/-- A command whose bytes are all on `DIN` runs whole. -/
theorem exec_of_needs {i : Instr} {s : State} (hneeds : needs i ≤ s.din.length) :
    ∃ t, exec i s = .next t ∧ RunsWhole i s t := by
  obtain ⟨hdoutStart, hdinStart, -⟩ := start_queues i s
  by_cases hframe : frameFor i s.din = []
  · obtain ⟨hruns, hidle, hzero⟩ := exec_of_noFrame hframe
    refine ⟨_, hruns, ?_, ?_, exec_cmd hruns, answered_of_idle hruns hidle⟩
    · rw [hframe, List.append_nil, hdoutStart]
    · rw [hzero, List.drop_zero, hdinStart]
  · obtain ⟨t, hdraws, -, -, hdin, hruns⟩ := drawsFrame hneeds hframe
    obtain ⟨-, hdout, -⟩ := draws_frameByte_keeps hdraws
    exact ⟨_, hruns, congrArg (· ++ frameFor i s.din) (hdout.trans hdoutStart), hdin, exec_cmd hruns,
      answered_of_idle hruns rfl⟩

/-- Settles O32: `ENC.ENCODE` takes nothing from `DIN`, so it always runs whole, and the range check decides its frame and its
verdict. -/
theorem encoderIsAllOrNothing : Obligations.EncoderIsAllOrNothing := by
  unfold Obligations.EncoderIsAllOrNothing
  intro w h r g b s
  obtain ⟨t, ht, hdout, hdin, -, hidle, -, hcpl⟩ :=
    exec_of_needs (i := .encEncode w h r g b) (s := s) (Nat.zero_le _)
  refine ⟨t, ht, hidle, hdin, ?_⟩
  rw [frameFor] at hdout
  rw [verdict] at hcpl
  cases hl : dimsLegal w h with
  | true =>
    rw [hl, if_pos rfl] at hdout hcpl
    exact .inl ⟨hdout, hcpl, (dimsLegal_iff w h).mp hl⟩
  | false =>
    rw [hl, if_neg Bool.false_ne_true] at hdout hcpl
    have hout := (dimsLegal_eq_false_iff w h).mp hl
    exact .inr ⟨hdout.trans (List.append_nil _), hcpl, by omega⟩

/-! ### A queue of commands -/

/-- A step of an idle block with a packet at the head of `CMD` and its bytes on `DIN`. -/
theorem step_of_needs {i : Instr} {rest : List Byte} {s : State} (hb : s.busy = false)
    (hcmd : s.cmd = encode i ++ rest) (hneeds : needs i ≤ s.din.length) :
    ∃ t v, step s = .next t ∧ t.busy = false ∧ t.cmd = rest ∧ t.dout = s.dout ++ frameFor i s.din ∧
      t.din = s.din.drop (needs i) ∧ t.cpl = s.cpl ++ [⟨i.op.code, verdict i, v⟩] := by
  obtain ⟨t, ht, hdout, hdin, hcmdT, hidle, -, hcpl⟩ := exec_of_needs (s := s.setCmd rest) hneeds
  exact ⟨t, _, (step_packet hb hcmd).trans ht, hidle, hcmdT, hdout, hdin, hcpl⟩

theorem occurAll_step_cons {s t : State} (h : step s = .next t) (es : List Event) :
    occurAll (.step :: es) s = occurAll es t := by
  rw [occurAll, occur, h]

/-- Settles O56: by induction on the queue; each command runs whole on what the ones before it left of `CMD` and `DIN`. -/
theorem queueRunsInOrder : Obligations.QueueRunsInOrder := by
  unfold Obligations.QueueRunsInOrder
  intro is
  induction is with
  | nil =>
    intro rest s hb hcmd _
    exact ⟨s, [], rfl, hb, hcmd, (List.append_nil _).symm, rfl, (List.append_nil _).symm, rfl⟩
  | cons i is ih =>
    intro rest s hb hcmd hneeds
    rw [List.flatMap_cons, List.append_assoc] at hcmd
    rw [List.map_cons, List.sum_cons] at hneeds
    obtain ⟨u, v, hu, hidle, hcmdU, hdout, hdin, hcpl⟩ := step_of_needs hb hcmd (by omega)
    obtain ⟨t, new, ht, hbusy, hcmdT, hdoutT, hdinT, hcplT, hnew⟩ :=
      ih rest u hidle hcmdU (by rw [hdin, List.length_drop]; omega)
    refine ⟨t, ⟨i.op.code, verdict i, v⟩ :: new, ?_, hbusy, hcmdT, ?_, ?_, ?_, ?_⟩
    · rw [List.length_cons, List.replicate_succ, occurAll_step_cons hu, ht]
    · rw [hdoutT, hdout, hdin, framesFor, List.append_assoc]
    · rw [hdinT, hdin, List.drop_drop, List.map_cons, List.sum_cons]
    · rw [hcplT, hcpl, List.append_assoc, List.singleton_append]
    · rw [List.map_cons, List.map_cons, hnew]

/-! ### Byte steps of a frame -/

/-- A command without a frame takes one byte step. -/
theorem ticks_noFrame {i : Instr} {rest : List Byte} {s : State} (hb : s.busy = false)
    (hcmd : s.cmd = encode i ++ rest) (hframe : frameFor i s.din = []) : ticks 1 s = step s := by
  obtain ⟨hruns, -⟩ := exec_of_noFrame (s := s.setCmd rest) hframe
  rw [step_packet hb hcmd, hruns, ticks_succ (tick_packet hb hcmd), ticks]

/-- A command with a frame and its bytes on `DIN` takes one byte step to begin and one per byte of its frame. -/
theorem ticks_frame {i : Instr} {rest : List Byte} {s : State} (hb : s.busy = false)
    (hcmd : s.cmd = encode i ++ rest) (hneeds : needs i ≤ s.din.length) (hframe : frameFor i s.din ≠ []) :
    ticks (1 + (frameFor i s.din).length) s = step s := by
  obtain ⟨t, hdraws, hend, -, -, hruns⟩ := drawsFrame (s := s.setCmd rest) hneeds hframe
  rw [step_packet hb hcmd, hruns, Nat.add_comm, ticks_succ (tick_packet hb hcmd)]
  exact (beats_finish hdraws hframe hend).ticks (start_quiet i _)

/-- Settles O54: the frame of each composite operation has the length its operands say; the others have none. -/
theorem byteStepsPerFrame : Obligations.ByteStepsPerFrame := by
  unfold Obligations.ByteStepsPerFrame
  refine ⟨fun w h r g b rest s hw1 hw2 hh1 hh2 hb => ⟨fun hcmd => ?_, fun hcmd => ?_⟩,
    fun n raw more rest s hb hdin hlen hcmd => ?_, fun tag len p more rest s hb hdin hlen hcmd => ?_,
    fun i rest s hop hb hcmd => ?_⟩
  · have hfile : frameFor (.encEncode w h r g b) s.din = file w h r g b :=
      if_pos ((dimsLegal_iff w h).mpr ⟨hw1, hw2, hh1, hh2⟩)
    rw [← hfile]
    exact ticks_frame hb hcmd (Nat.zero_le _) (hfile ▸ file_ne_nil w h r g b)
  · have hraster : frameFor (.slgGen w h r g b) s.din = raster w.toNat h.toNat r g b :=
      if_pos ((dimsLegal_iff w h).mpr ⟨hw1, hw2, hh1, hh2⟩)
    have hticks := ticks_frame hb hcmd (Nat.zero_le _) (hraster ▸ raster_ne_nil hh1 r g b)
    rwa [hraster, raster_length] at hticks
  · have hneeds : n.toNat ≤ s.din.length := by rw [hdin, List.length_append]; omega
    have hticks := ticks_frame hb hcmd hneeds (zwrap_ne_nil _)
    rwa [frameFor, zwrap_length, List.length_take_of_le hneeds] at hticks
  · have hneeds : len.toNat ≤ s.din.length := by rw [hdin, List.length_append]; omega
    have hticks := ticks_frame hb hcmd hneeds (chunk_ne_nil _ _)
    rwa [frameFor, chunk_length, List.length_take_of_le hneeds] at hticks
  · refine ticks_noFrame hb hcmd ?_
    cases i with
    | crcInit | crcUpd x | crcFin | adlInit | adlUpd x | adlFin => rfl
    | sbwWrap n | slgGen w h r g b | chkMake tag len | encEncode w h r g b => simp [Instr.op] at hop

/-- A row of bytes draws on only where the frame is not over. -/
theorem Draws.running {xs : List Byte} {s t : State} (h : Draws frameByte xs s t) (hne : xs ≠ []) :
    s.seq.frame ≠ .atRest := by
  obtain ⟨x, xs, rfl⟩ := List.exists_cons_of_ne_nil hne
  obtain ⟨u, hu, -⟩ := h
  intro hrest
  rw [frameByte_atRest hrest] at hu
  cases hu

/-- The beginning of a command that has a frame is in progress, with no record yet. -/
theorem DrawsFrame.start_busy {i : Instr} {s t : State} (h : DrawsFrame i s t) (hframe : frameFor i s.din ≠ []) :
    (start i s).busy = true ∧ (start i s).cpl = s.cpl := by
  obtain ⟨q, hstart⟩ | ⟨c, ab, st, v, hstart, -⟩ := start_cases i s
  · rw [hstart]; exact ⟨rfl, rfl⟩
  · refine absurd ?_ (h.draws.running hframe)
    rw [hstart]; rfl

theorem State.emit_nil (s : State) : s.emit [] = s := by
  simp only [State.emit, List.append_nil]

/-- Bytes drawn while the frame goes on are as many byte steps. -/
theorem beats_draws {xs : List Byte} {s t : State} (hd : Draws frameByte xs s t) (hf : t.seq.frame ≠ .atRest) :
    Beats xs.length s (t.emit xs) := by
  induction xs generalizing s t with
  | nil => cases hd; exact State.emit_nil s
  | cons x xs ih =>
    obtain ⟨u, hu, hd⟩ := hd
    have hrun : u.seq.frame ≠ .atRest := by
      by_cases hxs : xs = []
      · subst hxs; cases hd; exact hf
      · exact hd.running hxs
    have hrest := ih ((frameByte_emit [x]).draws hd) hf
    rw [State.emit_emit] at hrest
    exact ⟨_, beat_running hu hrun, hrest⟩

/-- Settles O55: the first `k` bytes are byte steps that leave the frame going on by `beats_draws`, all of them end it by
`beats_finish`. -/
theorem frameBytesPrecedeTheRecord : Obligations.FrameBytesPrecedeTheRecord := by
  unfold Obligations.FrameBytesPrecedeTheRecord
  intro i rest s hb hcmd hneeds hframe k hk
  obtain ⟨t, hframeDraws⟩ := drawsFrame (s := s.setCmd rest) hneeds hframe
  obtain ⟨hbusy, hcpl⟩ := hframeDraws.start_busy hframe
  obtain ⟨hdoutStart, -⟩ := start_queues i (s.setCmd rest)
  obtain ⟨hdraws, hend, hlatch, -⟩ := hframeDraws
  rw [State.setCmd_din] at hdraws
  have hticks : ticks (1 + k) s = ticks k (start i (s.setCmd rest)) := by
    rw [Nat.add_comm, ticks_succ (tick_packet hb hcmd)]
  rw [hticks]
  obtain hlt | rfl := Nat.lt_or_eq_of_le hk
  · rw [← List.take_append_drop k (frameFor i s.din)] at hdraws
    obtain ⟨u, hfirst, hlater⟩ := hdraws.split
    have hrun := hlater.running (fun hnil => by rw [List.drop_eq_nil_iff] at hnil; omega)
    have hbeats := beats_draws hfirst hrun
    rw [List.length_take_of_le hk] at hbeats
    obtain ⟨hbusyU, hdoutU, hcplU⟩ := draws_frameByte_keeps hfirst
    exact ⟨_, hbeats.ticks (start_quiet i _), congrArg (· ++ _) (hdoutU.trans hdoutStart),
      fun _ => ⟨hbusyU.trans hbusy, hcplU.trans hcpl⟩, fun heq => absurd heq hlt.ne⟩
  · obtain ⟨-, hdoutT, hcplT⟩ := draws_frameByte_keeps hdraws
    refine ⟨_, (beats_finish hdraws hframe hend).ticks (start_quiet i _), ?_, fun hlt => absurd hlt (Nat.lt_irrefl _),
      fun _ => ⟨rfl, ?_⟩⟩
    · rw [List.take_length]
      exact congrArg (· ++ _) (hdoutT.trans hdoutStart)
    · show t.cpl ++ [⟨t.latch.op, .ok, 0⟩] = _
      rw [hcplT, hcpl, hlatch]; rfl

end Sys2Proof.Machine
end

section
/-! The completion record, and the registers after a command: which operations write them, and the checksums a composite
operation leaves to be read back (spec/10_state.md R21 to R23, R33, spec/70_reset_and_hazards.md R306). -/

namespace Sys2Proof.Machine

/-! ### The completion record -/

/-- Settles O2: `complete` writes the fields the statement names; a record's bytes are its opcode, its status number and
`be32` of its result. -/
theorem completionRecordAndItsBytes : Obligations.CompletionRecordAndItsBytes := by
  unfold Obligations.CompletionRecordAndItsBytes
  intro s st v
  refine ⟨State.complete_cpl .., rfl, rfl, rfl, rfl, rfl, rfl, rfl, rfl, fun op => ?_⟩
  cases st with
  | ok | invalidDimensions | illegalCommand => rfl

/-! ### Which operations write the registers -/

theorem execSbwWrap_crc {n : Word} {s t : State} (h : exec (.sbwWrap n) s = .next t) : t.crc = s.crc := by
  obtain ⟨-, hwhole, hholds⟩ := wrapEmitsTheStream
  obtain hshort | henough := Nat.lt_or_ge s.din.length n.toNat
  · obtain ⟨u, hu, -, -, -, hcrc, -⟩ := hholds n s hshort
    obtain rfl := Host.Outcome.next.inj (hu.symm.trans h)
    exact hcrc
  · obtain ⟨u, hu, -, -, -, -, hcrc, -⟩ := hwhole n (s.din.take n.toNat) (s.din.drop n.toNat) s
      (List.take_append_drop _ _).symm (List.length_take_of_le henough)
    obtain rfl := Host.Outcome.next.inj (hu.symm.trans h)
    exact hcrc

theorem execSlgGen_registers {w h : Word} {r g b : Byte} {s t : State} (hx : exec (.slgGen w h r g b) s = .next t) :
    t.crc = s.crc ∧ t.a = s.a ∧ t.b = s.b := by
  cases hl : dimsLegal w h with
  | true =>
    obtain ⟨u, -, -, hu, hw⟩ := execSlgGen_whole w h r g b hl s
    rw [startSlgGen_legal r g b hl] at hu
    obtain rfl := Host.Outcome.next.inj (hw.symm.trans hx)
    exact ⟨(congrArg State.crc hu :), (congrArg State.a hu :), (congrArg State.b hu :)⟩
  | false =>
    obtain rfl := Host.Outcome.next.inj ((execSlgGen_illegal r g b hl s).symm.trans hx)
    exact ⟨rfl, rfl, rfl⟩

/-- Settles O49: command by command, those that may write the register excluded. -/
theorem registerWriters : Obligations.RegisterWriters := by
  unfold Obligations.RegisterWriters
  intro i s t h
  cases i with
  | crcInit =>
    obtain rfl := Host.Outcome.next.inj h
    exact ⟨fun hne => absurd rfl hne, fun _ _ _ _ => ⟨rfl, rfl⟩⟩
  | crcUpd x =>
    obtain rfl := Host.Outcome.next.inj h
    exact ⟨fun _ hne => absurd rfl hne, fun _ _ _ _ => ⟨rfl, rfl⟩⟩
  | adlInit =>
    obtain rfl := Host.Outcome.next.inj h
    exact ⟨fun _ _ _ _ => rfl, fun hne => absurd rfl hne⟩
  | adlUpd x =>
    obtain rfl := Host.Outcome.next.inj h
    exact ⟨fun _ _ _ _ => rfl, fun _ hne => absurd rfl hne⟩
  | crcFin | adlFin =>
    obtain rfl := Host.Outcome.next.inj h
    exact ⟨fun _ _ _ _ => rfl, fun _ _ _ _ => ⟨rfl, rfl⟩⟩
  | sbwWrap n => exact ⟨fun _ _ _ _ => execSbwWrap_crc h, fun _ _ hne => absurd rfl hne⟩
  | slgGen w ht r g b =>
    obtain ⟨hcrc, hsums⟩ := execSlgGen_registers h
    exact ⟨fun _ _ _ _ => hcrc, fun _ _ _ _ => hsums⟩
  | chkMake tag len =>
    obtain ⟨ha, hb, -⟩ := execChkMake_frame h
    exact ⟨fun _ _ hne => absurd rfl hne, fun _ _ _ _ => ⟨ha, hb⟩⟩
  | encEncode w ht r g b => exact ⟨fun _ _ _ hne => absurd rfl hne, fun _ _ _ hne => absurd rfl hne⟩

/-! ### Checksums read back -/

/-- `CRC.FIN` answers the checksum of the bytes the register ran over. -/
theorem crcFin_cpl {s : State} {m : List Byte} (h : s.crc = crcRun Config.crcStart m) :
    (crcFin s).cpl = s.cpl ++ [⟨0x12, .ok, crc32 m⟩] := by
  obtain ⟨-, -, ⟨-, -, hcpl⟩, -⟩ := crcStep_crcFin s
  rw [hcpl, crc32, ← h]; rfl

/-- `ADL.FIN` answers the checksum of the bytes the sums ran over. -/
theorem adlFin_cpl {s : State} {m : List Byte} (h : (s.a, s.b) = adlerRun adlerStart m) :
    (adlFin s).cpl = s.cpl ++ [⟨0x22, .ok, adler32 m⟩] := by
  obtain ⟨-, -, ⟨-, -, hcpl⟩, -⟩ := adlStep_adlFin s
  rw [hcpl, adler32, ← h]; rfl

/-- Settles O51: each composite operation leaves the run over its bytes in the register, which `FIN` answers. -/
theorem emittedChecksumsReadBack : Obligations.EmittedChecksumsReadBack := by
  unfold Obligations.EmittedChecksumsReadBack
  refine ⟨fun n raw rest s hdin hlen => ?_, fun tag len p rest s hdin hlen => ?_,
    fun w h r g b s hw1 hw2 hh1 hh2 => ?_⟩
  · obtain ⟨-, hwhole, -⟩ := wrapEmitsTheStream
    obtain ⟨u, hu, -, -, -, hsums, -, -, hcpl, -⟩ := hwhole n raw rest s hdin hlen
    refine ⟨adlFin u, execAll_cons_next hu [.adlFin], ?_⟩
    rw [adlFin_cpl hsums, hcpl, List.append_assoc]; rfl
  · obtain ⟨-, hwhole, -⟩ := serializerEmitsTheChunk
    obtain ⟨u, hu, -, -, -, hcrc, -, -, -, hcpl, -⟩ := hwhole tag len p rest s hdin hlen
    refine ⟨crcFin u, execAll_cons_next hu [.crcFin], ?_⟩
    rw [crcFin_cpl hcrc, hcpl, List.append_assoc]; rfl
  · obtain ⟨-, hwhole, -⟩ := encoderEmitsTheFile
    obtain ⟨u, hu, -, -, -, hcrc, hsums, -, hcpl, -⟩ := hwhole w h r g b s hw1 hw2 hh1 hh2
    refine ⟨adlFin (crcFin u), execAll_cons_next hu [.crcFin, .adlFin], ?_⟩
    have htag : crc32 (be32 Config.tagIEND) = 0xAE426082 := by decide +kernel
    rw [adlFin_cpl (s := crcFin u) hsums, crcFin_cpl (hcrc.trans crcRun_tagIEND.symm), hcpl, htag, List.append_assoc,
      List.append_assoc]; rfl

/-- Settles O52: `CHK.MAKE` leaves the run over its tag in `crc`, whatever was there; `CRC.UPD` runs on from it. -/
theorem chunkBetweenUpdatesTakesTheRegister : Obligations.ChunkBetweenUpdatesTakesTheRegister := by
  unfold Obligations.ChunkBetweenUpdatesTakesTheRegister
  intro tag x y s
  obtain ⟨hinit, -⟩ := crcStep_crcInit s
  obtain ⟨hupd, -⟩ := crcStep_crcUpd x (crcInit s)
  obtain ⟨-, hwhole, -⟩ := serializerEmitsTheChunk
  obtain ⟨u, hmake, -, -, -, hcrc, -⟩ := hwhole tag 0 [] _ (crcUpd x (crcInit s)) (List.nil_append _).symm rfl
  obtain ⟨hupd', hcrc', -⟩ := crcStep_crcUpd y u
  obtain ⟨hfin, -⟩ := crcStep_crcFin (crcUpd y u)
  rw [List.append_nil] at hcrc
  have hrun : (crcUpd y u).crc = crcRun Config.crcStart (be32 tag ++ [y]) := by
    rw [hcrc', hcrc, crcRun_append]; rfl
  refine ⟨crcFin (crcUpd y u), ?_, ?_⟩
  · rw [execAll_cons_next hinit, execAll_cons_next hupd, execAll_cons_next hmake, execAll_cons_next hupd',
      execAll_cons_next hfin, execAll]
  · rw [crcFin_cpl hrun, List.getLast?_concat]

end Sys2Proof.Machine
end

section
/-! Operations that hold: what has come out when `DIN` runs empty, going on when the host supplies more, and independence of
the registers found (spec/20_memory.md R66, R70, spec/10_state.md R38). -/

namespace Sys2Proof.Machine

/-! ### A hold lasts -/

theorem step_holding {s : State} (hb : s.busy = true) (hh : holding s = true) : step s = .next s := by
  rw [step, hb, if_pos rfl, resume, settle_holding hh]

theorem tick_holding {s : State} (hb : s.busy = true) (hh : holding s = true) : tick s = .next s := by
  simp only [tick, hb, if_true, beat_holding hh, atPause_holding hh]

/-! ### The part of a frame that is out -/

/-- An operation that is still busy after some byte steps has emitted the front of the frame it draws when the host supplies
more, and not all of it: those byte steps are the first of the ones that draw the frame. -/
theorem emitted_front_of_frame {j : Nat} {s t u : State} {out frame more : List Byte} (hbeats : Beats j s t)
    (hbusy : t.busy = true) (hout : t.dout = s.dout ++ out) (hdraws : Draws frameByte frame (s.supply more) u)
    (hne : frame ≠ []) (hend : u.seq.frame = .atRest) : out <+: frame ∧ out.length < frame.length := by
  have hsupplied : Beats j (s.supply more) (t.supply more) := hbeats.supply more
  have hfinish := beats_finish hdraws hne hend
  have hlt : j < frame.length := by
    by_contra hge
    obtain ⟨-, hsame⟩ := (hfinish.rest hsupplied (Nat.le_of_not_lt hge)).none_of_paused (beat_idle rfl)
    have hidle : t.busy = false := congrArg State.busy hsame
    rw [hbusy] at hidle; cases hidle
  obtain ⟨ys, hlength, hys⟩ := hbeats.dout
  obtain ⟨zs, -, hzs⟩ := (hsupplied.rest hfinish (Nat.le_of_lt hlt)).dout
  obtain ⟨-, hdout, -⟩ := draws_frameByte_keeps hdraws
  have hys' : ys = out := List.append_cancel_left (hys.symm.trans hout)
  have hframe : frame = out ++ zs := by
    have hall : u.dout ++ frame = t.dout ++ zs := hzs
    rw [hdout, hout, List.append_assoc] at hall
    exact List.append_cancel_left hall
  exact ⟨⟨zs, hframe.symm⟩, by rw [← hys', hlength]; exact hlt⟩

/-- What `settle` answers, byte steps have reached. -/
theorem settle_beats {s t : State} (h : settle s = .next t) : ∃ j, j ≤ beatBound ∧ Beats j s t := by
  obtain ⟨j, hj, hbeats, -⟩ := drive_beats beatBound s
  rw [← settle_next h] at hbeats
  exact ⟨j, hj, hbeats⟩

/-- Settles O18: `execSbwWrap_holds` says where it holds, `emitted_front_of_frame` what is out. -/
theorem wrapHoldsOnEmptyInput : Obligations.WrapHoldsOnEmptyInput := by
  unfold Obligations.WrapHoldsOnEmptyInput
  intro n s hshort
  obtain ⟨t, ht, hin, hh, hcrc, hcmd⟩ := execSbwWrap_holds hshort
  obtain ⟨hbusy, -⟩ := hin
  obtain ⟨j, -, hbeats⟩ := settle_beats ht
  obtain ⟨out, -, hout⟩ := hbeats.dout
  obtain hanswered | ⟨-, hcpl⟩ := execSbwWrap_record ht
  · obtain ⟨hidle, -⟩ := hanswered
    rw [hbusy] at hidle; cases hidle
  refine ⟨t, out, ht, hbusy, din_nil_of_holding hh, hout, hcpl, hcrc, hcmd, fun more hlen => ?_,
    step_holding hbusy hh, tick_holding hbusy hh⟩
  obtain ⟨u, hdraws, hend, -⟩ := draws_startSbwWrap n (s.din ++ more) [] (s.supply more) (List.append_nil _).symm
    (by rw [List.length_append]; exact hlen.symm)
  exact emitted_front_of_frame hbeats hbusy hout hdraws (zwrap_ne_nil _) hend

/-- Settles O25: `execChkMake_holds` says where it holds, `emitted_front_of_frame` what is out. -/
theorem serializerHoldsOnEmptyInput : Obligations.SerializerHoldsOnEmptyInput := by
  unfold Obligations.SerializerHoldsOnEmptyInput
  intro tag len s hshort
  obtain ⟨t, ht, hin, hh, hdin, hcpl⟩ := execChkMake_holds (tag := tag) hshort
  obtain ⟨hbusy, -⟩ := hin
  obtain ⟨j, -, hbeats⟩ := settle_beats ht
  obtain ⟨out, -, hout⟩ := hbeats.dout
  obtain ⟨ha, hb, hcmd⟩ := execChkMake_frame ht
  refine ⟨t, out, ht, hbusy, hdin, hout, hcpl, ha, hb, hcmd, fun more hlen => ?_,
    step_holding hbusy hh, tick_holding hbusy hh⟩
  obtain ⟨u, hdraws, hend, -⟩ := draws_startChkMake tag len (s.din ++ more) [] (s.supply more) (List.append_nil _).symm
    (by rw [List.length_append]; exact hlen.symm)
  exact emitted_front_of_frame hbeats hbusy hout hdraws (chunk_ne_nil _ _) hend

/-! ### Going on after a hold -/

/-- A command's outcome has no byte step: it is at rest, or it holds. -/
theorem beat_exec {i : Instr} {s t : State} (h : exec i s = .next t) : beat t = none := by
  obtain ⟨u, hu, ⟨-, hseq⟩ | ⟨-, -, -, hh⟩ | ⟨-, -, -, -, hh⟩⟩ := exec_next i s
  all_goals obtain rfl := Host.Outcome.next.inj (hu.symm.trans h)
  · exact beat_idle hseq
  · exact beat_holding hh
  · exact beat_holding hh

/-- From a state on the way of `settle` to its pause, `settle` reaches the same pause. -/
theorem settle_of_beats {j : Nat} {s t : State} (hj : j ≤ beatBound) (hbeats : Beats j s t)
    (hpause : beat (drive beatBound s) = none) : settle t = settle s := by
  obtain ⟨k, hk⟩ := Nat.exists_eq_add_of_le hj
  have hs : drive beatBound s = drive k t := by rw [hk, hbeats.drive]
  obtain ⟨l, hl, hrest, -⟩ := drive_beats k t
  have ht : drive beatBound t = drive k t := by
    obtain ⟨m, hm⟩ := Nat.exists_eq_add_of_le (show l ≤ beatBound by omega)
    rw [hm, hrest.drive, drive_paused (hs ▸ hpause)]
  rw [settle, settle, hs, ht]

/-- The beginning of a command does not see `DIN`. -/
theorem start_supply (i : Instr) (s : State) (ys : List Byte) : start i (s.supply ys) = (start i s).supply ys := by
  cases i with
  | crcInit | crcUpd x | crcFin | adlInit | adlUpd x | adlFin | sbwWrap n | chkMake tag len => rfl
  | slgGen w h r g b =>
    simp only [start, startSlgGen]
    split <;> rfl
  | encEncode w h r g b =>
    simp only [start, startEncEncode]
    split <;> rfl

/-- Settles O36: with the bytes there from the start the byte steps to the hold are the same, and `settle` goes on from there
to the same pause. -/
theorem resumingAfterAHoldLosesNothing : Obligations.ResumingAfterAHoldLosesNothing := by
  unfold Obligations.ResumingAfterAHoldLosesNothing
  intro i s t more h hbusy
  rw [exec_eq_settle] at h
  obtain ⟨j, hj, hbeats⟩ := settle_beats h
  have hsupplied := hbeats.supply more
  rw [← start_supply] at hsupplied
  obtain ⟨u, hu, -⟩ := exec_next i (s.supply more)
  have hpause := beat_exec hu
  rw [exec_eq_settle] at hu ⊢
  rw [settle_next hu] at hpause
  rw [step, State.supply_busy, hbusy, if_pos rfl, resume]
  exact settle_of_beats hj hsupplied hpause

/-! ### Registers found -/

/-- Two states with the same first byte step settle to the same outcome. -/
theorem settle_eq_of_beat {s s' u : State} (h : beat s = some u) (h' : beat s' = some u) : settle s = settle s' := by
  have hbound : beatBound = (beatBound - 1) + 1 := rfl
  rw [settle, settle, hbound, drive, drive, h, h']

/-- An update beside the sequencer: it leaves alone all that says where an operation stands, and commutes with what a byte
step does once it has its byte. -/
structure Aside (upd : State → State) : Prop where
  seq : ∀ s, (upd s).seq = s.seq := by intro s; rfl
  busy : ∀ s, (upd s).busy = s.busy := by intro s; rfl
  latch : ∀ s, (upd s).latch = s.latch := by intro s; rfl
  din : ∀ s, (upd s).din = s.din := by intro s; rfl
  outPush : ∀ x s, (upd s).outPush x = upd (s.outPush x) := by intro x s; rfl
  complete : ∀ s, (upd s).complete .ok 0 = upd (s.complete .ok 0) := by intro s; rfl

theorem aside_setCrc (c : Word) : Aside (State.setCrc c) := {}

theorem aside_setAdler (ab : Half × Half) : Aside (State.setAdler ab) := {}

theorem Aside.holding {upd : State → State} (hu : Aside upd) (s : State) : holding (upd s) = Machine.holding s := by
  simp only [Machine.holding, hu.seq, hu.latch, hu.din]

/-- A byte step commutes with such an update if the byte of the frame does. -/
theorem Aside.beat {upd : State → State} (hu : Aside upd) {s : State}
    (hbyte : frameByte (upd s) = (frameByte s).map (fun p => (p.1, upd p.2))) :
    beat (upd s) = (Machine.beat s).map upd := by
  rw [Machine.beat, Machine.beat, hbyte]
  cases frameByte s with
  | none => rfl
  | some p =>
    simp only [Option.map_some, hu.seq, hu.outPush, hu.complete]
    split <;> rfl

/-- An operation whose bytes commute with an update beside the sequencer settles to the same outcome, updated. -/
theorem Aside.settle {upd : State → State} (hu : Aside upd) {P : State → Prop} {left : State → Nat}
    (hstep : ∀ s, P s → Machine.holding s = true ∨
      ∃ t, Machine.beat s = some t ∧ (Completes s t ∨ (P t ∧ left t < left s)))
    (hbyte : ∀ s, P s → frameByte (upd s) = (frameByte s).map (fun p => (p.1, upd p.2))) {s t : State} (hs : P s)
    (h : Machine.settle s = .next t) : Machine.settle (upd s) = .next (upd t) := by
  have hdrive : ∀ k u, P u → drive k (upd u) = upd (drive k u) := by
    intro k
    induction k with
    | zero => intro u _; rfl
    | succ k ih =>
      intro u hPu
      have hbeat := hu.beat (hbyte u hPu)
      obtain hhold | ⟨v, hv, ⟨-, hseq, -⟩ | ⟨hPv, -⟩⟩ := hstep u hPu
      · rw [drive_paused (beat_holding hhold), drive_paused (beat_holding ((hu.holding u).trans hhold))]
      · simp only [drive, hbeat, hv, Option.map_some]
        rw [drive_paused (beat_idle hseq), drive_paused (beat_idle ((hu.seq v).trans hseq))]
      · simp only [drive, hbeat, hv, Option.map_some, ih v hPv]
  obtain ⟨rfl, hpause⟩ := atPause_next h
  rw [Machine.settle, hdrive _ _ hs]
  obtain hidle | hhold := hpause
  · exact atPause_idle ((hu.busy _).trans hidle)
  · exact atPause_holding ((hu.holding _).trans hhold)

/-- A byte of `SBW.WRAP`'s frame does not see `crc`. -/
theorem Wrapping.frameByte_setCrc {n : Word} {s : State} (h : Wrapping n s) (c : Word) :
    frameByte (s.setCrc c) = (frameByte s).map (fun p => (p.1, p.2.setCrc c)) := by
  obtain ⟨-, hl, hf, -⟩ := h
  simp only [frameByte, State.setCrc_seq, State.setCrc_latch, hf, hl]
  exact map_afterByte_commutes (ended := streamDone) (next := State.setFrame .atRest)
    ((sbwByte_payloadSource n inPop_payloadSource).crc c) (fun _ => rfl) (fun _ => rfl) s

/-- A byte of `CHK.MAKE`'s frame does not see the sums. -/
theorem Serializing.frameByte_setAdler {tag len : Word} {s : State} (h : Serializing tag len s) (ab : Half × Half) :
    frameByte (s.setAdler ab) = (frameByte s).map (fun p => (p.1, p.2.setAdler ab)) := by
  obtain ⟨-, hl, hf, -⟩ := h
  have hbyte : Commutes (chkByte tag len State.inPop) (State.setAdler ab) :=
    chkByte_commutes (inPop_rawSource.adler ab) ⟨fun _ => rfl, fun _ _ => rfl⟩ (fun _ => rfl) (fun _ => rfl)
      (fun _ => rfl) (fun _ _ => rfl) (fun _ _ => rfl) (fun _ _ => rfl)
  simp only [frameByte, State.setAdler_seq, State.setAdler_latch, hf, hl]
  exact map_afterByte_commutes (ended := chunkDone) (next := State.setFrame .atRest) hbyte (fun _ => rfl)
    (fun _ => rfl) s

/-- The state with other values in the registers. -/
def State.setRegisters (c : Word) (ab : Half × Half) (s : State) : State := (s.setCrc c).setAdler ab

/-- The first byte step of `SBW.WRAP` initialises the sums, whatever they were. -/
theorem beat_startSbwWrap (n : Word) (s : State) : beat (startSbwWrap n s) =
    some ((((startSbwWrap n s).setAdler adlerStart).setRemaining n 0).setIdx 1 |>.outPush 0x78) := rfl

/-- The first byte step of `CHK.MAKE` initialises `crc`, whatever it was. -/
theorem beat_startChkMake (tag len : Word) (s : State) : beat (startChkMake tag len s) =
    some ((((startChkMake tag len s).setCrc Config.crcStart).setPayRem len).setIdx 1 |>.outPush
      (len.extractLsb' 24 8)) := rfl

/-- Other values in the registers change nothing of what `SBW.WRAP` leaves but `crc`. -/
theorem execSbwWrap_setRegisters {n : Word} {s t : State} (c : Word) (ab : Half × Half)
    (h : execSbwWrap n s = .next t) : execSbwWrap n (s.setRegisters c ab) = .next (t.setCrc c) := by
  have hstart : startSbwWrap n (s.setRegisters c ab) = (startSbwWrap n (s.setAdler ab)).setCrc c := rfl
  have hsums : settle (startSbwWrap n (s.setAdler ab)) = settle (startSbwWrap n s) :=
    settle_eq_of_beat (beat_startSbwWrap n _) (beat_startSbwWrap n s)
  rw [execSbwWrap, hstart]
  exact (aside_setCrc c).settle (fun _ hu => hu.beat) (fun _ hu => hu.frameByte_setCrc c)
    (wrapping_startSbwWrap n (s.setAdler ab)) (hsums.trans h)

/-- Other values in the registers change nothing of what `CHK.MAKE` leaves but the sums. -/
theorem execChkMake_setRegisters {tag len : Word} {s t : State} (c : Word) (ab : Half × Half)
    (h : execChkMake tag len s = .next t) : execChkMake tag len (s.setRegisters c ab) = .next (t.setAdler ab) := by
  have hstart : startChkMake tag len (s.setRegisters c ab) = (startChkMake tag len (s.setCrc c)).setAdler ab := rfl
  have hcrc : settle (startChkMake tag len (s.setCrc c)) = settle (startChkMake tag len s) :=
    settle_eq_of_beat (beat_startChkMake tag len _) (beat_startChkMake tag len s)
  rw [execChkMake, hstart]
  exact (aside_setAdler ab).settle (fun _ hu => hu.beat) (fun _ hu => hu.frameByte_setAdler ab)
    (serializing_startChkMake tag len (s.setCrc c)) (hcrc.trans h)

/-- A command that runs whole and answers no register gives the same whatever the registers hold. -/
theorem exec_setRegisters_of_needs {i : Instr} {s t : State} (c : Word) (ab : Half × Half)
    (hneeds : needs i ≤ s.din.length) (hresult : resultFor i (s.setRegisters c ab) = resultFor i s)
    (h : exec i s = .next t) : ∃ t', exec i (s.setRegisters c ab) = .next t' ∧
      t'.dout = t.dout ∧ t'.din = t.din ∧ t'.cpl = t.cpl ∧ t'.busy = t.busy := by
  obtain ⟨u, hu, hdout, hdin, -, hbusy, -, hcpl⟩ := exec_of_needs hneeds
  obtain ⟨t', ht', hdout', hdin', -, hbusy', -, hcpl'⟩ := exec_of_needs (s := s.setRegisters c ab) hneeds
  obtain rfl := Host.Outcome.next.inj (hu.symm.trans h)
  rw [hresult] at hcpl'
  exact ⟨t', ht', hdout'.trans hdout.symm, hdin'.trans hdin.symm, hcpl'.trans hcpl.symm, hbusy'.trans hbusy.symm⟩

/-- Settles O50: the operations that can hold by the registers their outcome carries along, the two others run whole. -/
theorem compositesForgetTheRegisters : Obligations.CompositesForgetTheRegisters := by
  unfold Obligations.CompositesForgetTheRegisters
  intro i s t c x y hop h
  have hset : { s with crc := c, a := x, b := y } = s.setRegisters c (x, y) := rfl
  rw [hset]
  cases i with
  | crcInit | crcUpd _ | crcFin | adlInit | adlUpd _ | adlFin => simp [Instr.op] at hop
  | sbwWrap n => exact ⟨_, execSbwWrap_setRegisters c (x, y) h, rfl, rfl, rfl, rfl⟩
  | chkMake tag len => exact ⟨_, execChkMake_setRegisters c (x, y) h, rfl, rfl, rfl, rfl⟩
  | slgGen w ht r g b => exact exec_setRegisters_of_needs c (x, y) (Nat.zero_le _) rfl h
  | encEncode w ht r g b => exact exec_setRegisters_of_needs c (x, y) (Nat.zero_le _) rfl h

end Sys2Proof.Machine
end

section
/-! The readers of a frame against the frames: stored blocks and streams, chunks, and whole files (spec/30_encoding.md R102,
spec/42_stored_block_wrapper.md R182, spec/44_chunk_serializer.md R228, spec/45_file_encoder.md R254). -/

namespace Sys2Proof.Machine

/-! ### Stored blocks and streams -/

theorem readBytes_append (d rest : List Byte) : readBytes d.length (d ++ rest) = some (d, rest) := by
  rw [readBytes, if_pos (by rw [List.length_append]; omega), List.take_left, List.drop_left]

/-- A stored block is read back as its flag and its data, if its length fits the two bytes of `LEN`. -/
theorem readBlock_storedBlock {d : List Byte} (hd : d.length ≤ 65535) (final : Bool) (rest : List Byte) :
    readBlock (storedBlock d final ++ rest) = some (final, d, rest) := by
  have hlen : (BitVec.ofNat 16 d.length).toNat = d.length := by
    rw [BitVec.toNat_ofNat]; omega
  have hflag : blockHeaderByte final = 0 ∨ blockHeaderByte final = 1 := by
    cases final with
    | true => exact .inr rfl
    | false => exact .inl rfl
  have hfinal : (blockHeaderByte final == 1) = final := by
    cases final with
    | true => rfl
    | false => rfl
  simp only [storedBlock, blockHeader, le16, List.cons_append, List.nil_append, readBlock, ofLe16_le16, hflag, hlen,
    readBytes_append, hfinal, and_self, if_true]

/-- Reading with fuel for all its blocks takes the blocks of `raw` back to `raw`. -/
theorem readBlocks_storedBlocks (fuel : Nat) (raw rest : List Byte) (hfuel : blockCount raw.length ≤ fuel) :
    readBlocks fuel (storedBlocks raw ++ rest) = some (raw, rest) := by
  induction fuel generalizing raw with
  | zero => simp only [blockCount] at hfuel; omega
  | succ fuel ih =>
    obtain hlong | hshort := Nat.lt_or_ge 65535 raw.length
    · have hfull : (raw.take 65535).length ≤ 65535 := List.length_take_le _ _
      rw [blockCount_long hlong] at hfuel
      rw [storedBlocks_long hlong, List.append_assoc, readBlocks, readBlock_storedBlock hfull]
      simp only [ih (raw.drop 65535) (by rw [List.length_drop]; omega), List.take_append_drop]
    · rw [storedBlocks_short hshort, readBlocks, readBlock_storedBlock hshort]

theorem readStream_zwrap (raw rest : List Byte) : readStream (zwrap raw ++ rest) = some (raw, rest) := by
  have hstream : zwrap raw ++ rest =
      0x78#8 :: 0x01#8 :: (storedBlocks raw ++ (be32 (adler32 raw) ++ rest)) := by
    rw [zwrap, List.append_assoc, List.append_assoc]; rfl
  have hfuel : blockCount raw.length ≤ (storedBlocks raw ++ (be32 (adler32 raw) ++ rest)).length + 1 := by
    rw [List.length_append, storedBlocks_length]; omega
  rw [hstream]
  simp only [readStream, readBlocks_storedBlocks _ _ _ hfuel, readBe32_be32, if_true]

/-- Settles O19: the blocks by `readBlocks_storedBlocks`, the trailer by `readBe32_be32`. -/
theorem readerUnwrapsTheStream : Obligations.ReaderUnwrapsTheStream := by
  unfold Obligations.ReaderUnwrapsTheStream
  exact readStream_zwrap

/-! ### Chunks -/

theorem readChunk_chunk (tag : Word) {p : List Byte} (hp : p.length < 2 ^ 32) (rest : List Byte) :
    readChunk (chunk tag p ++ rest) = some (⟨tag, p, crc32 (be32 tag ++ p)⟩, rest) := by
  have hlen : (BitVec.ofNat 32 p.length).toNat = p.length := by
    rw [BitVec.toNat_ofNat, Nat.mod_eq_of_lt hp]
  simp only [readChunk, chunk, List.append_assoc, readBe32_be32, hlen, readBytes_append, Option.bind_eq_bind,
    Option.bind_some, Option.pure_def]

/-- The bytes of a chunk after its payload are its checksum. -/
theorem chunk_drop_payload (tag : Word) (p : List Byte) :
    (chunk tag p).drop (8 + p.length) = be32 (crc32 (be32 tag ++ p)) := by
  rw [chunk]
  exact List.drop_left' (by simp only [List.length_append, be32_length])

/-- Settles O26: the reader by `readChunk_chunk`, the fields at their places by `chunk_at`. -/
theorem readerTakesTheChunkApart : Obligations.ReaderTakesTheChunkApart := by
  unfold Obligations.ReaderTakesTheChunkApart
  intro tag p rest hp
  obtain ⟨hlen, htag, ⟨after, hpayload⟩, hcrc, -⟩ :=
    chunk_at (f := chunk tag p) (o := 0) (rest := []) (List.append_nil _).symm
  rw [Nat.zero_add] at htag hpayload
  refine ⟨readChunk_chunk tag hp rest, hlen, htag, ?_, ?_⟩
  · rw [hpayload, List.take_left]
  · rw [Nat.zero_add, Nat.zero_add, chunk_drop_payload] at hcrc
    rw [chunk_drop_payload]
    exact hcrc

/-! ### Files -/

theorem readHeader_headerPayload (w h : Word) : readHeader (headerPayload w h) = some (w, h) := by
  simp only [readHeader, headerPayload, List.append_assoc, readBe32_be32, Option.bind_eq_bind, Option.bind_some, if_true]

theorem verifies_readChunk (tag : Word) (p : List Byte) :
    (ReadChunk.mk tag p (crc32 (be32 tag ++ p))).verifies = true := beq_self_eq_true _

/-- A stream of a legal raster fits the length field of its chunk. -/
theorem zwrap_raster_length_lt {w h : Word} (hl : dimsLegal w h = true) (r g b : Byte) :
    (zwrap (raster w.toNat h.toNat r g b)).length < 2 ^ 32 := by
  rw [zwrap_length, raster_length]
  calc streamLength (rasterLength w.toNat h.toNat)
    _ ≤ streamLength 50335744 := streamLength_mono (rasterLength_lt hl)
    _ < 2 ^ 32 := by decide

/-- A file is read when its signature and its three chunks are, one after another, the chunks verify, and the header and the
stream in them are read. -/
theorem readFile_of_parts {s s1 s2 s3 raw : List Byte} {w h : Word} {c1 c2 c3 : ReadChunk}
    (hsignature : readBytes 8 s = some (Config.signature, s1))
    (hc1 : readChunk s1 = some (c1, s2)) (hc2 : readChunk s2 = some (c2, s3)) (hc3 : readChunk s3 = some (c3, []))
    (htag1 : c1.tag = Config.tagIHDR) (htag2 : c2.tag = Config.tagIDAT) (htag3 : c3.tag = Config.tagIEND)
    (hv1 : c1.verifies = true) (hv2 : c2.verifies = true) (hv3 : c3.verifies = true)
    (hheader : readHeader c1.payload = some (w, h)) (hstream : readStream c2.payload = some (raw, []))
    (hend : c3.payload = []) : readFile s = some ⟨w, h, raw⟩ := by
  simp only [readFile, hsignature, hc1, hc2, hc3, htag1, htag2, htag3, hv1, hv2, hv3, hheader, hstream, hend,
    Option.bind_eq_bind, Option.bind_some, and_self, if_true]

theorem readFile_file {w h : Word} (hl : dimsLegal w h = true) (r g b : Byte) :
    readFile (file w h r g b) = some ⟨w, h, raster w.toNat h.toNat r g b⟩ := by
  have hdata := zwrap_raster_length_lt hl r g b
  have hheader : (headerPayload w h).length < 2 ^ 32 := by rw [headerPayload_length]; decide
  have hend : ([] : List Byte).length < 2 ^ 32 := by decide
  have hstream := readStream_zwrap (raster w.toNat h.toNat r g b) []
  rw [List.append_nil] at hstream
  rw [file, ← List.append_nil (chunk Config.tagIEND []), List.append_assoc, List.append_assoc]
  exact readFile_of_parts (readBytes_append Config.signature _) (readChunk_chunk _ hheader _) (readChunk_chunk _ hdata _)
    (readChunk_chunk _ hend []) rfl rfl rfl (verifies_readChunk _ _) (verifies_readChunk _ _) (verifies_readChunk _ _)
    (readHeader_headerPayload w h) hstream rfl

/-- Settles O30: the file is read by `readFile_file`, and begins with its signature. -/
theorem readerTakesTheFileApart : Obligations.ReaderTakesTheFileApart := by
  unfold Obligations.ReaderTakesTheFileApart
  intro w h r g b hw1 hw2 hh1 hh2
  exact ⟨readFile_file ((dimsLegal_iff w h).mpr ⟨hw1, hw2, hh1, hh2⟩) r g b, rfl⟩

end Sys2Proof.Machine
end
